-- ==== Sys2Proof/Word.lean ====
section
/-! DEFINITION. The widths of GMC-PKT (rule R9): bytes and unsigned 16-, 32- and 64-bit numbers. There is no signed quantity. -/

namespace Sys2Proof

/-- `u8`: a byte of a buffer, of a stream or of a packet (R8, R9). -/
abbrev Byte := BitVec 8

/-- `u16` (R9). -/
abbrev Half := BitVec 16

/-- `u32` (R9). -/
abbrev Word := BitVec 32

/-- `u64` (R9). -/
abbrev DWord := BitVec 64

end Sys2Proof
end

