-- ==== Sys2Proof/Config.lean ====
section
/-! DEFINITION. What is fixed for one block: the parameters of rule R4, and the free values of the model (constants with no
body, which nothing can evaluate). -/

namespace Sys2Proof.Config

/-- `HDR_LEN` (R4): bytes in a header. -/
def headerLen : Nat := 24

/-- `REQ_MAGIC` (R4): byte 0 of a request header. -/
def reqMagic : Byte := 0x80#8

/-- `RSP_MAGIC` (R4): byte 0 of a response header. -/
def rspMagic : Byte := 0x81#8

/-- `MAXBODY_DEFAULT` (R4): the reset value of `MAXBODY`. -/
def maxbodyDefault : Nat := 1000000

/-- `EXTCAP` (R4). -/
def extCap : Nat := 255

/-- `KEYCAP` (R4). -/
def keyCap : Nat := 65535

/-- The least `VALCAP` that R4 allows. -/
def valcapMin : Nat := 1000000

/-- The greatest `VALCAP` that R4 allows, `2^32 - 1 - 65535 - 255`. -/
def valcapMax : Nat := 4294901505

/-- Free parameter: which of the values R4 allows this block's `VALCAP` has (U8; assumption 1). No body. -/
opaque valcapChoice : Nat

/-- `VALCAP` (R4, D19): OPEN, any value from `valcapMin` to `valcapMax`. -/
def valcap : Nat := valcapMin + valcapChoice % (valcapMax - valcapMin + 1)

/-- Free value: what the buffer byte at an offset reads as when no rule has given it a value (U1, U2, U3; R33), fresh at each
draw (the first argument, the State's counter `draws`; assumptions 2 and 4). No body. -/
opaque freeByte : Nat → Nat → Byte

/-- Free value: how many of the staged bytes had reached the wire when the staging queue is thrown away, at a given draw
(U4; R48, R69, R70 (b); assumption 3). A number beyond the queue's length stands for all of it. No body. -/
opaque freeWireCount : Nat → Nat

end Sys2Proof.Config
end

