-- ==== Sys2Proof/Syntax.lean ====
section
/-! DEFINITION. One constructor for each of the thirteen rows of spec/opcode_table.json: the eleven commands (R100) and the
two packet header formats (R92 to R94). -/

namespace Sys2Proof

/-- The fields of a request header (`HDR.REQ`, R92, R93). The magic, 0x80, is the format's own and is no field. -/
structure ReqHeader where
  opcode   : Byte
  keyLen   : Half
  extLen   : Byte
  reserved : Byte
  vbucket  : Half
  totLen   : Word
  opq      : Word
  cas      : DWord
deriving DecidableEq, Repr

/-- The fields of a response header (`HDR.RSP`, R92, R94). The magic, 0x81, is the format's own and is no field. -/
structure RspHeader where
  opcode   : Byte
  keyLen   : Half
  extLen   : Byte
  reserved : Byte
  status   : Half
  totLen   : Word
  opq      : Word
  cas      : DWord
deriving DecidableEq, Repr

/-- What a word of the opcode table stands for. Every command carries its 32-bit operand `arg` (R91): only `CFGMAX` uses it,
but a refusal copies it to `ERRINFO` whatever the command (R46, R197). -/
inductive Instr where
  /-- 0x01, R120: set the maximum accepted body length. -/
  | cfgmax (arg : Word)
  /-- 0x10, R130: read 24 header bytes from the stream. -/
  | ldhdr (arg : Word)
  /-- 0x11, R132: decode `HDRBUF` as a request header. -/
  | decreq (arg : Word)
  /-- 0x12, R133: decode `HDRBUF` as a response header. -/
  | decrsp (arg : Word)
  /-- 0x13, R141: read the frame of the decoded header. -/
  | rdframe (arg : Word)
  /-- 0x14, R143: receive one whole request packet. -/
  | rxreq (arg : Word)
  /-- 0x15, R144: receive one whole response packet. -/
  | rxrsp (arg : Word)
  /-- 0x21, R151: encode a request header into `HDRBUF`. -/
  | encreq (arg : Word)
  /-- 0x22, R152: encode a response header into `HDRBUF`. -/
  | encrsp (arg : Word)
  /-- 0x24, R154: encode and transmit one request packet. -/
  | txreq (arg : Word)
  /-- 0x25, R155: encode and transmit one response packet. -/
  | txrsp (arg : Word)
  /-- `HDR.REQ`, R93: a request header handed to the block (assumption 8). -/
  | hdrReq (h : ReqHeader)
  /-- `HDR.RSP`, R94: a response header handed to the block (assumption 8). -/
  | hdrRsp (h : RspHeader)
deriving DecidableEq, Repr

end Sys2Proof
end

