-- ==== Sys2Proof/Decode.lean ====
section
/-! DEFINITION. The decoder, total on any bytes and rejecting by name; then the encoder, written from the same tables
(R91, R92, R100). A command word is five bytes, the code first and then `arg` with its most significant byte first; a header
is its 24 bytes in stream order (R8; assumption 9). -/

namespace Sys2Proof

/-- The `n` bytes of the number `v`, most significant first (R10 `MemWrite`, R62). -/
def beBytes : Nat → Nat → List Byte
  | 0, _ => []
  | n + 1, v => BitVec.ofNat 8 (v / 256 ^ n) :: beBytes n v

/-- The number whose bytes, most significant first, are the list (R10 `MemRead`, R62). -/
def ofBe (bs : List Byte) : Nat :=
  bs.foldl (fun acc b => acc * 256 + b.toNat) 0

/-- The `n`-byte big-endian number at byte offset `off` of a byte sequence. -/
def fieldAt (bs : List Byte) (off n : Nat) : Nat :=
  ofBe ((bs.drop off).take n)

/-- Byte `off` of a byte sequence, 0 beyond its end. -/
def byteOf (bs : List Byte) (off : Nat) : Byte :=
  bs.getD off 0#8

/-- Why bytes are no instruction. -/
inductive DecodeError where
  /-- A command word whose code is not one of the eleven of R100 (R103). -/
  | unknownCode (code : Byte)
  /-- 24 bytes whose byte 0 is neither 0x80 nor 0x81: no header format (R92, R102, R112). -/
  | noHeaderMagic (b : Byte)
  /-- Neither the five bytes of a command word nor the 24 of a header (R90). -/
  | badLength (n : Nat)
deriving DecidableEq, Repr

namespace Code

/-- The command codes of R100. -/
def cfgmax : Byte := 0x01#8
def ldhdr : Byte := 0x10#8
def decreq : Byte := 0x11#8
def decrsp : Byte := 0x12#8
def rdframe : Byte := 0x13#8
def rxreq : Byte := 0x14#8
def rxrsp : Byte := 0x15#8
def encreq : Byte := 0x21#8
def encrsp : Byte := 0x22#8
def txreq : Byte := 0x24#8
def txrsp : Byte := 0x25#8

/-- The eleven of them (R100). -/
def all : List Byte := [cfgmax, ldhdr, decreq, decrsp, rdframe, rxreq, rxrsp, encreq, encrsp, txreq, txrsp]

end Code

/-- The command of a code (R100), or its rejection (R103). -/
def decodeCommand (code : Byte) (arg : Word) : Except DecodeError Instr :=
  if code = Code.cfgmax then .ok (.cfgmax arg)
  else if code = Code.ldhdr then .ok (.ldhdr arg)
  else if code = Code.decreq then .ok (.decreq arg)
  else if code = Code.decrsp then .ok (.decrsp arg)
  else if code = Code.rdframe then .ok (.rdframe arg)
  else if code = Code.rxreq then .ok (.rxreq arg)
  else if code = Code.rxrsp then .ok (.rxrsp arg)
  else if code = Code.encreq then .ok (.encreq arg)
  else if code = Code.encrsp then .ok (.encrsp arg)
  else if code = Code.txreq then .ok (.txreq arg)
  else if code = Code.txrsp then .ok (.txrsp arg)
  else .error (.unknownCode code)

/-- The fields of a request header, from its 24 bytes (R92, R93). -/
def reqHeaderOf (bs : List Byte) : ReqHeader where
  opcode := byteOf bs 1
  keyLen := BitVec.ofNat 16 (fieldAt bs 2 2)
  extLen := byteOf bs 4
  reserved := byteOf bs 5
  vbucket := BitVec.ofNat 16 (fieldAt bs 6 2)
  totLen := BitVec.ofNat 32 (fieldAt bs 8 4)
  opq := BitVec.ofNat 32 (fieldAt bs 12 4)
  cas := BitVec.ofNat 64 (fieldAt bs 16 8)

/-- The fields of a response header, from its 24 bytes (R92, R94). -/
def rspHeaderOf (bs : List Byte) : RspHeader where
  opcode := byteOf bs 1
  keyLen := BitVec.ofNat 16 (fieldAt bs 2 2)
  extLen := byteOf bs 4
  reserved := byteOf bs 5
  status := BitVec.ofNat 16 (fieldAt bs 6 2)
  totLen := BitVec.ofNat 32 (fieldAt bs 8 4)
  opq := BitVec.ofNat 32 (fieldAt bs 12 4)
  cas := BitVec.ofNat 64 (fieldAt bs 16 8)

/-- The format that 24 bytes have by their byte 0 (the table's match and mask), or its rejection. This names a row of the table and
steers nothing: the machine treats all headers alike until a command names a direction (R101, R112; `execHdrReq`). -/
def decodeHeader (bs : List Byte) : Except DecodeError Instr :=
  if byteOf bs 0 = Config.reqMagic then .ok (.hdrReq (reqHeaderOf bs))
  else if byteOf bs 0 = Config.rspMagic then .ok (.hdrRsp (rspHeaderOf bs))
  else .error (.noHeaderMagic (byteOf bs 0))

/-- The decoder: the three formats of R90 differ in length. -/
def decode (bs : List Byte) : Except DecodeError Instr :=
  if bs.length = 5 then decodeCommand (byteOf bs 0) (BitVec.ofNat 32 (fieldAt bs 1 4))
  else if bs.length = Config.headerLen then decodeHeader bs
  else .error (.badLength bs.length)

/-- A command word's five bytes (R91). -/
def encodeCommand (code : Byte) (arg : Word) : List Byte :=
  code :: beBytes 4 arg.toNat

/-- A request header's 24 bytes (R92, R93). -/
def encodeReqHeader (h : ReqHeader) : List Byte :=
  [Config.reqMagic, h.opcode] ++ beBytes 2 h.keyLen.toNat ++ [h.extLen, h.reserved] ++ beBytes 2 h.vbucket.toNat ++
    beBytes 4 h.totLen.toNat ++ beBytes 4 h.opq.toNat ++ beBytes 8 h.cas.toNat

/-- A response header's 24 bytes (R92, R94). -/
def encodeRspHeader (h : RspHeader) : List Byte :=
  [Config.rspMagic, h.opcode] ++ beBytes 2 h.keyLen.toNat ++ [h.extLen, h.reserved] ++ beBytes 2 h.status.toNat ++
    beBytes 4 h.totLen.toNat ++ beBytes 4 h.opq.toNat ++ beBytes 8 h.cas.toNat

/-- The encoder: the bytes of an instruction, from R91, R92 and R100. -/
def encode : Instr → List Byte
  | .cfgmax arg => encodeCommand Code.cfgmax arg
  | .ldhdr arg => encodeCommand Code.ldhdr arg
  | .decreq arg => encodeCommand Code.decreq arg
  | .decrsp arg => encodeCommand Code.decrsp arg
  | .rdframe arg => encodeCommand Code.rdframe arg
  | .rxreq arg => encodeCommand Code.rxreq arg
  | .rxrsp arg => encodeCommand Code.rxrsp arg
  | .encreq arg => encodeCommand Code.encreq arg
  | .encrsp arg => encodeCommand Code.encrsp arg
  | .txreq arg => encodeCommand Code.txreq arg
  | .txrsp arg => encodeCommand Code.txrsp arg
  | .hdrReq h => encodeReqHeader h
  | .hdrRsp h => encodeRspHeader h

/-- The bytes of a word of spec/opcode_table.json: its bit `nbits - 1` is bit 7 of byte 0 (R8, R91, R92). -/
def tableWordBytes (nbits w : Nat) : List Byte :=
  beBytes (nbits / 8) w

/-- The instruction the decoder reads from a word of spec/opcode_table.json. -/
def decodeTableWord (nbits w : Nat) : Option Instr :=
  (decode (tableWordBytes nbits w)).toOption

end Sys2Proof
end

