-- ==== Sys2Proof/Machine/State.lean ====
section
/-! DEFINITION. The state of one block instance (R20 to R49), the two streams it is attached to (R5, R52, R66 to R70) and the
model's own bookkeeping of what the host and the environment do next (assumptions 5 to 7); and the state after reset (R51). -/

namespace Sys2Proof.Machine

/-- The contents of a byte-addressed buffer: the bytes that some rule has defined, by strictly rising offset. An offset that is
not listed holds an unspecified byte (R31 to R33; assumption 2). -/
abbrev Mem := List Host.Cell

/-- The four buffers (R31, R32). -/
inductive BufName where
  | hdr | ext | key | val
deriving DecidableEq, Repr

/-- The phases of the sequencer (R41). There are no others (U18). -/
inductive Phase where
  | idle | hdrRx | decode | check | extRx | keyRx | valRx | encode | hdrTx | extTx | keyTx | valTx | flush
deriving DecidableEq, Repr

/-- How a command ended: the error kind of R190 and, within it, the sub-cause of R193 or R197. Kinds 4 and 7 to 15 and the
sub-causes not listed are never produced (R37, R196, U18). -/
inductive Cause where
  | none
  | magicMismatch
  | oversizedBody
  | eosAtBoundary | shortHeader | incompleteFrame | writeFail | flushFail | linkDead
  | malformedLength
  | unknownCode | badSequence | badOperand
deriving DecidableEq, Repr

/-- The ten header field registers (R21 to R30). -/
structure HeaderRegs where
  magic   : Byte
  opcode  : Byte
  keyLen  : Half
  extLen  : Byte
  vbucket : Half
  status  : Half
  totLen  : Word
  opq     : Word
  cas     : DWord
  valLen  : Word
deriving DecidableEq, Repr

/-- The four buffers with the three length registers (R31, R32). `HDRBUF` has no length register. -/
structure Buffers where
  hdr    : Mem
  extLen : Byte
  ext    : Mem
  keyLen : Half
  key    : Mem
  valLen : Word
  val    : Mem
deriving DecidableEq, Repr

/-- The flags of `CSR` (R36). The register's word is `csrWord`. -/
structure Flags where
  busy : Bool
  done : Bool
  hl   : Bool
  hv   : Bool
  fok  : Bool
  dead : Bool
deriving DecidableEq, Repr

/-- The fields of `ERR` (R37). The register's word is `errWord`. -/
structure ErrReg where
  cause : Cause
  phase : Phase
  cmd   : Byte
deriving DecidableEq, Repr

/-- The error registers `ERR`, `ERRINFO`, `ERRSTICKY` (R37 to R39). -/
structure ErrRegs where
  err    : ErrReg
  info   : Word
  sticky : Byte
deriving DecidableEq, Repr

/-- The sequencer `SEQ = (PHASE, CNT)`, the block's program counter (R40). -/
structure Seq where
  phase : Phase
  cnt   : Word
deriving DecidableEq, Repr

/-- What `TxSink` will answer to the pushes and flushes to come (R68, R69): `Ok` to all of them; or `Ok` to the next `oks`, and
then `Fail` for ever, or no answer yet. -/
inductive Sink where
  | takesAll
  | takes (oks : Nat) (thenFails : Bool)
deriving DecidableEq, Repr

/-- The environment's side of the two streams (R52, R66 to R70): the bytes `RxPeer` has sent that no pull has taken, whether
`End` follows them, what `TxSink` will answer, and the bytes on the wire. It is not state of the block. -/
structure Env where
  rx      : List Byte
  rxEnded : Bool
  sink    : Sink
  wire    : List Byte
deriving DecidableEq, Repr

/-- One move of the host or of the environment (R5, R6). The model's own (assumptions 5, 6). -/
inductive Input where
  /-- The host gives the block the bytes of a command word (R165), or of a packet header (assumption 8). -/
  | word (bytes : List Byte)
  /-- Host access `HRD n` (R161). -/
  | hrd (n : Nat)
  /-- Host access `HWR n, v` (R162). -/
  | hwr (n v : Nat)
  /-- Host access `BLD n, s` (R163). -/
  | bld (n : Nat) (bytes : List Byte)
  /-- Host access `BRD n` (R164). -/
  | brd (n : Nat)
  /-- `Reset` (R220). -/
  | reset
  /-- `RxPeer` sends bytes (R66). -/
  | rxSend (bytes : List Byte)
  /-- `RxPeer` ends its stream (R66). -/
  | rxEnd
  /-- `TxSink` is ready to answer `Ok` to `n` more pushes and flushes (R68). -/
  | sinkTakes (n : Nat)
  /-- `TxSink` will answer `Fail` once the answers `Ok` it still has to give are used up (R68). -/
  | sinkFails
  /-- `TxSink` is not ready any more: it answers nothing until it is ready again (R68 (c)). -/
  | sinkWaits
  /-- `TxSink` moves the first `n` staged bytes to the wire unasked (R48, R68 (d)). -/
  | sinkDrains (n : Nat)
  /-- The sequencer's turn, the host and the environment doing nothing (R6). -/
  | turn
deriving DecidableEq, Repr

/-- What a host access answers (R160). -/
inductive Answer where
  /-- `Ok(v)` of an `HRD`: the register's width in bits, and its value. -/
  | reg (bits value : Nat)
  /-- `Ok(bytes)` of a `BRD`. -/
  | bytes (bs : List Byte)
  /-- `Ok` of an `HWR` or a `BLD`. -/
  | ok
  | refused
deriving DecidableEq, Repr

/-- The model's own fields, no state of the spec (assumptions 4 to 7, 15). `inputs`: what the host and the environment do next,
in order. `yields`: before each micro-step of the sequencer, whether its turn ends there so that another agent moves first; an
empty list ends no turn. `draws`: counts the free values drawn. `answer`: what the last host access answered. -/
structure Driver where
  inputs : List Input
  yields : List Bool
  draws  : Nat
  answer : Option Answer
deriving DecidableEq, Repr

/-- The whole state: the block (R20), then its streams, then the model's own fields. -/
structure State where
  /-- The header field registers (R21 to R30). -/
  h       : HeaderRegs
  /-- The buffers and their length registers (R31 to R34). -/
  buf     : Buffers
  /-- `MAXBODY` (R35). -/
  maxbody : Word
  /-- `CSR` (R36). -/
  flags   : Flags
  /-- `ERR`, `ERRINFO`, `ERRSTICKY` (R37 to R39). -/
  errs    : ErrRegs
  /-- `SEQ` (R40). -/
  seq     : Seq
  /-- `CMDREG` (R49). -/
  cmdreg  : Byte
  /-- `TXQ` (R48). -/
  txq     : List Byte
  /-- The streams (R52). -/
  env     : Env
  /-- The model's own fields. -/
  drv     : Driver
deriving DecidableEq, Repr

/-- The reasons a step could stop with a fault. There are none: the spec gives every command, host access and event of this
block an outcome that is a state (R7, R46, R160, R220), its errors are recorded in registers and the machine goes on (R190,
R200), and a wait is a state in which the sequencer does not move (R6). Nothing raises one, which is safe: no run stops. -/
inductive Fault where
deriving DecidableEq, Repr

/-- The reasons a step could have no meaning. -/
inductive Refusal where
  /-- Raised by an arm of `exec` whose instruction has no meaning yet; no arm is left that does. Safe: it stops the run. -/
  | notModelled (mnemonic : String)
deriving DecidableEq, Repr

/-- The state after reset (R51, R220), with the default `MAXBODY` of R35. The streams are those of a new connection (R222,
R223): nothing has been sent and the stream has not ended, the sink takes what it is given, the wire is empty (assumption 5). -/
def State.reset : State where
  h := ⟨0, 0, 0, 0, 0, 0, 0, 0, 0, 0⟩
  buf := ⟨[], 0, [], 0, [], 0, []⟩
  maxbody := BitVec.ofNat 32 Config.maxbodyDefault
  flags := ⟨false, false, false, false, false, false⟩
  errs := ⟨⟨.none, .idle, 0⟩, 0, 0⟩
  seq := ⟨.idle, 0⟩
  cmdreg := 0
  txq := []
  env := ⟨[], false, .takesAll, []⟩
  drv := ⟨[], [], 0, Option.none⟩

/-! Updates of one component each; `Laws/State.lean` says what each leaves. -/

def State.setH (v : HeaderRegs) (s : State) : State := { s with h := v }
def State.setBuf (v : Buffers) (s : State) : State := { s with buf := v }
def State.setMaxbody (v : Word) (s : State) : State := { s with maxbody := v }
def State.setFlags (v : Flags) (s : State) : State := { s with flags := v }
def State.setErrs (v : ErrRegs) (s : State) : State := { s with errs := v }
def State.setSeq (v : Seq) (s : State) : State := { s with seq := v }
def State.setCmdreg (v : Byte) (s : State) : State := { s with cmdreg := v }
def State.setTxq (v : List Byte) (s : State) : State := { s with txq := v }
def State.setEnv (v : Env) (s : State) : State := { s with env := v }
def State.setDrv (v : Driver) (s : State) : State := { s with drv := v }

end Sys2Proof.Machine
end

