-- ==== Sys2Proof/Machine/Flags.lean ====
section
/-! DEFINITION. The error codes and the words of the status registers (R36, R37, R190, R193, R197), the sticky error bits (R39)
and what the start of a phase does to the flags (R36). The block has no arithmetic flags (R47). -/

namespace Sys2Proof.Machine

/-- `ERR.KIND` (R37, R190). -/
def Cause.kind : Cause → BitVec 4
  | .none => 0
  | .magicMismatch => 1
  | .oversizedBody => 2
  | .eosAtBoundary => 3
  | .shortHeader => 3
  | .incompleteFrame => 3
  | .writeFail => 3
  | .flushFail => 3
  | .linkDead => 3
  | .malformedLength => 5
  | .unknownCode => 6
  | .badSequence => 6
  | .badOperand => 6

/-- `ERR.SUB`: the sub-cause of a transport error (R193) or of a refusal (R197), 0 for a kind that has none. -/
def Cause.sub : Cause → BitVec 4
  | .none => 0
  | .magicMismatch => 0
  | .oversizedBody => 0
  | .eosAtBoundary => 1
  | .shortHeader => 2
  | .incompleteFrame => 3
  | .writeFail => 4
  | .flushFail => 5
  | .linkDead => 6
  | .malformedLength => 0
  | .unknownCode => 1
  | .badSequence => 2
  | .badOperand => 3

/-- Kind 3, `TRANSPORT` (R190, R193). -/
def Cause.isTransport (c : Cause) : Bool :=
  c.kind == 3

/-- The bit of `ERRSTICKY` that belongs to a cause: bit `k` for kind `k` (R39). -/
def Cause.stickyBit (c : Cause) : Byte :=
  match c with
  | .none => 0
  | c => 1#8 <<< c.kind.toNat

/-- The value of `SEQ.PHASE` and of `ERR.PHASE` (R41). -/
def Phase.code : Phase → BitVec 4
  | .idle => 0
  | .hdrRx => 1
  | .decode => 2
  | .check => 3
  | .extRx => 4
  | .keyRx => 5
  | .valRx => 6
  | .encode => 7
  | .hdrTx => 8
  | .extTx => 9
  | .keyTx => 10
  | .valTx => 11
  | .flush => 12

/-- `CSR` as the host reads it (R36): bits 31 to 6 are 0. -/
def csrWord (f : Flags) : Word :=
  0#26 ++ BitVec.ofBool f.dead ++ BitVec.ofBool f.fok ++ BitVec.ofBool f.hv ++ BitVec.ofBool f.hl ++
    BitVec.ofBool f.done ++ BitVec.ofBool f.busy

/-- `ERR` as the host reads it (R37): bits 31 to 24 and 15 to 12 are 0. -/
def errWord (e : ErrReg) : Word :=
  0#8 ++ e.cmd ++ 0#4 ++ e.phase.code ++ e.cause.sub ++ e.cause.kind

/-- What the start of a phase does to the flags (the columns "set by" and "cleared by" of R36). -/
def enterFlags (p : Phase) (f : Flags) : Flags :=
  match p with
  | .hdrRx => { f with hl := false, hv := false }
  | .decode => { f with hv := false }
  | .check => { f with hv := false, fok := false }
  | _ => f

end Sys2Proof.Machine
end

