-- ==== Sys2Proof/Machine/Operands.lean ====
section
/-! DEFINITION. How commands, phases and host accesses name their operands: the buffer of a phase (R41), the host's register and
buffer numbers (R50), the magic of a command (R49), the bound on `CFGMAX`'s operand and on the buffers (R32, R46). -/

namespace Sys2Proof.Machine

/-- The length of a buffer: 24 for `HDRBUF`, else its length register (R31, R32, R43). -/
def Buffers.len (b : BufName) (B : Buffers) : Nat :=
  match b with
  | .hdr => Config.headerLen
  | .ext => B.extLen.toNat
  | .key => B.keyLen.toNat
  | .val => B.valLen.toNat

/-- The contents of a buffer (R31, R32). -/
def Buffers.mem (b : BufName) (B : Buffers) : Mem :=
  match b with
  | .hdr => B.hdr
  | .ext => B.ext
  | .key => B.key
  | .val => B.val

/-- The buffers with other contents in one of them. -/
def Buffers.setMem (b : BufName) (m : Mem) (B : Buffers) : Buffers :=
  match b with
  | .hdr => { B with hdr := m }
  | .ext => { B with ext := m }
  | .key => { B with key := m }
  | .val => { B with val := m }

/-- The buffers with another length in one of them; `HDRBUF` has no length register (R31). -/
def Buffers.setLen (b : BufName) (n : Nat) (B : Buffers) : Buffers :=
  match b with
  | .hdr => B
  | .ext => { B with extLen := BitVec.ofNat 8 n }
  | .key => { B with keyLen := BitVec.ofNat 16 n }
  | .val => { B with valLen := BitVec.ofNat 32 n }

/-- `EXTBUF.len + KEYBUF.len + VALBUF.len`, computed as an integer (R99). -/
def Buffers.total (B : Buffers) : Nat :=
  B.extLen.toNat + B.keyLen.toNat + B.valLen.toNat

/-- The receive phase of a buffer (R41). -/
def rxPhase : BufName → Phase
  | .hdr => .hdrRx
  | .ext => .extRx
  | .key => .keyRx
  | .val => .valRx

/-- The transmit phase of a buffer (R41). -/
def txPhase : BufName → Phase
  | .hdr => .hdrTx
  | .ext => .extTx
  | .key => .keyTx
  | .val => .valTx

/-- The sections that come after a part of a packet, in the order of the wire (R42, R72, R98). -/
def laterSections : BufName → List BufName
  | .hdr => [.ext, .key, .val]
  | .ext => [.key, .val]
  | .key => [.val]
  | .val => []

/-- The magic a command expects or writes (R49, R101, R112): 0x80 for the request commands, 0x81 for the response commands. -/
def magicOf (code : Byte) : Byte :=
  if code = Code.decreq ∨ code = Code.rxreq ∨ code = Code.encreq ∨ code = Code.txreq then Config.reqMagic
  else Config.rspMagic

/-- The commands whose phases go on after `HDR_RX` and after `DECODE`: `RXREQ`, `RXRSP` (R42). -/
def isReceive (code : Byte) : Bool :=
  code = Code.rxreq ∨ code = Code.rxrsp

/-- The commands whose phases go on after `ENCODE`: `TXREQ`, `TXRSP` (R42). -/
def isTransmit (code : Byte) : Bool :=
  code = Code.txreq ∨ code = Code.txrsp

/-- `n > VALCAP`. Since `VALCAP` lies between its bounds of R4, a number outside them is settled without it. -/
def exceedsValcap (n : Nat) : Bool :=
  decide (Config.valcapMax < n) || (decide (Config.valcapMin < n) && decide (Config.valcap < n))

/-- A byte sequence of this length fits the buffer (R163): exactly 24 for `HDRBUF`, at most the capacity (R32) for a section. -/
def fits (b : BufName) (n : Nat) : Bool :=
  match b with
  | .hdr => decide (n = Config.headerLen)
  | .ext => decide (n ≤ Config.extCap)
  | .key => decide (n ≤ Config.keyCap)
  | .val => !exceedsValcap n

/-- The buffer of a host number (R50). -/
def bufferOf (n : Nat) : Option BufName :=
  match n with
  | 0x20 => some .ext
  | 0x21 => some .key
  | 0x22 => some .val
  | 0x23 => some .hdr
  | _ => none

/-- The width in bits and the value of a host register, by number (R50). A number not listed is no register. -/
def hostRegister (n : Nat) (s : State) : Option (Nat × Nat) :=
  match n with
  | 0x00 => some (32, (csrWord s.flags).toNat)
  | 0x01 => some (32, (errWord s.errs.err).toNat)
  | 0x02 => some (32, s.errs.info.toNat)
  | 0x03 => some (8, s.errs.sticky.toNat)
  | 0x04 => some (32, s.maxbody.toNat)
  | 0x08 => some (8, s.h.magic.toNat)
  | 0x09 => some (8, s.h.opcode.toNat)
  | 0x0A => some (16, s.h.keyLen.toNat)
  | 0x0B => some (8, s.h.extLen.toNat)
  | 0x0C => some (16, s.h.vbucket.toNat)
  | 0x0D => some (16, s.h.status.toNat)
  | 0x0E => some (32, s.h.totLen.toNat)
  | 0x0F => some (32, s.h.opq.toNat)
  | 0x10 => some (64, s.h.cas.toNat)
  | 0x11 => some (32, s.h.valLen.toNat)
  | 0x12 => some (4, s.seq.phase.code.toNat)
  | 0x13 => some (32, s.seq.cnt.toNat)
  | 0x18 => some (8, s.buf.extLen.toNat)
  | 0x19 => some (16, s.buf.keyLen.toNat)
  | 0x1A => some (32, s.buf.valLen.toNat)
  | _ => none

/-- The registers the host may read while a command is in flight: `CSR`, `ERR`, `ERRINFO`, `ERRSTICKY`, `SEQ.PHASE`, `SEQ.CNT`
(R50, R160 (c)). -/
def readableWhileBusy (n : Nat) : Bool :=
  match n with
  | 0x00 => true
  | 0x01 => true
  | 0x02 => true
  | 0x03 => true
  | 0x12 => true
  | 0x13 => true
  | _ => false

/-- The header field registers after a host write of `v` to register `n`; none where the host may not write register `n`, or
`v` is wider than it (R162). -/
def writtenRegs (n v : Nat) (h : HeaderRegs) : Option HeaderRegs :=
  match n with
  | 0x09 => if v < 2 ^ 8 then some { h with opcode := BitVec.ofNat 8 v } else none
  | 0x0C => if v < 2 ^ 16 then some { h with vbucket := BitVec.ofNat 16 v } else none
  | 0x0D => if v < 2 ^ 16 then some { h with status := BitVec.ofNat 16 v } else none
  | 0x0F => if v < 2 ^ 32 then some { h with opq := BitVec.ofNat 32 v } else none
  | 0x10 => if v < 2 ^ 64 then some { h with cas := BitVec.ofNat 64 v } else none
  | _ => none

end Sys2Proof.Machine
end

