-- ==== Sys2Proof/Machine/Ops.lean ====
section
/-! DEFINITION. The operations the commands share: memory, the ends of a command (`done()`, `raise`, `refuse`), acceptance, the
stream primitives and the micro-steps of the thirteen phases, and the sequencer's turn. -/

namespace Sys2Proof.Machine

/-! ## Memory -/

/-- The defined byte at an offset, if there is one. -/
def Mem.read : Mem → Nat → Option Byte
  | [], _ => none
  | (k, b) :: m, a => if a = k then some b else Mem.read m a

/-- `BUF[a] <- b` (R10): the list stays sorted, with one entry an offset. -/
def Mem.write : Mem → Nat → Byte → Mem
  | [], a, b => [(a, b)]
  | (k, c) :: m, a, b =>
    if a < k then (a, b) :: (k, c) :: m
    else if a = k then (a, b) :: m
    else (k, c) :: Mem.write m a b

/-- Writes bytes at successive offsets (`MemWrite` of R10 on the bytes of its number). -/
def Mem.writeAll (m : Mem) (a : Nat) : List Byte → Mem
  | [] => m
  | b :: bs => Mem.writeAll (Mem.write m a b) (a + 1) bs

/-- The contents that hold exactly these bytes, from offset `a` on. -/
def Mem.ofBytes (a : Nat) : List Byte → Mem
  | [] => []
  | b :: bs => (a, b) :: Mem.ofBytes (a + 1) bs

/-- The canonical form: offsets strictly rising. Every listed byte is a defined one, and an unlisted offset reads as a free
value, which no listed byte equals by form (assumption 2). -/
abbrev Mem.wf (m : Mem) : Prop :=
  m.Pairwise (fun x y => x.1 < y.1)

/-- A byte as it is read: the defined byte, or the free value of this draw (R31, R33, U1 to U3). -/
def Mem.byteAt (draw : Nat) (m : Mem) (a : Nat) : Byte :=
  (Mem.read m a).getD (Config.freeByte draw a)

/-- The `n` bytes from offset `a` on, as they are read. -/
def Mem.bytes (draw : Nat) (m : Mem) (a : Nat) : Nat → List Byte
  | 0 => []
  | n + 1 => Mem.byteAt draw m a :: Mem.bytes draw m (a + 1) n

/-- `BUF[a] <- b` in one of the buffers. -/
def Buffers.store (b : BufName) (a : Nat) (x : Byte) (B : Buffers) : Buffers :=
  Buffers.setMem b (Mem.write (Buffers.mem b B) a x) B

/-- Length and contents of a buffer set together (`BLD`, R163). -/
def Buffers.load (b : BufName) (bs : List Byte) (B : Buffers) : Buffers :=
  Buffers.setLen b bs.length (Buffers.setMem b (Mem.ofBytes 0 bs) B)

/-- Byte `off` of `HDRBUF`. -/
def headerByte (s : State) (off : Nat) : Byte :=
  Mem.byteAt s.drv.draws s.buf.hdr off

/-- `MemRead(HDRBUF, off, n)` (R10): big-endian (R62). -/
def headerField (s : State) (off n : Nat) : Nat :=
  ofBe (Mem.bytes s.drv.draws s.buf.hdr off n)

/-! ## The end of a command -/

/-- Throws the staged bytes away (R48, R200): a prefix of them, which one is free, had reached the wire (R69, R70 (b), U4). -/
def discardStaged (s : State) : State :=
  match s.txq with
  | [] => s
  | q => ((s.setTxq []).setEnv { s.env with wire := s.env.wire ++ q.take (Config.freeWireCount s.drv.draws) }).setDrv
      { s.drv with draws := s.drv.draws + 1 }

/-- `done()` (R45). -/
def finish (s : State) : State :=
  (s.setFlags { s.flags with busy := false, done := true }).setSeq ⟨.idle, 0⟩

/-- `raise K(sub, info)` (R200), the block's taking of an exception: `ERR`, `ERRINFO` and `ERRSTICKY` record it, a transport
error kills the link and discards the staged bytes, and the command ends. There is no handler and no mode. -/
def raise (c : Cause) (info : Word) (s : State) : State :=
  let s1 := s.setErrs ⟨⟨c, s.seq.phase, s.cmdreg⟩, info, s.errs.sticky ||| c.stickyBit⟩
  let s2 := if c.isTransport then discardStaged (s1.setFlags { s1.flags with dead := true }) else s1
  finish s2

/-- `refuse(sub)` (R197): the command is not started. -/
def refuse (c : Cause) (code : Byte) (arg : Word) (s : State) : State :=
  ((s.setCmdreg code).setErrs ⟨⟨c, .idle, code⟩, arg, s.errs.sticky ||| c.stickyBit⟩).setFlags { s.flags with done := true }

/-- The immediate error of a stream command on a dead link (R46 step 3). -/
def linkDead (code : Byte) (s : State) : State :=
  ((s.setCmdreg code).setErrs ⟨⟨.linkDead, .idle, code⟩, 0, s.errs.sticky ||| Cause.stickyBit .linkDead⟩).setFlags
    { s.flags with done := true }

/-- The registers every accepted command sets (R46 steps 6 and 7): `CMDREG`, `ERR`, `ERRINFO`. -/
def beginRecord (code : Byte) (s : State) : State :=
  (s.setCmdreg code).setErrs ⟨⟨.none, .idle, code⟩, 0, s.errs.sticky⟩

/-! ## Phases -/

/-- `SEQ <- (P, 0)` with the flag effects of the start of the phase (R36, R40). At the start of `HDR_RX` no byte of `HDRBUF` is
defined any more (R31, R130; assumption 18). -/
def enter (p : Phase) (s : State) : State :=
  let s1 := (s.setFlags (enterFlags p s.flags)).setSeq ⟨p, 0⟩
  match p with
  | .hdrRx => s1.setBuf { s1.buf with hdr := [] }
  | _ => s1

/-- Acceptance (R46 step 7). -/
def accept (code : Byte) (p : Phase) (s : State) : State :=
  let s1 := beginRecord code s
  enter p (s1.setFlags { s1.flags with busy := true, done := false })

/-- Goes on to the receive phase of the first section that is not empty; after the last one the frame is complete (R42, R140
to R142). -/
def nextRecv : List BufName → State → State
  | [], s => finish (s.setFlags { s.flags with fok := true })
  | b :: bs, s => if Buffers.len b s.buf = 0 then nextRecv bs s else enter (rxPhase b) s

/-- Goes on to the transmit phase of the first section that is not empty; after the last one to `FLUSH` (R42, R153). -/
def nextSend : List BufName → State → State
  | [], s => enter .flush s
  | b :: bs, s => if Buffers.len b s.buf = 0 then nextSend bs s else enter (txPhase b) s

/-- The end of the receive phase of a buffer (R42, R130, R141, R143). -/
def endRecv (b : BufName) (s : State) : State :=
  match b with
  | .hdr =>
    let s1 := s.setFlags { s.flags with hl := true }
    if isReceive s.cmdreg then enter .decode s1 else finish s1
  | b => nextRecv (laterSections b) s

/-- A byte has come for a buffer (R43): `B[CNT] <- b; CNT <- CNT + 1`, and the end of the phase when it is full. -/
def received (b : BufName) (x : Byte) (s : State) : State :=
  let n := s.seq.cnt.toNat
  let s1 := (s.setBuf (Buffers.store b n x s.buf)).setSeq ⟨s.seq.phase, s.seq.cnt + 1⟩
  if n + 1 = Buffers.len b s.buf then endRecv b s1 else s1

/-- The sub-cause of a stream that ends during a receive phase (R43, R193). -/
def shortCause (b : BufName) (cnt : Word) : Cause :=
  match b with
  | .hdr => if cnt = 0 then .eosAtBoundary else .shortHeader
  | _ => .incompleteFrame

/-- Micro-step of a receive phase (R43). `RxPull()` (R66) takes the next byte, or finds `End`, or waits: then the step has not
happened yet (R6). -/
def recvStep (b : BufName) (s : State) : Option State :=
  match s.env.rx with
  | x :: rest => some (received b x (s.setEnv { s.env with rx := rest }))
  | [] => if s.env.rxEnded then some (raise (shortCause b s.seq.cnt) s.seq.cnt s) else none

/-- The answer of `TxSink` to a push or a flush (R68, R69) and its answers after that: `Ok`, `Fail`, or none yet. A `Fail` is
for ever. -/
def Sink.answer : Sink → Option (Bool × Sink)
  | .takesAll => some (true, .takesAll)
  | .takes (n + 1) f => some (true, .takes n f)
  | .takes 0 true => some (false, .takes 0 true)
  | .takes 0 false => none

/-- A byte has been taken (R44, R68): it is staged, `CNT <- CNT + 1`, and the phase ends when the buffer is sent. -/
def pushed (b : BufName) (s : State) : State :=
  let n := s.seq.cnt.toNat
  let s1 := (s.setTxq (s.txq ++ [Mem.byteAt s.drv.draws (Buffers.mem b s.buf) n])).setSeq ⟨s.seq.phase, s.seq.cnt + 1⟩
  if n + 1 = Buffers.len b s.buf then nextSend (laterSections b) s1 else s1

/-- Micro-step of a transmit phase (R44). -/
def sendStep (b : BufName) (s : State) : Option State :=
  match s.env.sink.answer with
  | some (true, k) => some (pushed b (s.setEnv { s.env with sink := k }))
  | some (false, _) => some (raise .writeFail s.seq.cnt s)
  | none => none

/-- Micro-step of `FLUSH` (R44, R69): on `Ok` all that is staged is on the wire. -/
def flushStep (s : State) : Option State :=
  match s.env.sink.answer with
  | some (true, k) => some (finish ((s.setTxq []).setEnv { s.env with sink := k, wire := s.env.wire ++ s.txq }))
  | some (false, _) => some (raise .flushFail 0 s)
  | none => none

/-- The declared total, key and extras lengths of the header in `HDRBUF` (R97). -/
def declaredTotal (s : State) : Nat := headerField s 8 4
def declaredKey (s : State) : Nat := headerField s 2 2
def declaredExtras (s : State) : Nat := (headerByte s 4).toNat

/-- The header field registers that a successful decode leaves (R95, R131): bytes 6-7 go to `H_VBUCKET` for a request and to
`H_STATUS` for a response, byte 5 goes nowhere (R96). -/
def decodedRegs (magic : Byte) (s : State) : HeaderRegs where
  magic := magic
  opcode := headerByte s 1
  keyLen := BitVec.ofNat 16 (declaredKey s)
  extLen := headerByte s 4
  vbucket := if magic = Config.reqMagic then BitVec.ofNat 16 (headerField s 6 2) else s.h.vbucket
  status := if magic = Config.reqMagic then s.h.status else BitVec.ofNat 16 (headerField s 6 2)
  totLen := BitVec.ofNat 32 (declaredTotal s)
  opq := BitVec.ofNat 32 (headerField s 12 4)
  cas := BitVec.ofNat 64 (headerField s 16 8)
  valLen := BitVec.ofNat 32 (declaredTotal s - declaredKey s - declaredExtras s)

/-- `Decode(M)`, the micro-step of `DECODE` (R131, R97): the magic, then the lengths, then all registers at once. -/
def decodeStep (s : State) : State :=
  if headerByte s 0 ≠ magicOf s.cmdreg then raise .magicMismatch ((headerByte s 0).setWidth 32) s
  else if declaredTotal s < declaredKey s + declaredExtras s then
    raise .malformedLength (BitVec.ofNat 32 (declaredTotal s)) s
  else
    let s1 := (s.setH (decodedRegs (magicOf s.cmdreg) s)).setFlags { s.flags with hv := true }
    if isReceive s.cmdreg then enter .check s1 else finish s1

/-- Allocation (R34): the three length registers; the contents are unspecified from then on. -/
def allocate (s : State) : State :=
  s.setBuf { s.buf with
    extLen := s.h.extLen, ext := [], keyLen := s.h.keyLen, key := [], valLen := s.h.valLen, val := [] }

/-- `Check()`, the micro-step of `CHECK` (R140): the declared total against `MAXBODY`, strict, before anything is allocated. -/
def checkStep (s : State) : State :=
  if s.maxbody < s.h.totLen then raise .oversizedBody s.h.totLen s
  else nextRecv [.ext, .key, .val] (allocate s)

/-- `HDRBUF` as `Encode(M)` builds it (R95, R150), from the registers and the lengths of the buffers. All 24 bytes are written,
so nothing of the old contents is left. -/
def encodedHeader (magic : Byte) (s : State) : Mem :=
  let m0 := Mem.writeAll [] 0 [magic]
  let m1 := Mem.writeAll m0 1 [s.h.opcode]
  let m2 := Mem.writeAll m1 2 (beBytes 2 s.buf.keyLen.toNat)
  let m3 := Mem.writeAll m2 4 [s.buf.extLen]
  let m4 := Mem.writeAll m3 5 [0x00#8]
  let m5 := Mem.writeAll m4 6 (beBytes 2 (if magic = Config.reqMagic then s.h.vbucket else s.h.status).toNat)
  let m6 := Mem.writeAll m5 8 (beBytes 4 (Buffers.total s.buf))
  let m7 := Mem.writeAll m6 12 (beBytes 4 s.h.opq.toNat)
  Mem.writeAll m7 16 (beBytes 8 s.h.cas.toNat)

/-- The micro-step of `ENCODE` (R150). -/
def encodeStep (s : State) : State :=
  let s1 := (s.setBuf { s.buf with hdr := encodedHeader (magicOf s.cmdreg) s }).setFlags
    { s.flags with hl := true, hv := false }
  if isTransmit s.cmdreg then enter .hdrTx s1 else finish s1

/-! ## The sequencer -/

/-- One micro-step (R41); none when no command is in flight or the environment has not answered yet (R6). -/
def microStep (s : State) : Option State :=
  match s.seq.phase with
  | .idle => none
  | .hdrRx => recvStep .hdr s
  | .decode => some (decodeStep s)
  | .check => some (checkStep s)
  | .extRx => recvStep .ext s
  | .keyRx => recvStep .key s
  | .valRx => recvStep .val s
  | .encode => some (encodeStep s)
  | .hdrTx => sendStep .hdr s
  | .extTx => sendStep .ext s
  | .keyTx => sendStep .key s
  | .valTx => sendStep .val s
  | .flush => flushStep s

/-- Up to `n` micro-steps (R43 lets a model batch them), until the command ends, or the environment makes it wait, or `yields`
gives the next move to another agent (assumption 7). -/
def runSeq : Nat → State → State
  | 0, s => s
  | n + 1, s =>
    if s.flags.busy then
      match s.drv.yields with
      | true :: ys => s.setDrv { s.drv with yields := ys }
      | ys =>
        match microStep (s.setDrv { s.drv with yields := ys.tail }) with
        | none => s
        | some t => runSeq n t
    else s

/-- As many micro-steps as a command can need: each but a handful takes a byte from the stream or sends one of the packet. -/
def stepBound (s : State) : Nat :=
  s.env.rx.length + Config.headerLen + Buffers.total s.buf + 8

/-- The sequencer's turn. -/
def seqTurn (s : State) : State :=
  runSeq (stepBound s) s

/-- `Cmd(code, arg)` for a command with phases (R46): dropped while busy; then the dead link, for a stream command; then its
sequence precondition; then acceptance, and the sequencer's turn. -/
def issue (code : Byte) (arg : Word) (stream ready : Bool) (first : Phase) (s : State) : State :=
  if s.flags.busy then s
  else if stream && s.flags.dead then linkDead code s
  else if !ready then refuse .badSequence code arg s
  else seqTurn (accept code first s)

/-- `Cmd(code, arg)` for a code that is no command (R46 steps 1 and 2, R103). -/
def issueUnknown (code : Byte) (arg : Word) (s : State) : State :=
  if s.flags.busy then s else refuse .unknownCode code arg s

end Sys2Proof.Machine
end

