-- ==== Sys2Proof/Machine/Configuration.lean ====
section
/-! DEFINITION. The configuration command (R120). -/

namespace Sys2Proof.Machine

/-- The effect of an accepted `CFGMAX` (R46 step 6, R120): the whole command runs in the acceptance step. -/
def configure (arg : Word) (s : State) : State :=
  ((beginRecord Code.cfgmax s).setMaxbody arg).setFlags { s.flags with done := true }

/-- `CFGMAX arg` (R120): dropped while busy, refused above `VALCAP`. -/
def execCfgmax (arg : Word) (s : State) : Host.Outcome State Fault Refusal :=
  .next (if s.flags.busy then s
    else if exceedsValcap arg.toNat then refuse .badOperand Code.cfgmax arg s
    else configure arg s)

end Sys2Proof.Machine
end

