-- ==== Sys2Proof/Machine/HostAccess.lean ====
section
/-! DEFINITION. The host access operations (R160 to R164) and `Reset` (R220). The answer of an access is kept in `answer`,
which is not state of the block. -/

namespace Sys2Proof.Machine

/-- Gives the host its answer. -/
def answered (a : Answer) (s : State) : State :=
  s.setDrv { s.drv with answer := some a }

/-- `HRD n` (R161): while busy only the status registers can be read (R160 (c)). -/
def hostRead (n : Nat) (s : State) : State :=
  if s.flags.busy && !readableWhileBusy n then answered .refused s
  else
    match hostRegister n s with
    | none => answered .refused s
    | some (bits, value) => answered (.reg bits value) s

/-- `HWR n, v` (R162). -/
def hostWrite (n v : Nat) (s : State) : State :=
  if s.flags.busy then answered .refused s
  else
    match writtenRegs n v s.h with
    | none => answered .refused s
    | some h => answered .ok (s.setH h)

/-- What a `BLD` does to the flags (R36, R163). -/
def loadFlags (b : BufName) (f : Flags) : Flags :=
  match b with
  | .hdr => { f with hl := true, hv := false }
  | _ => { f with fok := false }

/-- `BLD n, s` (R163). -/
def hostLoad (n : Nat) (bs : List Byte) (s : State) : State :=
  if s.flags.busy then answered .refused s
  else
    match bufferOf n with
    | none => answered .refused s
    | some b =>
      if fits b bs.length then
        answered .ok ((s.setBuf (Buffers.load b bs s.buf)).setFlags (loadFlags b s.flags))
      else answered .refused s

/-- A buffer's bytes as a `BRD` reads them; each `BRD` draws its unspecified bytes afresh (R33, R164, U3). -/
def bufferBytes (b : BufName) (s : State) : List Byte :=
  Mem.bytes s.drv.draws (Buffers.mem b s.buf) 0 (Buffers.len b s.buf)

/-- `BRD n` (R164): `HDRBUF` can be read only when all its bytes are defined. -/
def hostDump (n : Nat) (s : State) : State :=
  if s.flags.busy then answered .refused s
  else
    match bufferOf n with
    | none => answered .refused s
    | some b =>
      if b == .hdr && !s.flags.hl then answered .refused s
      else answered (.bytes (bufferBytes b s)) (s.setDrv { s.drv with draws := s.drv.draws + 1 })

/-- `Reset` (R220): every piece of the block's state goes to its reset value (R51); the environment is left as it is, but that
a prefix of what was staged may have reached the wire (assumption 3). DESIGN CHOICE, unsafe (assumption 24): R222 means one reset
for each connection, given together with fresh streams, and R71 leaves to the platform how they come; no move attaches them, so
`Reset` is a reset on the connection that is there, and a second connection is a run from a state with its own streams. -/
def resetBlock (s : State) : State :=
  let s1 := discardStaged s
  (State.reset.setEnv s1.env).setDrv s1.drv

end Sys2Proof.Machine
end

