-- ==== Sys2Proof/Machine/Header.lean ====
section
/-! DEFINITION. A packet header handed to the block (R92 to R94; assumption 8): the host loads its 24 bytes into `HDRBUF` (R163).
Nothing decodes them here: which direction a header is decoded in is named by a command, never by the header (R90, R101, R112),
so the two formats are loaded alike. -/

namespace Sys2Proof.Machine

/-- `HDR.REQ` (R93): `BLD HDRBUF`. `DECREQ` is the command that decodes it. -/
def execHdrReq (h : ReqHeader) (s : State) : Host.Outcome State Fault Refusal :=
  .next (hostLoad 0x23 (encodeReqHeader h) s)

/-- `HDR.RSP` (R94): `BLD HDRBUF`. `DECRSP` is the command that decodes it. -/
def execHdrRsp (h : RspHeader) (s : State) : Host.Outcome State Fault Refusal :=
  .next (hostLoad 0x23 (encodeRspHeader h) s)

end Sys2Proof.Machine
end

