-- ==== Sys2Proof/Machine/HeaderLoad.lean ====
section
/-! DEFINITION. Header load and header decode (R130 to R133). -/

namespace Sys2Proof.Machine

/-- `LDHDR` (R130): a stream command with no sequence precondition, first phase `HDR_RX`. -/
def execLdhdr (arg : Word) (s : State) : Host.Outcome State Fault Refusal :=
  .next (issue Code.ldhdr arg true true .hdrRx s)

/-- `DECREQ` (R132): no stream command, needs `CSR.HL`, first phase `DECODE` with the magic 0x80. -/
def execDecreq (arg : Word) (s : State) : Host.Outcome State Fault Refusal :=
  .next (issue Code.decreq arg false s.flags.hl .decode s)

/-- `DECRSP` (R133): no stream command, needs `CSR.HL`, first phase `DECODE` with the magic 0x81. -/
def execDecrsp (arg : Word) (s : State) : Host.Outcome State Fault Refusal :=
  .next (issue Code.decrsp arg false s.flags.hl .decode s)

end Sys2Proof.Machine
end

