-- ==== Sys2Proof/Machine/Receive.lean ====
section
/-! DEFINITION. Frame read and packet receive (R141 to R144). -/

namespace Sys2Proof.Machine

/-- `RDFRAME` (R141): a stream command that needs `CSR.HV`, first phase `CHECK`. -/
def execRdframe (arg : Word) (s : State) : Host.Outcome State Fault Refusal :=
  .next (issue Code.rdframe arg true s.flags.hv .check s)

/-- `RXREQ` (R143): a stream command with no sequence precondition, first phase `HDR_RX`, expecting the magic 0x80. -/
def execRxreq (arg : Word) (s : State) : Host.Outcome State Fault Refusal :=
  .next (issue Code.rxreq arg true true .hdrRx s)

/-- `RXRSP` (R144): as `RXREQ`, expecting the magic 0x81. -/
def execRxrsp (arg : Word) (s : State) : Host.Outcome State Fault Refusal :=
  .next (issue Code.rxrsp arg true true .hdrRx s)

end Sys2Proof.Machine
end

