-- ==== Sys2Proof/Machine/Transmit.lean ====
section
/-! DEFINITION. Header encode and packet transmit (R151, R152, R154, R155). -/

namespace Sys2Proof.Machine

/-- `ENCREQ` (R151): no stream command, no precondition, first phase `ENCODE`, writing the magic 0x80. -/
def execEncreq (arg : Word) (s : State) : Host.Outcome State Fault Refusal :=
  .next (issue Code.encreq arg false true .encode s)

/-- `ENCRSP` (R152): as `ENCREQ`, writing the magic 0x81. -/
def execEncrsp (arg : Word) (s : State) : Host.Outcome State Fault Refusal :=
  .next (issue Code.encrsp arg false true .encode s)

/-- `TXREQ` (R154): a stream command with no sequence precondition, first phase `ENCODE`, writing the magic 0x80. -/
def execTxreq (arg : Word) (s : State) : Host.Outcome State Fault Refusal :=
  .next (issue Code.txreq arg true true .encode s)

/-- `TXRSP` (R155): as `TXREQ`, writing the magic 0x81. -/
def execTxrsp (arg : Word) (s : State) : Host.Outcome State Fault Refusal :=
  .next (issue Code.txrsp arg true true .encode s)

end Sys2Proof.Machine
end

