-- ==== Sys2Proof/Machine/Dispatch.lean ====
section
/-! DEFINITION. One arm per constructor of Instr, each one call of the instruction's meaning. -/

namespace Sys2Proof.Machine

def exec (i : Instr) (s : State) : Host.Outcome State Fault Refusal :=
  match i with
  | .cfgmax arg => Sys2Proof.Machine.execCfgmax arg s
  | .ldhdr arg => Sys2Proof.Machine.execLdhdr arg s
  | .decreq arg => Sys2Proof.Machine.execDecreq arg s
  | .decrsp arg => Sys2Proof.Machine.execDecrsp arg s
  | .rdframe arg => Sys2Proof.Machine.execRdframe arg s
  | .rxreq arg => Sys2Proof.Machine.execRxreq arg s
  | .rxrsp arg => Sys2Proof.Machine.execRxrsp arg s
  | .encreq arg => Sys2Proof.Machine.execEncreq arg s
  | .encrsp arg => Sys2Proof.Machine.execEncrsp arg s
  | .txreq arg => Sys2Proof.Machine.execTxreq arg s
  | .txrsp arg => Sys2Proof.Machine.execTxrsp arg s
  | .hdrReq h => Sys2Proof.Machine.execHdrReq h s
  | .hdrRsp h => Sys2Proof.Machine.execHdrRsp h s

end Sys2Proof.Machine
end

