-- ==== Sys2Proof/Machine/Streams.lean ====
section
/-! DEFINITION. The moves of the environment (R5, R66, R68): what `RxPeer` sends, what `TxSink` will answer, and its draining of
staged bytes. None of them touches the block but for
`TXQ`, and none gives the block another connection's streams (assumption 24). -/

namespace Sys2Proof.Machine

/-- `RxPeer` sends bytes; after `End` nothing comes any more (R66 (b)). -/
def peerSends (bs : List Byte) (s : State) : State :=
  if s.env.rxEnded then s else s.setEnv { s.env with rx := s.env.rx ++ bs }

/-- `RxPeer` ends its stream (R66). -/
def peerEnds (s : State) : State :=
  s.setEnv { s.env with rxEnded := true }

/-- `n` more answers `Ok`, unless `Fail` is already to come (R68 (b)). -/
def Sink.grant (n : Nat) : Sink → Sink
  | .takesAll => .takesAll
  | .takes m false => .takes (m + n) false
  | .takes m true => .takes m true

/-- `Fail` from now on, after the answers `Ok` that are still to come (R68). -/
def Sink.failing : Sink → Sink
  | .takesAll => .takes 0 true
  | .takes m _ => .takes m true

/-- No answer until the next grant, unless `Fail` is already to come (R68 (b), (c)). -/
def Sink.holding : Sink → Sink
  | .takesAll => .takes 0 false
  | .takes _ false => .takes 0 false
  | .takes m true => .takes m true

/-- `TxSink` is ready for `n` more pushes and flushes. -/
def sinkGrants (n : Nat) (s : State) : State :=
  s.setEnv { s.env with sink := s.env.sink.grant n }

/-- `TxSink` fails. -/
def sinkFailing (s : State) : State :=
  s.setEnv { s.env with sink := s.env.sink.failing }

/-- `TxSink` waits. -/
def sinkWaiting (s : State) : State :=
  s.setEnv { s.env with sink := s.env.sink.holding }

/-- `TxSink` moves the first `n` staged bytes to the wire unasked (R48, R68 (d)). -/
def sinkDrain (n : Nat) (s : State) : State :=
  (s.setTxq (s.txq.drop n)).setEnv { s.env with wire := s.env.wire ++ s.txq.take n }

end Sys2Proof.Machine
end

