-- ==== Sys2Proof/Machine/Fetch.lean ====
section
/-! DEFINITION. How the next move is taken, and every move but that of a word which decodes: the host's accesses, the
environment's moves, the sequencer's turn, and a word that is no instruction (R103; assumption 10). -/

namespace Sys2Proof.Machine

/-- The next move of the host or of the environment, taken off the list; with none left it is the sequencer's turn, and with no
command in flight the block waits (R221). -/
def nextInput (s : State) : Input × State :=
  match s.drv.inputs with
  | [] => (.turn, s)
  | i :: rest => (i, s.setDrv { s.drv with inputs := rest })

/-- A word that is no instruction. Five bytes are a command word with an unknown code (R46 step 2, R103). Other bytes can only
be for `HDRBUF`, and `BLD` says what becomes of them (R163): 24 of them are loaded, as 24 bytes that are a header are (R112), and
any other number is refused. -/
def rejectWord (e : DecodeError) (bytes : List Byte) (s : State) : State :=
  match e with
  | .unknownCode code => issueUnknown code (BitVec.ofNat 32 (fieldAt bytes 1 4)) s
  | .noHeaderMagic _ => hostLoad 0x23 bytes s
  | .badLength _ => hostLoad 0x23 bytes s

/-- The moves that are no word. -/
def move (i : Input) (s : State) : State :=
  match i with
  | .word _ => s
  | .hrd n => hostRead n s
  | .hwr n v => hostWrite n v s
  | .bld n bytes => hostLoad n bytes s
  | .brd n => hostDump n s
  | .reset => resetBlock s
  | .rxSend bytes => peerSends bytes s
  | .rxEnd => peerEnds s
  | .sinkTakes n => sinkGrants n s
  | .sinkFails => sinkFailing s
  | .sinkWaits => sinkWaiting s
  | .sinkDrains n => sinkDrain n s
  | .turn => seqTurn s

/-- The host's next move is these bytes (assumption 6). -/
def giveWord (bytes : List Byte) (s : State) : State :=
  s.setDrv { s.drv with inputs := .word bytes :: s.drv.inputs }

end Sys2Proof.Machine
end

