-- ==== Sys2Proof/Machine/Step.lean ====
section
/-! DEFINITION. One step: the next move of one of the agents of R5. A word the host gives is decoded and executed. -/

namespace Sys2Proof.Machine

/-- One step (R6). -/
def step (s : State) : Host.Outcome State Fault Refusal :=
  match nextInput s with
  | (.word bytes, t) =>
    match decode bytes with
    | .ok i => exec i t
    | .error e => .next (rejectWord e bytes t)
  | (i, t) => .next (move i t)

/-- The state in which the host's next move is a word of spec/opcode_table.json: there is no instruction memory (R60, R78),
words are handed to the block. -/
def State.withFetchWord (s : State) (nbits w : Nat) : State :=
  giveWord (tableWordBytes nbits w) s

end Sys2Proof.Machine
end

