-- ==== Sys2Proof/Machine/BigStep.lean ====
section
/-! DEFINITION. What a command comes to as a whole, with no micro-steps: the functions `Rx` and `Tx` of rules R145 and R156, as
functions from the state a command is given in to the state it leaves. The machine does not use them; the statements say that
it agrees with them. -/

namespace Sys2Proof.Machine

/-! ## How a command ends -/

/-- A command that was accepted and ended ok (R45, R46 step 7), nothing else having changed. -/
def endedOk (code : Byte) (s : State) : State :=
  { s with
    flags := { s.flags with busy := false, done := true }
    errs := ⟨⟨.none, .idle, code⟩, 0, s.errs.sticky⟩
    seq := ⟨.idle, 0⟩
    cmdreg := code }

/-- A command that was accepted and ended with an error raised in a phase (R200), nothing else having changed but, on a
transport error, `DEAD`. -/
def endedError (c : Cause) (p : Phase) (code : Byte) (info : Word) (s : State) : State :=
  { s with
    flags := { s.flags with busy := false, done := true, dead := c.isTransport || s.flags.dead }
    errs := ⟨⟨c, p, code⟩, info, s.errs.sticky ||| c.stickyBit⟩
    seq := ⟨.idle, 0⟩
    cmdreg := code }

/-- A command that was accepted and is still in flight, having moved `n` bytes in a phase (R6, R7 `hang`, R40). -/
def inFlight (p : Phase) (n : Nat) (code : Byte) (s : State) : State :=
  { s with
    flags := { s.flags with busy := true, done := false }
    errs := ⟨⟨.none, .idle, code⟩, 0, s.errs.sticky⟩
    seq := ⟨p, BitVec.ofNat 32 n⟩
    cmdreg := code }

/-- A command that was not started (R46 step 3, R197): only the error registers, `CMDREG` and `DONE` change. -/
def notStarted (c : Cause) (code : Byte) (info : Word) (s : State) : State :=
  { s with
    flags := { s.flags with done := true }
    errs := ⟨⟨c, .idle, code⟩, info, s.errs.sticky ||| c.stickyBit⟩
    cmdreg := code }

/-! ## Headers -/

/-- The header field registers after a request header has been decoded (R95, R97, R132): `H_STATUS` is kept. -/
def requestRegs (hd : ReqHeader) (h : HeaderRegs) : HeaderRegs where
  magic := Config.reqMagic
  opcode := hd.opcode
  keyLen := hd.keyLen
  extLen := hd.extLen
  vbucket := hd.vbucket
  status := h.status
  totLen := hd.totLen
  opq := hd.opq
  cas := hd.cas
  valLen := BitVec.ofNat 32 (hd.totLen.toNat - hd.keyLen.toNat - hd.extLen.toNat)

/-- The header field registers after a response header has been decoded (R95, R97, R133): `H_VBUCKET` is kept. -/
def responseRegs (hd : RspHeader) (h : HeaderRegs) : HeaderRegs where
  magic := Config.rspMagic
  opcode := hd.opcode
  keyLen := hd.keyLen
  extLen := hd.extLen
  vbucket := h.vbucket
  status := hd.status
  totLen := hd.totLen
  opq := hd.opq
  cas := hd.cas
  valLen := BitVec.ofNat 32 (hd.totLen.toNat - hd.keyLen.toNat - hd.extLen.toNat)

/-- The two directions together, by the magic the command expects. -/
def regsFrom (magic : Byte) (bs : List Byte) (h : HeaderRegs) : HeaderRegs :=
  if magic = Config.reqMagic then requestRegs (reqHeaderOf bs) h else responseRegs (rspHeaderOf bs) h

/-- The request header that the registers and the buffer lengths describe (R95, R96, R99, R151). -/
def requestHeader (s : State) : ReqHeader where
  opcode := s.h.opcode
  keyLen := s.buf.keyLen
  extLen := s.buf.extLen
  reserved := 0
  vbucket := s.h.vbucket
  totLen := BitVec.ofNat 32 (Buffers.total s.buf)
  opq := s.h.opq
  cas := s.h.cas

/-- The response header that the registers and the buffer lengths describe (R95, R96, R99, R152). -/
def responseHeader (s : State) : RspHeader where
  opcode := s.h.opcode
  keyLen := s.buf.keyLen
  extLen := s.buf.extLen
  reserved := 0
  status := s.h.status
  totLen := BitVec.ofNat 32 (Buffers.total s.buf)
  opq := s.h.opq
  cas := s.h.cas

/-- The 24 bytes an encode builds, by the magic the command writes (R150). -/
def headerBytes (magic : Byte) (s : State) : List Byte :=
  if magic = Config.reqMagic then encodeReqHeader (requestHeader s) else encodeRspHeader (responseHeader s)

/-! ## Receive (R145) -/

/-- The outcome of a receive, as R145 lists them. -/
inductive RxOutcome where
  /-- A transport error: its sub-cause, its phase and the bytes moved in that phase. -/
  | transport (c : Cause) (p : Phase) (info : Nat)
  | magicMismatch
  | malformed
  | oversized
  /-- Received whole. -/
  | ok
  /-- The stream has neither delivered nor ended: still in flight, in a phase, with the bytes moved in it. -/
  | waiting (p : Phase) (cnt : Nat)
deriving DecidableEq, Repr

/-- Where a frame of which only `n` bytes have come breaks off: the first section that is not wholly there, and how many of its
bytes are (R145). -/
def frameBreak (extLen keyLen n : Nat) : Phase × Nat :=
  if n < extLen then (.extRx, n)
  else if n < extLen + keyLen then (.keyRx, n - extLen)
  else (.valRx, n - extLen - keyLen)

/-- The outcome of reading a frame of the given lengths from a stream (R141). -/
def frameOutcome (extLen keyLen total : Nat) (bs : List Byte) (ended : Bool) : RxOutcome :=
  if total ≤ bs.length then .ok
  else
    let b := frameBreak extLen keyLen bs.length
    if ended then .transport .incompleteFrame b.1 b.2 else .waiting b.1 b.2

/-- `Rx(M, s)` (R145): the outcome of a receive of the bytes `bs`, after which the stream has ended or not. -/
def rxOutcome (magic : Byte) (maxbody : Nat) (bs : List Byte) (ended : Bool) : RxOutcome :=
  if bs.length < Config.headerLen then
    if ended then .transport (if bs.length = 0 then .eosAtBoundary else .shortHeader) .hdrRx bs.length
    else .waiting .hdrRx bs.length
  else if byteOf bs 0 ≠ magic then .magicMismatch
  else if fieldAt bs 8 4 < fieldAt bs 2 2 + (byteOf bs 4).toNat then .malformed
  else if maxbody < fieldAt bs 8 4 then .oversized
  else frameOutcome (byteOf bs 4).toNat (fieldAt bs 2 2) (fieldAt bs 8 4) (bs.drop Config.headerLen) ended

/-- The buffers after allocation (R34) and after as much of the frame as there is has been read (R141, R33). -/
def frameBuffers (h : HeaderRegs) (bs : List Byte) (B : Buffers) : Buffers where
  hdr := B.hdr
  extLen := h.extLen
  ext := Mem.ofBytes 0 (bs.take h.extLen.toNat)
  keyLen := h.keyLen
  key := Mem.ofBytes 0 ((bs.drop h.extLen.toNat).take h.keyLen.toNat)
  valLen := h.valLen
  val := Mem.ofBytes 0 ((bs.drop (h.extLen.toNat + h.keyLen.toNat)).take h.valLen.toNat)

/-- The state with the first bytes of the stream consumed. -/
def consumed (n : Nat) (s : State) : State :=
  { s with env := { s.env with rx := s.env.rx.drop n } }

/-- The state with the header bytes that are there loaded from the stream, and `HL`, `HV` as given. -/
def headerLoaded (hl hv : Bool) (s : State) : State :=
  { s with
    buf := { s.buf with hdr := Mem.ofBytes 0 (s.env.rx.take Config.headerLen) }
    flags := { s.flags with hl := hl, hv := hv } }

/-- The state with the frame bytes that are there read, given the header registers, from the stream after `skip` bytes. -/
def frameRead (fok : Bool) (skip : Nat) (s : State) : State :=
  { s with
    buf := frameBuffers s.h (s.env.rx.drop skip) s.buf
    flags := { s.flags with hv := false, fok := fok } }

/-- What `RXREQ` (with the magic 0x80) and `RXRSP` (0x81) come to (R143 to R145). -/
def rxState (code magic : Byte) (s : State) : State :=
  let bs := s.env.rx
  let n := Config.headerLen
  let decoded := { headerLoaded true false s with h := regsFrom magic bs s.h }
  match rxOutcome magic s.maxbody.toNat bs s.env.rxEnded with
  | .transport c .hdrRx k => endedError c .hdrRx code (BitVec.ofNat 32 k) (consumed n (headerLoaded false false s))
  | .waiting .hdrRx k => inFlight .hdrRx k code (consumed n (headerLoaded false false s))
  | .magicMismatch =>
    endedError .magicMismatch .decode code ((byteOf bs 0).setWidth 32) (consumed n (headerLoaded true false s))
  | .malformed =>
    endedError .malformedLength .decode code (BitVec.ofNat 32 (fieldAt bs 8 4)) (consumed n (headerLoaded true false s))
  | .oversized =>
    endedError .oversizedBody .check code (BitVec.ofNat 32 (fieldAt bs 8 4))
      (consumed n { decoded with flags := { decoded.flags with fok := false } })
  | .ok => endedOk code (consumed (n + fieldAt bs 8 4) (frameRead true n decoded))
  | .transport c p k => endedError c p code (BitVec.ofNat 32 k) (consumed bs.length (frameRead false n decoded))
  | .waiting p k => inFlight p k code (consumed bs.length (frameRead false n decoded))

/-- What `RDFRAME` comes to, from a state with a decoded header (R140, R141). -/
def rdframeState (s : State) : State :=
  let bs := s.env.rx
  let code := Code.rdframe
  if s.maxbody < s.h.totLen then
    endedError .oversizedBody .check code s.h.totLen { s with flags := { s.flags with hv := false, fok := false } }
  else
    match frameOutcome s.h.extLen.toNat s.h.keyLen.toNat s.h.totLen.toNat bs s.env.rxEnded with
    | .transport c p k => endedError c p code (BitVec.ofNat 32 k) (consumed bs.length (frameRead false 0 s))
    | .waiting p k => inFlight p k code (consumed bs.length (frameRead false 0 s))
    | _ => endedOk code (consumed s.h.totLen.toNat (frameRead true 0 s))

/-- What `LDHDR` comes to (R130). -/
def ldhdrState (s : State) : State :=
  let bs := s.env.rx
  let n := Config.headerLen
  let code := Code.ldhdr
  if n ≤ bs.length then endedOk code (consumed n (headerLoaded true false s))
  else if s.env.rxEnded then
    endedError (if bs.length = 0 then .eosAtBoundary else .shortHeader) .hdrRx code (BitVec.ofNat 32 bs.length)
      (consumed n (headerLoaded false false s))
  else inFlight .hdrRx bs.length code (consumed n (headerLoaded false false s))

/-! ## Decode and encode -/

/-- The 24 bytes of `HDRBUF` as they are read. -/
def hdrBytes (s : State) : List Byte :=
  bufferBytes .hdr s

/-- What `DECREQ` (0x80) and `DECRSP` (0x81) come to, from a state with `HL` set (R131 to R133). -/
def decodeState (code magic : Byte) (s : State) : State :=
  let bs := hdrBytes s
  let cleared := { s with flags := { s.flags with hv := false } }
  if byteOf bs 0 ≠ magic then endedError .magicMismatch .decode code ((byteOf bs 0).setWidth 32) cleared
  else if fieldAt bs 8 4 < fieldAt bs 2 2 + (byteOf bs 4).toNat then
    endedError .malformedLength .decode code (BitVec.ofNat 32 (fieldAt bs 8 4)) cleared
  else endedOk code { s with h := regsFrom magic bs s.h, flags := { s.flags with hv := true } }

/-- The state with the header of the registers and the buffer lengths in `HDRBUF` (R150). -/
def headerBuilt (magic : Byte) (s : State) : State :=
  { s with
    buf := { s.buf with hdr := Mem.ofBytes 0 (headerBytes magic s) }
    flags := { s.flags with hl := true, hv := false } }

/-! ## Transmit (R156) -/

/-- The packet `P` of R70: the header, the extras, the key and the value. -/
def packet (magic : Byte) (s : State) : List Byte :=
  headerBytes magic s ++ bufferBytes .ext s ++ bufferBytes .key s ++ bufferBytes .val s

/-- The section of a packet in which its byte `j` lies, and that byte's offset in the section (R156). -/
def packetPlace (B : Buffers) (j : Nat) : Phase × Nat :=
  if j < Config.headerLen then (.hdrTx, j)
  else if j < Config.headerLen + B.extLen.toNat then (.extTx, j - Config.headerLen)
  else if j < Config.headerLen + B.extLen.toNat + B.keyLen.toNat then (.keyTx, j - Config.headerLen - B.extLen.toNat)
  else (.valTx, j - Config.headerLen - B.extLen.toNat - B.keyLen.toNat)

/-- The state in which the first `j` bytes of the packet are staged and the sink gives no more answers `Ok`. -/
def staged (magic : Byte) (j : Nat) (fails : Bool) (s : State) : State :=
  { headerBuilt magic s with
    txq := (packet magic s).take j
    env := { s.env with sink := .takes 0 fails } }

/-- The state with the whole packet on the wire. -/
def sent (magic : Byte) (k : Sink) (s : State) : State :=
  { headerBuilt magic s with env := { s.env with sink := k, wire := s.env.wire ++ packet magic s } }

/-- What `TXREQ` (0x80) and `TXRSP` (0x81) come to (R153 to R156): `j` is the number of answers `Ok` the sink still gives. -/
def txState (code magic : Byte) (s : State) : State :=
  let n := (packet magic s).length
  match s.env.sink with
  | .takesAll => endedOk code (sent magic .takesAll s)
  | .takes j fails =>
    if n < j then endedOk code (sent magic (.takes (j - (n + 1)) fails) s)
    else
      let place := if j = n then (.flush, 0) else packetPlace s.buf j
      if fails then
        endedError (if j = n then .flushFail else .writeFail) place.1 code (BitVec.ofNat 32 place.2)
          (discardStaged (staged magic j true s))
      else inFlight place.1 place.2 code (staged magic j false s)

/-! ## Sequences of commands -/

/-- The command in question has ended ok (R166). -/
def endedWell (s : State) : Bool :=
  !s.flags.busy && s.errs.err.cause == .none

/-- The next command, if the last one ended ok; else the sequence stops there (R106, R143). -/
def thenIfOk (o : Host.Outcome State Fault Refusal) (f : State → Host.Outcome State Fault Refusal) :
    Host.Outcome State Fault Refusal :=
  match o with
  | .next t => if endedWell t then f t else .next t
  | .fault r => .fault r
  | .refused r => .refused r

/-- A function of the state, applied to the state an outcome gives. -/
def onNext (g : State → State) (o : Host.Outcome State Fault Refusal) : Host.Outcome State Fault Refusal :=
  match o with
  | .next t => .next (g t)
  | .fault r => .fault r
  | .refused r => .refused r

/-- The state as another command would have left it: `CMDREG` and `ERR.CMD` hold that command's code. -/
def asCommand (code : Byte) (s : State) : State :=
  { s with cmdreg := code, errs := { s.errs with err := { s.errs.err with cmd := code } } }

/-- The state once a move has been taken off the list of inputs. -/
def popped (rest : List Input) (s : State) : State :=
  { s with drv := { s.drv with inputs := rest } }

/-- The state in which the host has loaded the 24 bytes of a header into `HDRBUF` (R163). -/
def headerGiven (bs : List Byte) (s : State) : State :=
  { s with
    buf := { s.buf with hdr := Mem.ofBytes 0 bs }
    flags := { s.flags with hl := true, hv := false }
    drv := { s.drv with answer := some .ok } }

end Sys2Proof.Machine
end

