-- ==== Sys2Proof/Safety.lean ====
section
/-! DEFINITION. What holds of the block at every step (the invariants that the rules of 10_state.md state), the premise "no
fault recorded" of R39, and the words in which claims about runs are put. -/

namespace Sys2Proof.Machine

/-- "No fault recorded" (R39): no command since reset was refused or ended in an error. -/
def State.noErrorRecorded (s : State) : Prop := s.errs.sticky = 0

/-- Offsets 0 to `n - 1` are defined. -/
def Mem.definedTo (n : Nat) (m : Mem) : Prop := ∀ a, a < n → (Mem.read m a).isSome

/-- The whole content of a section buffer is defined (R32). -/
def sectionComplete (b : BufName) (B : Buffers) : Prop := Mem.definedTo (Buffers.len b B) (Buffers.mem b B)

/-- The buffer whose bytes a phase moves (R41); none for a phase that moves no byte. -/
def movedBuffer : Phase → Option BufName
  | .idle => none
  | .hdrRx => some .hdr
  | .decode => none
  | .check => none
  | .extRx => some .ext
  | .keyRx => some .key
  | .valRx => some .val
  | .encode => none
  | .hdrTx => some .hdr
  | .extTx => some .ext
  | .keyTx => some .key
  | .valTx => some .val
  | .flush => none

/-- The phases that read a frame (R41). -/
def isFrameRx : Phase → Bool
  | .extRx => true
  | .keyRx => true
  | .valRx => true
  | _ => false

/-- The phases after `ENCODE` of a transmit (R41). -/
def isTx : Phase → Bool
  | .hdrTx => true
  | .extTx => true
  | .keyTx => true
  | .valTx => true
  | .flush => true
  | _ => false

/-- The stream commands (R46 step 3, R100). -/
def isStream (code : Byte) : Bool :=
  code = Code.ldhdr ∨ code = Code.rdframe ∨ code = Code.rxreq ∨ code = Code.rxrsp ∨ code = Code.txreq ∨ code = Code.txrsp

/-- Which commands pass through a phase (the last column of R41). -/
def passesThrough (code : Byte) : Phase → Bool
  | .idle => true
  | .hdrRx => code = Code.ldhdr ∨ code = Code.rxreq ∨ code = Code.rxrsp
  | .decode => code = Code.decreq ∨ code = Code.decrsp ∨ code = Code.rxreq ∨ code = Code.rxrsp
  | .check => code = Code.rdframe ∨ code = Code.rxreq ∨ code = Code.rxrsp
  | .extRx => code = Code.rdframe ∨ code = Code.rxreq ∨ code = Code.rxrsp
  | .keyRx => code = Code.rdframe ∨ code = Code.rxreq ∨ code = Code.rxrsp
  | .valRx => code = Code.rdframe ∨ code = Code.rxreq ∨ code = Code.rxrsp
  | .encode => code = Code.encreq ∨ code = Code.encrsp ∨ code = Code.txreq ∨ code = Code.txrsp
  | .hdrTx => code = Code.txreq ∨ code = Code.txrsp
  | .extTx => code = Code.txreq ∨ code = Code.txrsp
  | .keyTx => code = Code.txreq ∨ code = Code.txrsp
  | .valTx => code = Code.txreq ∨ code = Code.txrsp
  | .flush => code = Code.txreq ∨ code = Code.txrsp

/-- Which command can end with which cause, raised in which phase (R190, R193, R197, R198). -/
def canEndWith (code : Byte) (c : Cause) (p : Phase) : Bool :=
  match c with
  | .none => p = .idle
  | .magicMismatch => p = .decode ∧ passesThrough code p
  | .malformedLength => p = .decode ∧ passesThrough code p
  | .oversizedBody => p = .check ∧ passesThrough code p
  | .eosAtBoundary => p = .hdrRx ∧ passesThrough code p
  | .shortHeader => p = .hdrRx ∧ passesThrough code p
  | .incompleteFrame => isFrameRx p ∧ passesThrough code p
  | .writeFail => isTx p ∧ p ≠ .flush ∧ passesThrough code p
  | .flushFail => p = .flush ∧ passesThrough code p
  | .linkDead => p = .idle ∧ isStream code
  | .unknownCode => p = .idle ∧ code ∉ Code.all
  | .badSequence => p = .idle ∧ (code = Code.decreq ∨ code = Code.decrsp ∨ code = Code.rdframe)
  | .badOperand => p = .idle ∧ code = Code.cfgmax

/-- The invariants of the block. -/
structure Inv (s : State) : Prop where
  /-- `MAXBODY <= VALCAP` (R35). -/
  maxbody_le : s.maxbody.toNat ≤ Config.valcap
  /-- `VALBUF.len <= VALCAP` (R32); the other two lengths cannot exceed their capacities. -/
  valLen_le : s.buf.valLen.toNat ≤ Config.valcap
  /-- The memories are in canonical form (assumption 2). -/
  mem_wf : ∀ b, Mem.wf (Buffers.mem b s.buf)
  /-- Bytes at or beyond a buffer's length do not exist (R32). -/
  mem_bound : ∀ b, ∀ x ∈ Buffers.mem b s.buf, x.1 < Buffers.len b s.buf
  /-- `H_MAGIC` is 0x80, 0x81 or the reset value (R21). -/
  magic : s.h.magic = 0 ∨ s.h.magic = Config.reqMagic ∨ s.h.magic = Config.rspMagic
  /-- `H_TOTLEN = H_EXTLEN + H_KEYLEN + H_VALLEN` (R27, R30). -/
  lengths : s.h.totLen.toNat = s.h.extLen.toNat + s.h.keyLen.toNat + s.h.valLen.toNat
  /-- With no command in flight, and only then, `SEQ` is in `IDLE` (R40). -/
  busy_iff : s.flags.busy = true ↔ s.seq.phase ≠ .idle
  /-- A command in flight has not ended (R36). -/
  not_done : s.flags.busy = true → s.flags.done = false
  /-- `CNT < L` in a phase that moves bytes (R43, R44), and 0 in the others (R40). -/
  count : match movedBuffer s.seq.phase with
    | some b => s.seq.cnt.toNat < Buffers.len b s.buf
    | none => s.seq.cnt = 0
  /-- Bytes are staged only after the `ENCODE` of a transmit (R48). -/
  staged : isTx s.seq.phase = false → s.txq = []
  /-- The phase belongs to the command in flight (R41, R42). -/
  command : passesThrough s.cmdreg s.seq.phase = true
  /-- No stream command runs on a dead link (R46 step 3). -/
  alive : s.flags.busy = true → isStream s.cmdreg = true → s.flags.dead = false
  /-- `CMDREG` is readable as `ERR.CMD` (R49). -/
  err_cmd : s.errs.err.cmd = s.cmdreg
  /-- While a command is in flight no error is recorded for it (R46 step 7). -/
  err_busy : s.flags.busy = true → s.errs.err.cause = .none
  /-- A command that ended ok leaves `ERRINFO = 0` (R38, R45). -/
  err_info : s.errs.err.cause = .none → s.errs.info = 0
  /-- The recorded error is one that the command can end in (R198). -/
  err_table : canEndWith s.errs.err.cmd s.errs.err.cause s.errs.err.phase = true
  /-- The recorded error has its bit in `ERRSTICKY` (R39). -/
  err_sticky : s.errs.sticky &&& s.errs.err.cause.stickyBit = s.errs.err.cause.stickyBit
  /-- Bits 0, 4 and 7 of `ERRSTICKY` are 0 (R39). -/
  sticky_zero : s.errs.sticky &&& 0x91#8 = 0
  /-- A dead connection has had a transport error (R36, R39). -/
  dead_sticky : s.flags.dead = true → s.errs.sticky &&& 0x08#8 = 0x08#8
  /-- `HL`: all 24 bytes of `HDRBUF` are defined (R31, R36). -/
  hl_defined : s.flags.hl = true → Mem.definedTo Config.headerLen s.buf.hdr
  /-- A valid header is a loaded one (R36). -/
  hv_hl : s.flags.hv = true → s.flags.hl = true
  /-- `HL` is clear while a header is read (R36). -/
  hl_hdrRx : s.seq.phase = .hdrRx → s.flags.hl = false
  /-- In every phase after `HDR_RX` and after `ENCODE` the header is loaded (R36, R42, R46 step 4). -/
  hl_later : s.seq.phase ≠ .idle → s.seq.phase ≠ .hdrRx → s.seq.phase ≠ .encode → s.flags.hl = true
  /-- The decoded lengths count only until the frame is read (R36): `HV` is clear in every phase but `ENCODE`. -/
  hv_phase : s.flags.hv = true → s.seq.phase = .idle ∨ s.seq.phase = .encode
  /-- `FOK` is clear from the start of `CHECK` on (R36). -/
  fok_phase : s.seq.phase = .check ∨ isFrameRx s.seq.phase = true → s.flags.fok = false
  /-- `FOK`: the section buffers hold a complete frame (R36). -/
  fok_complete : s.flags.fok = true → ∀ b, b ≠ .hdr → sectionComplete b s.buf
  /-- Unspecified section bytes exist only inside a frame read or on a dead link (R33, R163), so no transmit can send one. -/
  complete : s.flags.dead = false → isFrameRx s.seq.phase = false → ∀ b, b ≠ .hdr → sectionComplete b s.buf
  /-- While a frame is read the buffers have the lengths of the decoded header (R34). -/
  allocated : isFrameRx s.seq.phase = true →
    s.buf.extLen = s.h.extLen ∧ s.buf.keyLen = s.h.keyLen ∧ s.buf.valLen = s.h.valLen
  /-- In a receive phase the bytes received so far are defined (R33, R43). -/
  received : ∀ b, s.seq.phase = rxPhase b → Mem.definedTo s.seq.cnt.toNat (Buffers.mem b s.buf)
  /-- The sections before the one being received are complete (R42). -/
  earlier : ∀ b c, s.seq.phase = rxPhase b → b ∈ laterSections c → c ≠ .hdr → sectionComplete c s.buf

end Sys2Proof.Machine
end

