-- ==== Sys2Proof/Certificates/Slice0/Obligations.lean ====
section
/-! DEFINITION. The statements for the provers. "Uninterrupted" below means that nobody else moves between the micro-steps of the
command (`yields` is empty, assumption 7); `InterleavingDoesNotChangeOutcome` says that this loses nothing. A premise
`s.txq = []` is what R48 says of every state with no command in flight; it is a clause of `Inv`. -/

open Sys2Proof Sys2Proof.Machine

/-! ## Encodings -/

/-- R90 to R95, R100: no bit of an encoding is dropped, for every instruction and every value of every operand, ill-formed
headers included. The order of a command word's bytes is the model's choice (assumption 9). -/
def Obligations.DecodeInvertsEncode : Prop :=
  ∀ i : Instr, decode (encode i) = .ok i

/-- R90 to R95, R100: what decodes is exactly the encoding of what it decodes to. -/
def Obligations.EncodeInvertsDecode : Prop :=
  ∀ (bs : List Byte) (i : Instr), decode bs = .ok i → encode i = bs

/-- R91, R92, R100: the words of vectors V1 to V49 and of the examples of R132 and R133 decode to the instructions they stand for. -/
def Obligations.TableWordsDecode : Prop :=
  decodeTableWord 40 0x0100001000 = some (.cfgmax 4096) ∧
  decodeTableWord 40 0x1000000000 = some (.ldhdr 0) ∧
  decodeTableWord 40 0x1100000000 = some (.decreq 0) ∧
  decodeTableWord 40 0x1200000007 = some (.decrsp 7) ∧
  decodeTableWord 40 0x1300000000 = some (.rdframe 0) ∧
  decodeTableWord 40 0x1400000000 = some (.rxreq 0) ∧
  decodeTableWord 40 0x1500000000 = some (.rxrsp 0) ∧
  decodeTableWord 40 0x2100000000 = some (.encreq 0) ∧
  decodeTableWord 40 0x2200000000 = some (.encrsp 0) ∧
  decodeTableWord 40 0x2400000000 = some (.txreq 0) ∧
  decodeTableWord 40 0x2500000000 = some (.txrsp 0) ∧
  decodeTableWord 192 0x80010003080000050000000E12345678000000000000002A =
    some (.hdrReq ⟨0x01, 3, 8, 0, 5, 14, 0x12345678, 42⟩) ∧
  decodeTableWord 192 0x8110000300AB000100000008000000070000000000000000 =
    some (.hdrRsp ⟨0x10, 3, 0, 0xAB, 1, 8, 7, 0⟩) ∧
  decodeTableWord 40 0x2300000000 = none ∧
  decodeTableWord 192 0x7F010003080000050000000012345678000000000000002A = none

/-- R103: every code outside the eleven of R100, 245 of them, decodes to nothing and is refused with `UNKNOWN_CODE` when the
host gives it. -/
def Obligations.UnknownCodesAreRefused : Prop :=
  Code.all = [0x01#8, 0x10#8, 0x11#8, 0x12#8, 0x13#8, 0x14#8, 0x15#8, 0x21#8, 0x22#8, 0x24#8, 0x25#8] ∧
  ((List.range 256).filter (fun n => decide (BitVec.ofNat 8 n ∉ Code.all))).length = 245 ∧
  ∀ (code : Byte) (arg : Word), code ∉ Code.all →
    decode (encodeCommand code arg) = .error (.unknownCode code) ∧
    ∀ (s : State) (rest : List Input), s.drv.inputs = .word (encodeCommand code arg) :: rest → s.flags.busy = false →
      step s = .next (notStarted .unknownCode code arg (popped rest s))

/-! ## Steps -/

/-- R165, R78: a word that the host gives, and that decodes, is executed in the state with it taken off the host's list. How
words reach the machine is the model's (assumption 6). -/
def Obligations.StepExecutesDecodedWord : Prop :=
  ∀ (s : State) (bytes : List Byte) (rest : List Input) (i : Instr),
    s.drv.inputs = .word bytes :: rest → decode bytes = .ok i → step s = exec i (popped rest s)

/-- R91, R92, R78: a word of the opcode table placed as the next one runs as the instruction it decodes to (assumptions 6, 9). -/
def Obligations.PlacedTableWordRuns : Prop :=
  ∀ (s : State) (nbits w : Nat) (i : Instr), decodeTableWord nbits w = some i → step (s.withFetchWord nbits w) = exec i s

/-- R5, R6: every other move of the host and of the environment takes its effect in one step, and with none left it is the
sequencer's turn (assumptions 6, 7). -/
def Obligations.StepTakesEveryOtherMove : Prop :=
  (∀ (s : State) (i : Input) (rest : List Input), s.drv.inputs = i :: rest → (∀ bytes, i ≠ .word bytes) →
    step s = .next (move i (popped rest s))) ∧
  ∀ s : State, s.drv.inputs = [] → step s = .next (seqTurn s)

/-! ## Invariants and reset -/

/-- R20 to R49: the invariants of the block are kept by every step, whatever the host and the environment do. -/
def Obligations.StepKeepsInvariant : Prop :=
  ∀ s t : State, Inv s → step s = .next t → Inv t

/-- The reset state meets the invariants. -/
def Obligations.ResetMeetsInvariant : Prop := Inv State.reset

/-- R51: every value of the table of reset values; of the buffers no byte is defined. -/
def Obligations.ResetStateValues : Prop :=
  State.reset.maxbody = 1000000#32 ∧
  State.reset.h = ⟨0, 0, 0, 0, 0, 0, 0, 0, 0, 0⟩ ∧
  State.reset.buf.extLen = 0 ∧ State.reset.buf.keyLen = 0 ∧ State.reset.buf.valLen = 0 ∧
  (∀ b a, Mem.read (Buffers.mem b State.reset.buf) a = none) ∧
  csrWord State.reset.flags = 0 ∧ State.reset.flags = ⟨false, false, false, false, false, false⟩ ∧
  errWord State.reset.errs.err = 0 ∧ State.reset.errs.info = 0 ∧ State.reset.errs.sticky = 0 ∧
  State.reset.seq = ⟨.idle, 0⟩ ∧ State.reset.cmdreg = 0 ∧ State.reset.txq = []

/-- R220: a reset, at any time, puts all the block's state to its reset value and leaves the streams as they are, but that
some of what was staged may have reached the wire. The model's own fields stay (assumption 20). -/
def Obligations.ResetRestoresBlock : Prop :=
  ∀ (s : State) (rest : List Input), s.drv.inputs = .reset :: rest →
    ∃ (k : Nat) (d : Driver), k ≤ s.txq.length ∧
      d.inputs = rest ∧ d.yields = s.drv.yields ∧ d.answer = s.drv.answer ∧
      step s = .next { State.reset with env := { s.env with wire := s.env.wire ++ s.txq.take k }, drv := d }

/-- R36, R39, R202: but for a reset, no step clears a bit of `ERRSTICKY` or `DEAD`; a step sets at most the bit of the error
it records. -/
def Obligations.ErrorRecordsPersist : Prop :=
  ∀ s t : State, s.drv.inputs.head? ≠ some .reset → step s = .next t →
    (t.errs.sticky = s.errs.sticky ∨ t.errs.sticky = s.errs.sticky ||| t.errs.err.cause.stickyBit) ∧
    (s.flags.dead = true → t.flags.dead = true)

/-- R35: nothing but `CFGMAX` and a reset writes `MAXBODY`. -/
def Obligations.OnlyCfgmaxWritesMaxbody : Prop :=
  ∀ s t : State, step s = .next t → t.maxbody ≠ s.maxbody →
    s.drv.inputs.head? = some .reset ∨
    ∃ (bytes : List Byte) (arg : Word), s.drv.inputs.head? = some (.word bytes) ∧ decode bytes = .ok (.cfgmax arg) ∧
      t.maxbody = arg ∧ arg.toNat ≤ Config.valcap

/-- R21, R23, R24, R27, R30: the magic and the length registers are written by a successful decode only: not by any other
micro-step, not by the start of a command, not by a host access. -/
def Obligations.OnlyDecodeWritesLengthRegisters : Prop :=
  (∀ s t : State, microStep s = some t → t.h = s.h ∨
    (s.seq.phase = .decode ∧ t.h = regsFrom (magicOf s.cmdreg) (hdrBytes s) s.h ∧ t.errs = s.errs)) ∧
  (∀ (code : Byte) (p : Phase) (s : State), (accept code p s).h = s.h) ∧
  ∀ (i : Input) (s : State), i ≠ .turn → i ≠ .reset →
    (move i s).h.magic = s.h.magic ∧ (move i s).h.keyLen = s.h.keyLen ∧ (move i s).h.extLen = s.h.extLen ∧
    (move i s).h.totLen = s.h.totLen ∧ (move i s).h.valLen = s.h.valLen

/-- R36, R37, R190, R193, R197, R41: where the fields of `CSR` and `ERR` lie, and the numbers of the error kinds, sub-causes
and phases. -/
def Obligations.StatusRegisterLayout : Prop :=
  (∀ f : Flags, (csrWord f).toNat = f.busy.toNat + 2 * f.done.toNat + 4 * f.hl.toNat + 8 * f.hv.toNat + 16 * f.fok.toNat +
    32 * f.dead.toNat) ∧
  (∀ e : ErrReg, (errWord e).toNat = e.cause.kind.toNat + 16 * e.cause.sub.toNat + 256 * e.phase.code.toNat +
    65536 * e.cmd.toNat) ∧
  [Cause.none, .magicMismatch, .oversizedBody, .eosAtBoundary, .shortHeader, .incompleteFrame, .writeFail, .flushFail,
    .linkDead, .malformedLength, .unknownCode, .badSequence, .badOperand].map (fun c => (c.kind.toNat, c.sub.toNat)) =
    [(0, 0), (1, 0), (2, 0), (3, 1), (3, 2), (3, 3), (3, 4), (3, 5), (3, 6), (5, 0), (6, 1), (6, 2), (6, 3)] ∧
  [Phase.idle, .hdrRx, .decode, .check, .extRx, .keyRx, .valRx, .encode, .hdrTx, .extTx, .keyTx, .valTx, .flush].map
    (fun p => p.code.toNat) = [0, 1, 2, 3, 4, 5, 6, 7, 8, 9, 10, 11, 12]

/-! ## Acceptance, refusal, errors -/

/-- R46 step 1, R230: a command given while one is in flight changes nothing; of a header only the refusal of its load is seen
(assumptions 8, 11, 15). -/
def Obligations.CommandsWhileBusyAreDropped : Prop :=
  ∀ (s : State) (a : Word), s.flags.busy = true →
    exec (.cfgmax a) s = .next s ∧ exec (.ldhdr a) s = .next s ∧ exec (.decreq a) s = .next s ∧
    exec (.decrsp a) s = .next s ∧ exec (.rdframe a) s = .next s ∧ exec (.rxreq a) s = .next s ∧
    exec (.rxrsp a) s = .next s ∧ exec (.encreq a) s = .next s ∧ exec (.encrsp a) s = .next s ∧
    exec (.txreq a) s = .next s ∧ exec (.txrsp a) s = .next s ∧
    (∀ code, issueUnknown code a s = s) ∧
    (∀ hd, exec (.hdrReq hd) s = .next (answered .refused s)) ∧ (∀ hd, exec (.hdrRsp hd) s = .next (answered .refused s))

/-- R232: on a dead link each stream command fails at once with `LINK_DEAD`, and the link stays dead until reset. -/
def Obligations.DeadLinkStopsStreamCommands : Prop :=
  ∀ s : State, s.flags.dead = true →
    (∀ a : Word, s.flags.busy = false →
      exec (.ldhdr a) s = .next (notStarted .linkDead 0x10#8 0 s) ∧
      exec (.rdframe a) s = .next (notStarted .linkDead 0x13#8 0 s) ∧
      exec (.rxreq a) s = .next (notStarted .linkDead 0x14#8 0 s) ∧
      exec (.rxrsp a) s = .next (notStarted .linkDead 0x15#8 0 s) ∧
      exec (.txreq a) s = .next (notStarted .linkDead 0x24#8 0 s) ∧
      exec (.txrsp a) s = .next (notStarted .linkDead 0x25#8 0 s)) ∧
    ∀ t : State, s.drv.inputs.head? ≠ some .reset → step s = .next t → t.flags.dead = true

/-- R197: the three sub-causes of a refusal, what a refusal changes, and that it happens at acceptance only. -/
def Obligations.RefusalsAreRecorded : Prop :=
  (∀ (s : State) (arg : Word), s.flags.busy = false →
    (∀ code, issueUnknown code arg s = notStarted .unknownCode code arg s) ∧
    (s.flags.hl = false →
      exec (.decreq arg) s = .next (notStarted .badSequence 0x11#8 arg s) ∧
      exec (.decrsp arg) s = .next (notStarted .badSequence 0x12#8 arg s)) ∧
    (s.flags.dead = false → s.flags.hv = false →
      exec (.rdframe arg) s = .next (notStarted .badSequence 0x13#8 arg s)) ∧
    (Config.valcap < arg.toNat → exec (.cfgmax arg) s = .next (notStarted .badOperand 0x01#8 arg s))) ∧
  ∀ s t : State, microStep s = some t → t.errs.err.cause.kind ≠ 6 ∨ t.errs = s.errs

/-- R200: what `raise` records, what a transport error adds, and what it leaves. -/
def Obligations.RaiseRecordsAndEnds : Prop :=
  ∀ (c : Cause) (info : Word) (s : State), c.kind = 1 ∨ c.kind = 2 ∨ c.kind = 3 ∨ c.kind = 5 →
    (raise c info s).errs.err = ⟨c, s.seq.phase, s.cmdreg⟩ ∧ (raise c info s).errs.info = info ∧
    (raise c info s).errs.sticky = s.errs.sticky ||| (1#8 <<< c.kind.toNat) ∧
    (raise c info s).flags.dead = (decide (c.kind = 3) || s.flags.dead) ∧
    (raise c info s).txq = (if c.kind = 3 then [] else s.txq) ∧
    (raise c info s).flags.busy = false ∧ (raise c info s).flags.done = true ∧ (raise c info s).seq = ⟨.idle, 0⟩ ∧
    (raise c info s).h = s.h ∧ (raise c info s).buf = s.buf ∧ (raise c info s).maxbody = s.maxbody ∧
    (raise c info s).cmdreg = s.cmdreg ∧ (raise c info s).flags.hl = s.flags.hl ∧ (raise c info s).flags.hv = s.flags.hv ∧
    (raise c info s).flags.fok = s.flags.fok ∧ (raise c info s).env.rx = s.env.rx ∧
    (raise c info s).env.rxEnded = s.env.rxEnded ∧
    ∃ k, (raise c info s).env.wire = s.env.wire ++ (if c.kind = 3 then s.txq.take k else [])

/-- R191: a byte 0 that is not the expected magic: at the micro-step of `DECODE`, interrupted or not, and hence for the four
commands that decode. `raise` is `RaiseRecordsAndEnds`. -/
def Obligations.WrongMagicIsReported : Prop :=
  (∀ s : State, s.seq.phase = .decode → byteOf (hdrBytes s) 0 ≠ magicOf s.cmdreg →
    microStep s = some (raise .magicMismatch ((byteOf (hdrBytes s) 0).setWidth 32) s)) ∧
  ∀ (s : State) (a : Word), s.flags.busy = false → s.drv.yields = [] →
    (s.flags.hl = true →
      (byteOf (hdrBytes s) 0 ≠ 0x80#8 → exec (.decreq a) s = .next (endedError .magicMismatch .decode 0x11#8
        ((byteOf (hdrBytes s) 0).setWidth 32) { s with flags := { s.flags with hv := false } })) ∧
      (byteOf (hdrBytes s) 0 ≠ 0x81#8 → exec (.decrsp a) s = .next (endedError .magicMismatch .decode 0x12#8
        ((byteOf (hdrBytes s) 0).setWidth 32) { s with flags := { s.flags with hv := false } }))) ∧
    (s.flags.dead = false → 24 ≤ s.env.rx.length →
      (byteOf s.env.rx 0 ≠ 0x80#8 → exec (.rxreq a) s = .next (endedError .magicMismatch .decode 0x14#8
        ((byteOf s.env.rx 0).setWidth 32) (consumed 24 (headerLoaded true false s)))) ∧
      (byteOf s.env.rx 0 ≠ 0x81#8 → exec (.rxrsp a) s = .next (endedError .magicMismatch .decode 0x15#8
        ((byteOf s.env.rx 0).setWidth 32) (consumed 24 (headerLoaded true false s)))))

/-- R194: after the magic has passed, a declared total below the declared key and extras lengths: at the micro-step of `DECODE`,
interrupted or not, and hence for the four commands that decode. -/
def Obligations.ImpossibleLengthIsReported : Prop :=
  (∀ s : State, s.seq.phase = .decode → byteOf (hdrBytes s) 0 = magicOf s.cmdreg →
    fieldAt (hdrBytes s) 8 4 < fieldAt (hdrBytes s) 2 2 + (byteOf (hdrBytes s) 4).toNat →
    microStep s = some (raise .malformedLength (BitVec.ofNat 32 (fieldAt (hdrBytes s) 8 4)) s)) ∧
  ∀ (s : State) (a : Word), s.flags.busy = false → s.drv.yields = [] →
    (s.flags.hl = true → fieldAt (hdrBytes s) 8 4 < fieldAt (hdrBytes s) 2 2 + (byteOf (hdrBytes s) 4).toNat →
      (byteOf (hdrBytes s) 0 = 0x80#8 → exec (.decreq a) s = .next (endedError .malformedLength .decode 0x11#8
        (BitVec.ofNat 32 (fieldAt (hdrBytes s) 8 4)) { s with flags := { s.flags with hv := false } })) ∧
      (byteOf (hdrBytes s) 0 = 0x81#8 → exec (.decrsp a) s = .next (endedError .malformedLength .decode 0x12#8
        (BitVec.ofNat 32 (fieldAt (hdrBytes s) 8 4)) { s with flags := { s.flags with hv := false } }))) ∧
    (s.flags.dead = false → 24 ≤ s.env.rx.length →
      fieldAt s.env.rx 8 4 < fieldAt s.env.rx 2 2 + (byteOf s.env.rx 4).toNat →
      (byteOf s.env.rx 0 = 0x80#8 → exec (.rxreq a) s = .next (endedError .malformedLength .decode 0x14#8
        (BitVec.ofNat 32 (fieldAt s.env.rx 8 4)) (consumed 24 (headerLoaded true false s)))) ∧
      (byteOf s.env.rx 0 = 0x81#8 → exec (.rxrsp a) s = .next (endedError .malformedLength .decode 0x15#8
        (BitVec.ofNat 32 (fieldAt s.env.rx 8 4)) (consumed 24 (headerLoaded true false s)))))

/-- R192: a declared total above `MAXBODY`, strictly: at the micro-step of `CHECK`, interrupted or not, and hence for the three
commands that check it; no buffer, no length register and no further byte is touched, and the header field registers hold the
decoded header. -/
def Obligations.OversizedBodyIsReported : Prop :=
  (∀ s : State, s.seq.phase = .check → s.maxbody.toNat < s.h.totLen.toNat →
    microStep s = some (raise .oversizedBody s.h.totLen s)) ∧
  ∀ (s : State) (a : Word), s.flags.busy = false → s.flags.dead = false → s.drv.yields = [] →
    (s.flags.hv = true → s.maxbody.toNat < s.h.totLen.toNat →
      exec (.rdframe a) s = .next (endedError .oversizedBody .check 0x13#8 s.h.totLen
        { s with flags := { s.flags with hv := false, fok := false } })) ∧
    (24 ≤ s.env.rx.length → fieldAt s.env.rx 2 2 + (byteOf s.env.rx 4).toNat ≤ fieldAt s.env.rx 8 4 →
      s.maxbody.toNat < fieldAt s.env.rx 8 4 →
      (byteOf s.env.rx 0 = 0x80#8 → exec (.rxreq a) s = .next (endedError .oversizedBody .check 0x14#8
        (BitVec.ofNat 32 (fieldAt s.env.rx 8 4)) (consumed 24 { s with
          h := requestRegs (reqHeaderOf s.env.rx) s.h
          buf := { s.buf with hdr := Mem.ofBytes 0 (s.env.rx.take 24) }
          flags := { s.flags with hl := true, hv := false, fok := false } }))) ∧
      (byteOf s.env.rx 0 = 0x81#8 → exec (.rxrsp a) s = .next (endedError .oversizedBody .check 0x15#8
        (BitVec.ofNat 32 (fieldAt s.env.rx 8 4)) (consumed 24 { s with
          h := responseRegs (rspHeaderOf s.env.rx) s.h
          buf := { s.buf with hdr := Mem.ofBytes 0 (s.env.rx.take 24) }
          flags := { s.flags with hl := true, hv := false, fok := false } }))))

/-! ## Configuration, header load, decode, frame read, receive -/

/-- R120, R46 steps 5 and 6: `CFGMAX` with an operand up to `VALCAP`, on a live or a dead link. -/
def Obligations.CfgmaxSetsMaximum : Prop :=
  ∀ (s : State) (arg : Word), s.flags.busy = false → arg.toNat ≤ Config.valcap →
    exec (.cfgmax arg) s = .next { s with
      maxbody := arg
      flags := { s.flags with done := true }
      errs := ⟨⟨.none, .idle, 0x01#8⟩, 0, s.errs.sticky⟩
      cmdreg := 0x01#8 }

/-- R130, R43: `LDHDR`, uninterrupted, whatever the stream does. -/
def Obligations.LdhdrLoadsHeader : Prop :=
  ∀ (s : State) (a : Word), s.flags.busy = false → s.flags.dead = false → s.drv.yields = [] → s.txq = [] →
    exec (.ldhdr a) s = .next (ldhdrState s)

/-- R131 to R133, R95 to R97: `DECREQ` and `DECRSP` on a loaded header, uninterrupted, on a live or a dead link. -/
def Obligations.DecodeReadsHeader : Prop :=
  ∀ (s : State) (a : Word), s.flags.busy = false → s.flags.hl = true → s.drv.yields = [] →
    exec (.decreq a) s = .next (decodeState 0x11#8 0x80#8 s) ∧ exec (.decrsp a) s = .next (decodeState 0x12#8 0x81#8 s)

/-- R131 to R133: a loaded, legal header decodes. -/
def Obligations.LegalHeaderDecodes : Prop :=
  ∀ (s : State) (a : Word), s.flags.busy = false → s.flags.hl = true → s.drv.yields = [] →
    fieldAt (hdrBytes s) 2 2 + (byteOf (hdrBytes s) 4).toNat ≤ fieldAt (hdrBytes s) 8 4 →
    (byteOf (hdrBytes s) 0 = 0x80#8 → exec (.decreq a) s = .next (endedOk 0x11#8
      { s with h := requestRegs (reqHeaderOf (hdrBytes s)) s.h, flags := { s.flags with hv := true } })) ∧
    (byteOf (hdrBytes s) 0 = 0x81#8 → exec (.decrsp a) s = .next (endedOk 0x12#8
      { s with h := responseRegs (rspHeaderOf (hdrBytes s)) s.h, flags := { s.flags with hv := true } }))

/-- R140 to R142, R33, R34: `RDFRAME` on a decoded header whose lengths add up (`Inv` says they always do), uninterrupted. -/
def Obligations.RdframeReadsFrame : Prop :=
  ∀ (s : State) (a : Word), s.flags.busy = false → s.flags.dead = false → s.flags.hv = true → s.drv.yields = [] →
    s.txq = [] → s.h.totLen.toNat = s.h.extLen.toNat + s.h.keyLen.toNat + s.h.valLen.toNat →
    exec (.rdframe a) s = .next (rdframeState s)

/-- R145: the micro-steps of `RXREQ` and `RXRSP`, uninterrupted, agree with the function `Rx`, row by row, for every stream. -/
def Obligations.ReceiveAgreesWithBigStep : Prop :=
  ∀ (s : State) (a : Word), s.flags.busy = false → s.flags.dead = false → s.drv.yields = [] → s.txq = [] →
    exec (.rxreq a) s = .next (rxState 0x14#8 0x80#8 s) ∧ exec (.rxrsp a) s = .next (rxState 0x15#8 0x81#8 s)

/-- R130, R141, R143, R144: where `LDHDR`, `RDFRAME`, `RXREQ` and `RXRSP` end ok, and in which state. -/
def Obligations.ReceivesComplete : Prop :=
  ∀ (s : State) (a : Word), s.flags.busy = false → s.flags.dead = false → s.drv.yields = [] → s.txq = [] →
    (24 ≤ s.env.rx.length → exec (.ldhdr a) s = .next (endedOk 0x10#8 (consumed 24 (headerLoaded true false s)))) ∧
    (s.flags.hv = true → s.h.totLen.toNat = s.h.extLen.toNat + s.h.keyLen.toNat + s.h.valLen.toNat →
      s.h.totLen.toNat ≤ s.maxbody.toNat → s.h.totLen.toNat ≤ s.env.rx.length →
      exec (.rdframe a) s = .next (endedOk 0x13#8 (consumed s.h.totLen.toNat (frameRead true 0 s)))) ∧
    (fieldAt s.env.rx 2 2 + (byteOf s.env.rx 4).toNat ≤ fieldAt s.env.rx 8 4 → fieldAt s.env.rx 8 4 ≤ s.maxbody.toNat →
      24 + fieldAt s.env.rx 8 4 ≤ s.env.rx.length →
      (byteOf s.env.rx 0 = 0x80#8 → exec (.rxreq a) s = .next (endedOk 0x14#8 (consumed (24 + fieldAt s.env.rx 8 4)
        (frameRead true 24 { headerLoaded true false s with h := requestRegs (reqHeaderOf s.env.rx) s.h })))) ∧
      (byteOf s.env.rx 0 = 0x81#8 → exec (.rxrsp a) s = .next (endedOk 0x15#8 (consumed (24 + fieldAt s.env.rx 8 4)
        (frameRead true 24 { headerLoaded true false s with h := responseRegs (rspHeaderOf s.env.rx) s.h })))))

/-- R143, R144, R106: a composite receive is `LDHDR`, the decode and `RDFRAME`, stopping at the first that does not end ok;
only the command code on record differs. -/
def Obligations.ReceiveIsLoadDecodeFrame : Prop :=
  ∀ (s : State) (a b c d : Word), s.flags.busy = false → s.flags.dead = false → s.drv.yields = [] → s.txq = [] →
    exec (.rxreq d) s = onNext (asCommand 0x14#8)
      (thenIfOk (thenIfOk (exec (.ldhdr a) s) (exec (.decreq b))) (exec (.rdframe c))) ∧
    exec (.rxrsp d) s = onNext (asCommand 0x15#8)
      (thenIfOk (thenIfOk (exec (.ldhdr a) s) (exec (.decrsp b))) (exec (.rdframe c)))

/-- R110: after a receive that ended ok the buffer lengths are those of the header and add up to its total: at the micro-step
that ends it, and hence at the end of `RDFRAME`, `RXREQ` and `RXRSP`, interrupted or not. -/
def Obligations.ReceivedLengthsAddUp : Prop :=
  (∀ s t : State, Inv s → microStep s = some t → s.cmdreg ∈ [Code.rdframe, Code.rxreq, Code.rxrsp] → endedWell t = true →
    t.buf.extLen = t.h.extLen ∧ t.buf.keyLen = t.h.keyLen ∧ t.buf.valLen = t.h.valLen ∧
    Buffers.total t.buf = t.h.totLen.toNat) ∧
  ∀ (s t : State) (a : Word) (i : Instr), Inv s → s.flags.busy = false → i ∈ [Instr.rdframe a, .rxreq a, .rxrsp a] →
    exec i s = .next t → endedWell t = true →
    t.buf.extLen = t.h.extLen ∧ t.buf.keyLen = t.h.keyLen ∧ t.buf.valLen = t.h.valLen ∧
    Buffers.total t.buf = t.h.totLen.toNat

/-- R141, R231: `RDFRAME` is one-shot per decode. -/
def Obligations.RdframeIsOneShot : Prop :=
  ∀ (s t : State) (a b : Word), s.flags.busy = false → s.flags.dead = false → s.flags.hv = true →
    exec (.rdframe a) s = .next t →
    t.flags.hv = false ∧ (t.flags.busy = false → t.flags.dead = false →
      exec (.rdframe b) t = .next (notStarted .badSequence 0x13#8 b t))

/-- R235, R239: after `OVERSIZED_BODY` a larger maximum, a second decode and `RDFRAME` leave the registers, the buffers and
the stream as a receive with the larger maximum would have. -/
def Obligations.RaisedMaximumReadsRejectedFrame : Prop :=
  ∀ (s : State) (n a b c : Word), s.flags.busy = false → s.flags.dead = false → s.drv.yields = [] → s.txq = [] →
    byteOf s.env.rx 0 = 0x80#8 → fieldAt s.env.rx 2 2 + (byteOf s.env.rx 4).toNat ≤ fieldAt s.env.rx 8 4 →
    24 + fieldAt s.env.rx 8 4 ≤ s.env.rx.length → s.maxbody.toNat < fieldAt s.env.rx 8 4 →
    fieldAt s.env.rx 8 4 ≤ n.toNat → n.toNat ≤ Config.valcap →
    ∃ t u v w x : State, exec (.rxreq a) s = .next t ∧ t.errs.err.cause = .oversizedBody ∧
      exec (.cfgmax n) t = .next u ∧ exec (.decreq b) u = .next v ∧ exec (.rdframe c) v = .next w ∧ endedWell w = true ∧
      exec (.rxreq a) (s.setMaxbody n) = .next x ∧ endedWell x = true ∧
      w.h = x.h ∧ w.buf = x.buf ∧ w.env = x.env ∧ w.flags = x.flags

/-- R104: the opcode, the reserved byte, the vbucket id, the opaque, the CAS and the frame's contents do not steer a receive. -/
def Obligations.PassThroughFieldsDoNotSteerReceive : Prop :=
  ∀ (s : State) (r : List Byte) (a : Word), s.flags.busy = false → s.flags.dead = false → s.drv.yields = [] → s.txq = [] →
    r.length = s.env.rx.length → (∀ i ∈ [0, 2, 3, 4, 8, 9, 10, 11], byteOf r i = byteOf s.env.rx i) →
    ∀ i ∈ [Instr.rxreq a, .rxrsp a],
      ∃ t u : State, exec i s = .next t ∧ exec i (s.setEnv { s.env with rx := r }) = .next u ∧
        u.flags = t.flags ∧ u.errs = t.errs ∧ u.seq = t.seq ∧ u.env.rx.length = t.env.rx.length ∧
        u.h.magic = t.h.magic ∧ u.h.keyLen = t.h.keyLen ∧ u.h.extLen = t.h.extLen ∧ u.h.totLen = t.h.totLen ∧
        u.h.valLen = t.h.valLen ∧ u.buf.extLen = t.buf.extLen ∧ u.buf.keyLen = t.buf.keyLen ∧ u.buf.valLen = t.buf.valLen

/-! ## Encode and transmit -/

/-- R150 to R152, R95, R96: `ENCREQ` and `ENCRSP`, uninterrupted, on a live or a dead link. -/
def Obligations.EncodeBuildsHeader : Prop :=
  ∀ (s : State) (a : Word), s.flags.busy = false → s.drv.yields = [] →
    exec (.encreq a) s = .next (endedOk 0x21#8 { s with
      buf := { s.buf with hdr := Mem.ofBytes 0 (encodeReqHeader (requestHeader s)) }
      flags := { s.flags with hl := true, hv := false } }) ∧
    exec (.encrsp a) s = .next (endedOk 0x22#8 { s with
      buf := { s.buf with hdr := Mem.ofBytes 0 (encodeRspHeader (responseHeader s)) }
      flags := { s.flags with hl := true, hv := false } })

/-- R99: the total that an encode writes is the sum of the three buffer lengths, which always fits its field. -/
def Obligations.EncodedTotalIsExact : Prop :=
  ∀ (s : State) (a : Word), s.flags.busy = false → s.drv.yields = [] → s.buf.valLen.toNat ≤ Config.valcap →
    s.buf.extLen.toNat ≤ 255 ∧ s.buf.keyLen.toNat ≤ 65535 ∧ Config.valcap ≤ 4294901505 ∧
    Buffers.total s.buf ≤ 2 ^ 32 - 1 ∧
    ∀ i ∈ [Instr.encreq a, .encrsp a], ∃ t : State, exec i s = .next t ∧ endedWell t = true ∧
      fieldAt (hdrBytes t) 8 4 = s.buf.extLen.toNat + s.buf.keyLen.toNat + s.buf.valLen.toNat

/-- R156: the micro-steps of `TXREQ` and `TXRSP`, uninterrupted, agree with the function `Tx`, for every behaviour of the sink. -/
def Obligations.TransmitAgreesWithBigStep : Prop :=
  ∀ (s : State) (a : Word), s.flags.busy = false → s.flags.dead = false → s.drv.yields = [] → s.txq = [] →
    exec (.txreq a) s = .next (txState 0x24#8 0x80#8 s) ∧ exec (.txrsp a) s = .next (txState 0x25#8 0x81#8 s)

/-- R154, R155, R70 (a): with a sink that takes the whole packet and the flush, `TXREQ` and `TXRSP` put exactly the packet on
the wire. -/
def Obligations.TransmitsComplete : Prop :=
  ∀ (s : State) (a : Word), s.flags.busy = false → s.flags.dead = false → s.drv.yields = [] → s.txq = [] →
    (s.env.sink = .takesAll →
      exec (.txreq a) s = .next (endedOk 0x24#8 (sent 0x80#8 .takesAll s)) ∧
      exec (.txrsp a) s = .next (endedOk 0x25#8 (sent 0x81#8 .takesAll s))) ∧
    ∀ (j : Nat) (f : Bool), s.env.sink = .takes j f → 25 + Buffers.total s.buf ≤ j →
      exec (.txreq a) s = .next (endedOk 0x24#8 (sent 0x80#8 (.takes (j - (25 + Buffers.total s.buf)) f) s)) ∧
      exec (.txrsp a) s = .next (endedOk 0x25#8 (sent 0x81#8 (.takes (j - (25 + Buffers.total s.buf)) f) s))

/-- R70: the four wire laws, `P` being the packet the command builds. -/
def Obligations.WireLaws : Prop :=
  ∀ (s t : State) (i : Instr), Inv s → s.drv.yields = [] → exec i s = .next t →
    (∀ a, (i = .txreq a ∨ i = .txrsp a) → s.flags.busy = false → s.flags.dead = false → t.flags.busy = false →
      (t.errs.err.cause = .none →
        t.env.wire = s.env.wire ++ packet (if i = .txreq a then 0x80#8 else 0x81#8) s ∧ t.txq = []) ∧
      (t.errs.err.cause ≠ .none → t.flags.dead = true ∧ t.txq = [] ∧
        ∃ k, t.env.wire = s.env.wire ++ (packet (if i = .txreq a then 0x80#8 else 0x81#8) s).take k)) ∧
    (s.flags.busy = true ∨ s.flags.dead = true → t.env.wire = s.env.wire) ∧
    ((∀ a, i ≠ .txreq a) → (∀ a, i ≠ .txrsp a) → t.env.wire = s.env.wire)

/-- R68 (a), R69: no step takes anything off the wire or changes what is on it. The wire is that of one connection, across resets
too (assumption 24). -/
def Obligations.WireOnlyGrows : Prop :=
  ∀ s t : State, step s = .next t → ∃ more : List Byte, t.env.wire = s.env.wire ++ more

/-- R33, R46 step 3: with a live link and no command in flight no byte of the packet a transmit would send is unspecified. -/
def Obligations.TransmittedBytesAreDefined : Prop :=
  ∀ (s : State) (magic : Byte) (d : Nat), Inv s → s.flags.busy = false → s.flags.dead = false →
    packet magic (s.setDrv { s.drv with draws := d }) = packet magic s

/-- R111, R121, R131: `MAXBODY` does not matter to a command that does not read a frame. -/
def Obligations.MaxbodyLimitsOnlyFrameReads : Prop :=
  ∀ (s : State) (m a : Word),
    ∀ i ∈ [Instr.ldhdr a, .decreq a, .decrsp a, .encreq a, .encrsp a, .txreq a, .txrsp a],
      exec i (s.setMaxbody m) = onNext (State.setMaxbody m) (exec i s)

/-! ## Headers as instructions -/

/-- R92 to R94, R163, R101, R112: 24 bytes handed to the block are only loaded, whatever their byte 0 (assumptions 8, 10); a header
so loaded decodes under the command of its direction, is reported by it when its lengths are impossible, and is a wrong magic to
the command of the other direction. -/
def Obligations.HeaderRowsDecode : Prop :=
  (∀ (s : State) (bs : List Byte) (rest : List Input), s.drv.inputs = .word bs :: rest → bs.length = 24 →
    step s = .next (hostLoad 0x23 bs (popped rest s))) ∧
  ∀ s : State, s.flags.busy = false →
    (∀ hd : ReqHeader, let t := headerGiven (encodeReqHeader hd) s
      exec (.hdrReq hd) s = .next t ∧
      (s.drv.yields = [] → ∀ a : Word,
        (hd.keyLen.toNat + hd.extLen.toNat ≤ hd.totLen.toNat → exec (.decreq a) t = .next (endedOk 0x11#8
          { t with h := requestRegs hd s.h, flags := { s.flags with hl := true, hv := true } })) ∧
        (hd.totLen.toNat < hd.keyLen.toNat + hd.extLen.toNat →
          exec (.decreq a) t = .next (endedError .malformedLength .decode 0x11#8 hd.totLen t)) ∧
        exec (.decrsp a) t = .next (endedError .magicMismatch .decode 0x12#8 0x80#32 t))) ∧
    ∀ hd : RspHeader, let t := headerGiven (encodeRspHeader hd) s
      exec (.hdrRsp hd) s = .next t ∧
      (s.drv.yields = [] → ∀ a : Word,
        (hd.keyLen.toNat + hd.extLen.toNat ≤ hd.totLen.toNat → exec (.decrsp a) t = .next (endedOk 0x12#8
          { t with h := responseRegs hd s.h, flags := { s.flags with hl := true, hv := true } })) ∧
        (hd.totLen.toNat < hd.keyLen.toNat + hd.extLen.toNat →
          exec (.decrsp a) t = .next (endedError .malformedLength .decode 0x12#8 hd.totLen t)) ∧
        exec (.decreq a) t = .next (endedError .magicMismatch .decode 0x11#8 0x81#32 t))

/-! ## Frames -/

/-- R67, R120, R131, R150: what `CFGMAX` and the decodes and encodes leave unchanged, interrupted or not. -/
def Obligations.CodecCommandsFrame : Prop :=
  ∀ (s t : State) (a : Word) (i : Instr), i ∈ [Instr.cfgmax a, .decreq a, .decrsp a, .encreq a, .encrsp a] →
    exec i s = .next t →
    t.env = s.env ∧ t.txq = s.txq ∧ t.flags.fok = s.flags.fok ∧ t.flags.dead = s.flags.dead ∧
    (∀ b, Buffers.len b t.buf = Buffers.len b s.buf) ∧
    (∀ b x, b ≠ .hdr → Mem.read (Buffers.mem b t.buf) x = Mem.read (Buffers.mem b s.buf) x) ∧
    t.drv.inputs = s.drv.inputs ∧ t.drv.draws = s.drv.draws ∧ t.drv.answer = s.drv.answer ∧
    (i = .cfgmax a → t.h = s.h ∧ t.seq = s.seq ∧ t.flags.busy = s.flags.busy ∧ t.flags.hl = s.flags.hl ∧ t.flags.hv = s.flags.hv) ∧
    (i = .decreq a ∨ i = .decrsp a → t.flags.hl = s.flags.hl) ∧
    (i = .decreq a → t.h.status = s.h.status) ∧ (i = .decrsp a → t.h.vbucket = s.h.vbucket) ∧
    (i = .encreq a ∨ i = .encrsp a → t.h = s.h) ∧
    (i ≠ .cfgmax a → t.maxbody = s.maxbody) ∧
    (i ≠ .encreq a → i ≠ .encrsp a → ∀ x, Mem.read t.buf.hdr x = Mem.read s.buf.hdr x)

/-- R130, R141, R143, R144, R67: what the receive commands leave unchanged, interrupted or not. -/
def Obligations.ReceiveCommandsFrame : Prop :=
  ∀ (s t : State) (a : Word) (i : Instr), i ∈ [Instr.ldhdr a, .rdframe a, .rxreq a, .rxrsp a] → s.txq = [] →
    exec i s = .next t →
    t.maxbody = s.maxbody ∧ t.txq = [] ∧ t.env.sink = s.env.sink ∧ t.env.wire = s.env.wire ∧
    t.env.rxEnded = s.env.rxEnded ∧ (∃ n, t.env.rx = s.env.rx.drop n) ∧
    t.drv.inputs = s.drv.inputs ∧ t.drv.draws = s.drv.draws ∧ t.drv.answer = s.drv.answer ∧
    (i = .ldhdr a → t.h = s.h ∧ t.flags.fok = s.flags.fok ∧ (∀ b, Buffers.len b t.buf = Buffers.len b s.buf) ∧
      ∀ b x, b ≠ .hdr → Mem.read (Buffers.mem b t.buf) x = Mem.read (Buffers.mem b s.buf) x) ∧
    (i = .rdframe a → t.h = s.h ∧ t.flags.hl = s.flags.hl ∧ ∀ x, Mem.read t.buf.hdr x = Mem.read s.buf.hdr x) ∧
    (i = .rxreq a → t.h.status = s.h.status) ∧ (i = .rxrsp a → t.h.vbucket = s.h.vbucket)

/-- R154, R155, R67: what the transmit commands leave unchanged, interrupted or not. -/
def Obligations.TransmitCommandsFrame : Prop :=
  ∀ (s t : State) (a : Word) (i : Instr), i ∈ [Instr.txreq a, .txrsp a] → exec i s = .next t →
    t.h = s.h ∧ t.maxbody = s.maxbody ∧ t.flags.fok = s.flags.fok ∧ t.env.rx = s.env.rx ∧
    t.env.rxEnded = s.env.rxEnded ∧ (∀ b, Buffers.len b t.buf = Buffers.len b s.buf) ∧
    (∀ b x, b ≠ .hdr → Mem.read (Buffers.mem b t.buf) x = Mem.read (Buffers.mem b s.buf) x) ∧
    t.drv.inputs = s.drv.inputs ∧ t.drv.answer = s.drv.answer

/-- R67: the commands that consume no byte of the incoming stream, headers included. -/
def Obligations.OnlyReceivesConsume : Prop :=
  ∀ (s t : State) (i : Instr), (∀ a, i ∉ [Instr.ldhdr a, .rdframe a, .rxreq a, .rxrsp a]) → exec i s = .next t →
    t.env.rx = s.env.rx ∧ t.env.rxEnded = s.env.rxEnded

/-! ## Laws between commands -/

/-- R108: encode, then decode, in either direction; and crossing the directions. -/
def Obligations.EncodeThenDecodeRestores : Prop :=
  ∀ (s : State) (a b : Word), Inv s → s.flags.busy = false → s.drv.yields = [] →
    (∃ t u v : State, exec (.encreq a) s = .next t ∧ endedWell t = true ∧
      exec (.decreq b) t = .next u ∧ endedWell u = true ∧
      u.h = ⟨0x80#8, s.h.opcode, s.buf.keyLen, s.buf.extLen, s.h.vbucket, s.h.status, u.h.totLen, s.h.opq, s.h.cas,
        s.buf.valLen⟩ ∧
      u.h.totLen.toNat = s.buf.extLen.toNat + s.buf.keyLen.toNat + s.buf.valLen.toNat ∧
      exec (.decrsp b) t = .next v ∧ v.errs.err.cause = .magicMismatch) ∧
    ∃ t u v : State, exec (.encrsp a) s = .next t ∧ endedWell t = true ∧
      exec (.decrsp b) t = .next u ∧ endedWell u = true ∧
      u.h = ⟨0x81#8, s.h.opcode, s.buf.keyLen, s.buf.extLen, s.h.vbucket, s.h.status, u.h.totLen, s.h.opq, s.h.cas,
        s.buf.valLen⟩ ∧
      u.h.totLen.toNat = s.buf.extLen.toNat + s.buf.keyLen.toNat + s.buf.valLen.toNat ∧
      exec (.decreq b) t = .next v ∧ v.errs.err.cause = .magicMismatch

/-- R109: decode, read the frame, encode: the header comes back, but for its reserved byte. -/
def Obligations.DecodeThenEncodeRestores : Prop :=
  ∀ (s t u v : State) (a b c : Word), s.flags.busy = false → s.drv.yields = [] → s.txq = [] →
    (exec (.decreq a) s = .next t → endedWell t = true → exec (.rdframe b) t = .next u → endedWell u = true →
      exec (.encreq c) u = .next v → hdrBytes v = (hdrBytes s).set 5 0x00#8) ∧
    (exec (.decrsp a) s = .next t → endedWell t = true → exec (.rdframe b) t = .next u → endedWell u = true →
      exec (.encrsp c) u = .next v → hdrBytes v = (hdrBytes s).set 5 0x00#8)

/-- R145, R156 (law L5): what one block transmits, another block with a large enough maximum receives. -/
def Obligations.TransmitThenReceive : Prop :=
  ∀ (s r : State) (rest : List Byte) (a b : Word), Inv s → s.flags.busy = false → s.flags.dead = false →
    s.drv.yields = [] → s.env.sink = .takesAll →
    r.flags.busy = false → r.flags.dead = false → r.drv.yields = [] → r.txq = [] →
    Buffers.total s.buf ≤ r.maxbody.toNat →
    (r.env.rx = packet 0x80#8 s ++ rest → ∃ t u : State,
      exec (.txreq a) s = .next t ∧ t.env.wire = s.env.wire ++ packet 0x80#8 s ∧
      exec (.rxreq b) r = .next u ∧ endedWell u = true ∧ u.env.rx = rest ∧
      u.h.opcode = s.h.opcode ∧ u.h.vbucket = s.h.vbucket ∧ u.h.opq = s.h.opq ∧ u.h.cas = s.h.cas ∧
      bufferBytes .ext u = bufferBytes .ext s ∧ bufferBytes .key u = bufferBytes .key s ∧
      bufferBytes .val u = bufferBytes .val s) ∧
    (r.env.rx = packet 0x81#8 s ++ rest → ∃ t u : State,
      exec (.txrsp a) s = .next t ∧ t.env.wire = s.env.wire ++ packet 0x81#8 s ∧
      exec (.rxrsp b) r = .next u ∧ endedWell u = true ∧ u.env.rx = rest ∧
      u.h.opcode = s.h.opcode ∧ u.h.status = s.h.status ∧ u.h.opq = s.h.opq ∧ u.h.cas = s.h.cas ∧
      bufferBytes .ext u = bufferBytes .ext s ∧ bufferBytes .key u = bufferBytes .key s ∧
      bufferBytes .val u = bufferBytes .val s)

/-! ## Host access -/

/-- R161, R50: the twenty registers the host can read, with their widths and values; everything else is refused; while a
command is in flight six of them can be read. Only the answer changes (assumption 15). -/
def Obligations.HostReadsRegisters : Prop :=
  ∀ s : State,
    let table : List (Nat × Nat × Nat) := [
      (0x00, 32, (csrWord s.flags).toNat), (0x01, 32, (errWord s.errs.err).toNat), (0x02, 32, s.errs.info.toNat),
      (0x03, 8, s.errs.sticky.toNat), (0x04, 32, s.maxbody.toNat), (0x08, 8, s.h.magic.toNat), (0x09, 8, s.h.opcode.toNat),
      (0x0A, 16, s.h.keyLen.toNat), (0x0B, 8, s.h.extLen.toNat), (0x0C, 16, s.h.vbucket.toNat),
      (0x0D, 16, s.h.status.toNat), (0x0E, 32, s.h.totLen.toNat), (0x0F, 32, s.h.opq.toNat), (0x10, 64, s.h.cas.toNat),
      (0x11, 32, s.h.valLen.toNat), (0x12, 4, s.seq.phase.code.toNat), (0x13, 32, s.seq.cnt.toNat),
      (0x18, 8, s.buf.extLen.toNat), (0x19, 16, s.buf.keyLen.toNat), (0x1A, 32, s.buf.valLen.toNat)]
    (∀ e ∈ table, s.flags.busy = false ∨ e.1 ∈ [0x00, 0x01, 0x02, 0x03, 0x12, 0x13] →
      hostRead e.1 s = answered (.reg e.2.1 e.2.2) s) ∧
    (∀ n, s.flags.busy = true → n ∉ [0x00, 0x01, 0x02, 0x03, 0x12, 0x13] → hostRead n s = answered .refused s) ∧
    ∀ n, (∀ e ∈ table, n ≠ e.1) → hostRead n s = answered .refused s

/-- R162: the five registers the host can write, each with a value within its width; everything else is refused. -/
def Obligations.HostWritesFiveRegisters : Prop :=
  ∀ (s : State) (v : Nat), s.flags.busy = false →
    hostWrite 0x09 v s = (if v < 2 ^ 8 then answered .ok (s.setH { s.h with opcode := BitVec.ofNat 8 v }) else answered .refused s) ∧
    hostWrite 0x0C v s = (if v < 2 ^ 16 then answered .ok (s.setH { s.h with vbucket := BitVec.ofNat 16 v }) else answered .refused s) ∧
    hostWrite 0x0D v s = (if v < 2 ^ 16 then answered .ok (s.setH { s.h with status := BitVec.ofNat 16 v }) else answered .refused s) ∧
    hostWrite 0x0F v s = (if v < 2 ^ 32 then answered .ok (s.setH { s.h with opq := BitVec.ofNat 32 v }) else answered .refused s) ∧
    hostWrite 0x10 v s = (if v < 2 ^ 64 then answered .ok (s.setH { s.h with cas := BitVec.ofNat 64 v }) else answered .refused s) ∧
    ∀ n, n ∉ [0x09, 0x0C, 0x0D, 0x0F, 0x10] → hostWrite n v s = answered .refused s

/-- R163: what a `BLD` of each buffer sets, and when it is refused. -/
def Obligations.HostLoadsBuffers : Prop :=
  ∀ (s : State) (bs : List Byte), s.flags.busy = false →
    hostLoad 0x20 bs s = (if bs.length ≤ 255 then answered .ok ((s.setBuf { s.buf with
      extLen := BitVec.ofNat 8 bs.length, ext := Mem.ofBytes 0 bs }).setFlags { s.flags with fok := false })
      else answered .refused s) ∧
    hostLoad 0x21 bs s = (if bs.length ≤ 65535 then answered .ok ((s.setBuf { s.buf with
      keyLen := BitVec.ofNat 16 bs.length, key := Mem.ofBytes 0 bs }).setFlags { s.flags with fok := false })
      else answered .refused s) ∧
    (bs.length ≤ Config.valcap → hostLoad 0x22 bs s = answered .ok ((s.setBuf { s.buf with
      valLen := BitVec.ofNat 32 bs.length, val := Mem.ofBytes 0 bs }).setFlags { s.flags with fok := false })) ∧
    (Config.valcap < bs.length → hostLoad 0x22 bs s = answered .refused s) ∧
    hostLoad 0x23 bs s = (if bs.length = 24 then answered .ok ((s.setBuf { s.buf with
      hdr := Mem.ofBytes 0 bs }).setFlags { s.flags with hl := true, hv := false }) else answered .refused s) ∧
    ∀ i, Mem.read (Mem.ofBytes 0 bs) i = bs[i]?

/-- R164: what a `BRD` of each buffer answers; a byte that no rule has defined reads as a free value (assumption 2). -/
def Obligations.HostDumpsBuffers : Prop :=
  ∀ s : State, s.flags.busy = false →
    (∀ e ∈ [(0x20, BufName.ext), (0x21, .key), (0x22, .val)], ∃ bs : List Byte,
      hostDump e.1 s = answered (.bytes bs) (s.setDrv { s.drv with draws := s.drv.draws + 1 }) ∧
      bs.length = Buffers.len e.2 s.buf ∧
      ∀ i, i < bs.length → bs[i]? = some ((Mem.read (Buffers.mem e.2 s.buf) i).getD (Config.freeByte s.drv.draws i))) ∧
    (s.flags.hl = true → ∃ bs : List Byte,
      hostDump 0x23 s = answered (.bytes bs) (s.setDrv { s.drv with draws := s.drv.draws + 1 }) ∧ bs.length = 24 ∧
      ∀ i, i < 24 → bs[i]? = some ((Mem.read s.buf.hdr i).getD (Config.freeByte s.drv.draws i))) ∧
    (s.flags.hl = false → hostDump 0x23 s = answered .refused s)

/-- R160: a refused access changes no state of the block; while a command is in flight every access but the reads of the
status registers is refused; so is an access of the wrong kind. -/
def Obligations.RefusedAccessChangesNothing : Prop :=
  (∀ (s : State) (n v : Nat) (bs : List Byte),
    ∀ i ∈ [Input.hrd n, .hwr n v, .bld n bs, .brd n], (move i s).drv.answer = some .refused →
      move i s = answered .refused s) ∧
  ∀ (s : State) (n v : Nat) (bs : List Byte),
    (s.flags.busy = true → hostWrite n v s = answered .refused s ∧ hostLoad n bs s = answered .refused s ∧
      hostDump n s = answered .refused s ∧
      (n ∉ [0x00, 0x01, 0x02, 0x03, 0x12, 0x13] → hostRead n s = answered .refused s)) ∧
    (n ∈ [0x20, 0x21, 0x22, 0x23] → hostRead n s = answered .refused s ∧ hostWrite n v s = answered .refused s) ∧
    (n ∉ [0x20, 0x21, 0x22, 0x23] → hostLoad n bs s = answered .refused s ∧ hostDump n s = answered .refused s)

/-- R163, R164: what has been loaded is read back, whichever the buffer. -/
def Obligations.LoadThenDumpReturnsBytes : Prop :=
  ∀ (s : State) (n : Nat) (bs : List Byte), s.flags.busy = false → (hostLoad n bs s).drv.answer = some .ok →
    (hostDump n (hostLoad n bs s)).drv.answer = some (.bytes bs)

/-! ## Interleaving and waiting -/

/-- R6, R43 (assumption 7): however often others move between the micro-steps of a command, doing nothing, the sequencer's
turns come to the same state. -/
def Obligations.InterleavingDoesNotChangeOutcome : Prop :=
  ∀ (s : State) (ys : List Bool), Inv s → s.drv.yields = [] →
    ∃ k : Nat, let t := seqTurn^[k] (s.setDrv { s.drv with yields := ys })
      t.setDrv { t.drv with yields := [] } = seqTurn s

/-- R6, R237: the sequencer's turn, uninterrupted, ends the command or leaves it waiting for the environment; if the stream has
ended and the sink answers every push, it ends the command. -/
def Obligations.TurnEndsCommandOrWaits : Prop :=
  ∀ s : State, Inv s → s.drv.yields = [] →
    ((seqTurn s).flags.busy = false ∨ microStep (seqTurn s) = none) ∧
    (s.env.rxEnded = true → s.env.sink = .takesAll ∨ (∃ j, s.env.sink = .takes j true) → (seqTurn s).flags.busy = false)

/-- R43, R66: it does not matter in how many pieces the stream delivers. -/
def Obligations.SplitDeliveryReceivesTheSame : Prop :=
  ∀ (s t : State) (a : Word) (bs cs : List Byte), s.flags.busy = false → s.drv.yields = [] → s.env.rxEnded = false →
    ∀ i ∈ [Instr.ldhdr a, .rdframe a, .rxreq a, .rxrsp a],
      exec i (s.setEnv { s.env with rx := bs }) = .next t →
      exec i (s.setEnv { s.env with rx := bs ++ cs }) = .next (seqTurn (peerSends cs t))

/-! ## Directions -/

/-- R101, R112: only four commands ever decode, each expects the magic of its own direction, and any other byte 0, the other legal
magic included, is a wrong one; interrupted or not. -/
def Obligations.DirectionIsNamedByCommand : Prop :=
  ∀ s t : State, Inv s → s.seq.phase = .decode → microStep s = some t →
    let table := [(Code.decreq, 0x80#8), (Code.rxreq, 0x80#8), (Code.decrsp, 0x81#8), (Code.rxrsp, 0x81#8)]
    s.cmdreg ∈ table.map Prod.fst ∧
    ∀ e ∈ table, s.cmdreg = e.1 →
      (t.errs.err.cause = .magicMismatch ↔ byteOf (hdrBytes s) 0 ≠ e.2) ∧
      (t.errs.err.cause = .none → t.h.magic = e.2) ∧ (t.errs.err.cause ≠ .none → t.h = s.h)
end

