-- ==== Sys2Proof/Laws/Bytes.lean ====
section
/-! SUPPORT. Big-endian bytes, and the bounds of the parameter `VALCAP`. -/

namespace Sys2Proof

@[simp] theorem beBytes_length (n v : Nat) : (beBytes n v).length = n := by
  induction n generalizing v with
  | zero => rfl
  | succ n ih => simp [beBytes, ih]

theorem ofBe_foldl (bs : List Byte) (acc : Nat) :
    bs.foldl (fun a b => a * 256 + b.toNat) acc = acc * 256 ^ bs.length + ofBe bs := by
  induction bs generalizing acc with
  | nil => simp [ofBe]
  | cons b bs ih =>
    simp only [ofBe, List.foldl_cons, List.length_cons, Nat.zero_mul, Nat.zero_add]
    rw [ih, ih (b.toNat)]
    ring

@[simp] theorem ofBe_nil : ofBe [] = 0 := rfl

theorem ofBe_cons (b : Byte) (bs : List Byte) : ofBe (b :: bs) = b.toNat * 256 ^ bs.length + ofBe bs := by
  rw [ofBe, List.foldl_cons, ofBe_foldl]
  simp

theorem ofBe_append (as bs : List Byte) : ofBe (as ++ bs) = ofBe as * 256 ^ bs.length + ofBe bs := by
  rw [ofBe, List.foldl_append, ofBe_foldl, ← ofBe]

/-- A number assembled from `n` bytes is below `256 ^ n` (R9, R95). -/
theorem ofBe_lt (bs : List Byte) : ofBe bs < 256 ^ bs.length := by
  induction bs with
  | nil => simp
  | cons b bs ih =>
    rw [ofBe_cons, List.length_cons, Nat.pow_succ]
    have hb := b.isLt
    have : b.toNat * 256 ^ bs.length ≤ 255 * 256 ^ bs.length := Nat.mul_le_mul_right _ (by omega)
    omega

/-- `MemRead` after `MemWrite` (R10, R62): the number comes back, cut to its width. -/
theorem ofBe_beBytes (n v : Nat) : ofBe (beBytes n v) = v % 256 ^ n := by
  induction n with
  | zero => simp [beBytes, Nat.mod_one]
  | succ n ih =>
    rw [beBytes, ofBe_cons, beBytes_length, ih, BitVec.toNat_ofNat, Nat.pow_succ 256 n, Nat.mod_mul]
    ring

theorem ofBe_beBytes_of_lt {n v : Nat} (h : v < 256 ^ n) : ofBe (beBytes n v) = v := by
  rw [ofBe_beBytes, Nat.mod_eq_of_lt h]

/-- `MemWrite` after `MemRead`: the bytes come back. -/
theorem beBytes_ofBe (bs : List Byte) : beBytes bs.length (ofBe bs) = bs := by
  have key : ∀ (bs : List Byte) (k : Nat), beBytes bs.length (k * 256 ^ bs.length + ofBe bs) = bs := by
    intro bs
    induction bs with
    | nil => intro k; rfl
    | cons b bs ih =>
      intro k
      have h : k * 256 ^ (bs.length + 1) + ofBe (b :: bs) = (k * 256 + b.toNat) * 256 ^ bs.length + ofBe bs := by
        rw [ofBe_cons, Nat.pow_succ]; ring
      rw [List.length_cons, h, beBytes, ih]
      congr 1
      have hd : ((k * 256 + b.toNat) * 256 ^ bs.length + ofBe bs) / 256 ^ bs.length = k * 256 + b.toNat := by
        rw [Nat.mul_comm, Nat.mul_add_div (by positivity), Nat.div_eq_of_lt (ofBe_lt bs), Nat.add_zero]
      rw [hd]
      apply BitVec.eq_of_toNat_eq
      have hb := b.isLt
      simp only [BitVec.toNat_ofNat]
      omega
  simpa using key bs 0

namespace Config

theorem valcapMin_le : valcapMin ≤ valcap := Nat.le_add_right _ _

theorem valcap_le_max : valcap ≤ valcapMax := by
  have := Nat.mod_lt valcapChoice (show valcapMax - valcapMin + 1 > 0 by decide)
  simp only [valcap, valcapMin, valcapMax] at *
  omega

end Config

namespace Machine

/-- The test of R46 step 5 and of R163 is the comparison with `VALCAP`. -/
theorem exceedsValcap_eq (n : Nat) : exceedsValcap n = decide (Config.valcap < n) := by
  have h1 := Config.valcapMin_le
  have h2 := Config.valcap_le_max
  simp only [exceedsValcap, ← Bool.decide_and, ← Bool.decide_or]
  congr 1
  apply propext
  omega

/-- The length fits the buffer exactly when it is at most the capacity; `HDRBUF` takes 24 bytes (R163). -/
theorem fits_section {b : BufName} (hb : b ≠ .hdr) (n : Nat) :
    fits b n = decide (n ≤ match b with | .hdr => 0 | .ext => 255 | .key => 65535 | .val => Config.valcap) := by
  cases b
  · exact absurd rfl hb
  · rfl
  · rfl
  · rw [fits, exceedsValcap_eq, ← decide_not]
    exact decide_eq_decide.mpr Nat.not_lt

end Machine

end Sys2Proof
end

