-- ==== Sys2Proof/Laws/State.lean ====
section
/-! SUPPORT. What each update of one component of the state leaves in each component: one lemma per field per update. -/

namespace Sys2Proof.Machine

/-! `setH` -/

@[simp] theorem State.setH_h (v : HeaderRegs) (s : State) : (s.setH v).h = v := rfl
@[simp] theorem State.setH_buf (v : HeaderRegs) (s : State) : (s.setH v).buf = s.buf := rfl
@[simp] theorem State.setH_maxbody (v : HeaderRegs) (s : State) : (s.setH v).maxbody = s.maxbody := rfl
@[simp] theorem State.setH_flags (v : HeaderRegs) (s : State) : (s.setH v).flags = s.flags := rfl
@[simp] theorem State.setH_errs (v : HeaderRegs) (s : State) : (s.setH v).errs = s.errs := rfl
@[simp] theorem State.setH_seq (v : HeaderRegs) (s : State) : (s.setH v).seq = s.seq := rfl
@[simp] theorem State.setH_cmdreg (v : HeaderRegs) (s : State) : (s.setH v).cmdreg = s.cmdreg := rfl
@[simp] theorem State.setH_txq (v : HeaderRegs) (s : State) : (s.setH v).txq = s.txq := rfl
@[simp] theorem State.setH_env (v : HeaderRegs) (s : State) : (s.setH v).env = s.env := rfl
@[simp] theorem State.setH_drv (v : HeaderRegs) (s : State) : (s.setH v).drv = s.drv := rfl

/-! `setBuf` -/

@[simp] theorem State.setBuf_h (v : Buffers) (s : State) : (s.setBuf v).h = s.h := rfl
@[simp] theorem State.setBuf_buf (v : Buffers) (s : State) : (s.setBuf v).buf = v := rfl
@[simp] theorem State.setBuf_maxbody (v : Buffers) (s : State) : (s.setBuf v).maxbody = s.maxbody := rfl
@[simp] theorem State.setBuf_flags (v : Buffers) (s : State) : (s.setBuf v).flags = s.flags := rfl
@[simp] theorem State.setBuf_errs (v : Buffers) (s : State) : (s.setBuf v).errs = s.errs := rfl
@[simp] theorem State.setBuf_seq (v : Buffers) (s : State) : (s.setBuf v).seq = s.seq := rfl
@[simp] theorem State.setBuf_cmdreg (v : Buffers) (s : State) : (s.setBuf v).cmdreg = s.cmdreg := rfl
@[simp] theorem State.setBuf_txq (v : Buffers) (s : State) : (s.setBuf v).txq = s.txq := rfl
@[simp] theorem State.setBuf_env (v : Buffers) (s : State) : (s.setBuf v).env = s.env := rfl
@[simp] theorem State.setBuf_drv (v : Buffers) (s : State) : (s.setBuf v).drv = s.drv := rfl

/-! `setMaxbody` -/

@[simp] theorem State.setMaxbody_h (v : Word) (s : State) : (s.setMaxbody v).h = s.h := rfl
@[simp] theorem State.setMaxbody_buf (v : Word) (s : State) : (s.setMaxbody v).buf = s.buf := rfl
@[simp] theorem State.setMaxbody_maxbody (v : Word) (s : State) : (s.setMaxbody v).maxbody = v := rfl
@[simp] theorem State.setMaxbody_flags (v : Word) (s : State) : (s.setMaxbody v).flags = s.flags := rfl
@[simp] theorem State.setMaxbody_errs (v : Word) (s : State) : (s.setMaxbody v).errs = s.errs := rfl
@[simp] theorem State.setMaxbody_seq (v : Word) (s : State) : (s.setMaxbody v).seq = s.seq := rfl
@[simp] theorem State.setMaxbody_cmdreg (v : Word) (s : State) : (s.setMaxbody v).cmdreg = s.cmdreg := rfl
@[simp] theorem State.setMaxbody_txq (v : Word) (s : State) : (s.setMaxbody v).txq = s.txq := rfl
@[simp] theorem State.setMaxbody_env (v : Word) (s : State) : (s.setMaxbody v).env = s.env := rfl
@[simp] theorem State.setMaxbody_drv (v : Word) (s : State) : (s.setMaxbody v).drv = s.drv := rfl

/-! `setFlags` -/

@[simp] theorem State.setFlags_h (v : Flags) (s : State) : (s.setFlags v).h = s.h := rfl
@[simp] theorem State.setFlags_buf (v : Flags) (s : State) : (s.setFlags v).buf = s.buf := rfl
@[simp] theorem State.setFlags_maxbody (v : Flags) (s : State) : (s.setFlags v).maxbody = s.maxbody := rfl
@[simp] theorem State.setFlags_flags (v : Flags) (s : State) : (s.setFlags v).flags = v := rfl
@[simp] theorem State.setFlags_errs (v : Flags) (s : State) : (s.setFlags v).errs = s.errs := rfl
@[simp] theorem State.setFlags_seq (v : Flags) (s : State) : (s.setFlags v).seq = s.seq := rfl
@[simp] theorem State.setFlags_cmdreg (v : Flags) (s : State) : (s.setFlags v).cmdreg = s.cmdreg := rfl
@[simp] theorem State.setFlags_txq (v : Flags) (s : State) : (s.setFlags v).txq = s.txq := rfl
@[simp] theorem State.setFlags_env (v : Flags) (s : State) : (s.setFlags v).env = s.env := rfl
@[simp] theorem State.setFlags_drv (v : Flags) (s : State) : (s.setFlags v).drv = s.drv := rfl

/-! `setErrs` -/

@[simp] theorem State.setErrs_h (v : ErrRegs) (s : State) : (s.setErrs v).h = s.h := rfl
@[simp] theorem State.setErrs_buf (v : ErrRegs) (s : State) : (s.setErrs v).buf = s.buf := rfl
@[simp] theorem State.setErrs_maxbody (v : ErrRegs) (s : State) : (s.setErrs v).maxbody = s.maxbody := rfl
@[simp] theorem State.setErrs_flags (v : ErrRegs) (s : State) : (s.setErrs v).flags = s.flags := rfl
@[simp] theorem State.setErrs_errs (v : ErrRegs) (s : State) : (s.setErrs v).errs = v := rfl
@[simp] theorem State.setErrs_seq (v : ErrRegs) (s : State) : (s.setErrs v).seq = s.seq := rfl
@[simp] theorem State.setErrs_cmdreg (v : ErrRegs) (s : State) : (s.setErrs v).cmdreg = s.cmdreg := rfl
@[simp] theorem State.setErrs_txq (v : ErrRegs) (s : State) : (s.setErrs v).txq = s.txq := rfl
@[simp] theorem State.setErrs_env (v : ErrRegs) (s : State) : (s.setErrs v).env = s.env := rfl
@[simp] theorem State.setErrs_drv (v : ErrRegs) (s : State) : (s.setErrs v).drv = s.drv := rfl

/-! `setSeq` -/

@[simp] theorem State.setSeq_h (v : Seq) (s : State) : (s.setSeq v).h = s.h := rfl
@[simp] theorem State.setSeq_buf (v : Seq) (s : State) : (s.setSeq v).buf = s.buf := rfl
@[simp] theorem State.setSeq_maxbody (v : Seq) (s : State) : (s.setSeq v).maxbody = s.maxbody := rfl
@[simp] theorem State.setSeq_flags (v : Seq) (s : State) : (s.setSeq v).flags = s.flags := rfl
@[simp] theorem State.setSeq_errs (v : Seq) (s : State) : (s.setSeq v).errs = s.errs := rfl
@[simp] theorem State.setSeq_seq (v : Seq) (s : State) : (s.setSeq v).seq = v := rfl
@[simp] theorem State.setSeq_cmdreg (v : Seq) (s : State) : (s.setSeq v).cmdreg = s.cmdreg := rfl
@[simp] theorem State.setSeq_txq (v : Seq) (s : State) : (s.setSeq v).txq = s.txq := rfl
@[simp] theorem State.setSeq_env (v : Seq) (s : State) : (s.setSeq v).env = s.env := rfl
@[simp] theorem State.setSeq_drv (v : Seq) (s : State) : (s.setSeq v).drv = s.drv := rfl

/-! `setCmdreg` -/

@[simp] theorem State.setCmdreg_h (v : Byte) (s : State) : (s.setCmdreg v).h = s.h := rfl
@[simp] theorem State.setCmdreg_buf (v : Byte) (s : State) : (s.setCmdreg v).buf = s.buf := rfl
@[simp] theorem State.setCmdreg_maxbody (v : Byte) (s : State) : (s.setCmdreg v).maxbody = s.maxbody := rfl
@[simp] theorem State.setCmdreg_flags (v : Byte) (s : State) : (s.setCmdreg v).flags = s.flags := rfl
@[simp] theorem State.setCmdreg_errs (v : Byte) (s : State) : (s.setCmdreg v).errs = s.errs := rfl
@[simp] theorem State.setCmdreg_seq (v : Byte) (s : State) : (s.setCmdreg v).seq = s.seq := rfl
@[simp] theorem State.setCmdreg_cmdreg (v : Byte) (s : State) : (s.setCmdreg v).cmdreg = v := rfl
@[simp] theorem State.setCmdreg_txq (v : Byte) (s : State) : (s.setCmdreg v).txq = s.txq := rfl
@[simp] theorem State.setCmdreg_env (v : Byte) (s : State) : (s.setCmdreg v).env = s.env := rfl
@[simp] theorem State.setCmdreg_drv (v : Byte) (s : State) : (s.setCmdreg v).drv = s.drv := rfl

/-! `setTxq` -/

@[simp] theorem State.setTxq_h (v : List Byte) (s : State) : (s.setTxq v).h = s.h := rfl
@[simp] theorem State.setTxq_buf (v : List Byte) (s : State) : (s.setTxq v).buf = s.buf := rfl
@[simp] theorem State.setTxq_maxbody (v : List Byte) (s : State) : (s.setTxq v).maxbody = s.maxbody := rfl
@[simp] theorem State.setTxq_flags (v : List Byte) (s : State) : (s.setTxq v).flags = s.flags := rfl
@[simp] theorem State.setTxq_errs (v : List Byte) (s : State) : (s.setTxq v).errs = s.errs := rfl
@[simp] theorem State.setTxq_seq (v : List Byte) (s : State) : (s.setTxq v).seq = s.seq := rfl
@[simp] theorem State.setTxq_cmdreg (v : List Byte) (s : State) : (s.setTxq v).cmdreg = s.cmdreg := rfl
@[simp] theorem State.setTxq_txq (v : List Byte) (s : State) : (s.setTxq v).txq = v := rfl
@[simp] theorem State.setTxq_env (v : List Byte) (s : State) : (s.setTxq v).env = s.env := rfl
@[simp] theorem State.setTxq_drv (v : List Byte) (s : State) : (s.setTxq v).drv = s.drv := rfl

/-! `setEnv` -/

@[simp] theorem State.setEnv_h (v : Env) (s : State) : (s.setEnv v).h = s.h := rfl
@[simp] theorem State.setEnv_buf (v : Env) (s : State) : (s.setEnv v).buf = s.buf := rfl
@[simp] theorem State.setEnv_maxbody (v : Env) (s : State) : (s.setEnv v).maxbody = s.maxbody := rfl
@[simp] theorem State.setEnv_flags (v : Env) (s : State) : (s.setEnv v).flags = s.flags := rfl
@[simp] theorem State.setEnv_errs (v : Env) (s : State) : (s.setEnv v).errs = s.errs := rfl
@[simp] theorem State.setEnv_seq (v : Env) (s : State) : (s.setEnv v).seq = s.seq := rfl
@[simp] theorem State.setEnv_cmdreg (v : Env) (s : State) : (s.setEnv v).cmdreg = s.cmdreg := rfl
@[simp] theorem State.setEnv_txq (v : Env) (s : State) : (s.setEnv v).txq = s.txq := rfl
@[simp] theorem State.setEnv_env (v : Env) (s : State) : (s.setEnv v).env = v := rfl
@[simp] theorem State.setEnv_drv (v : Env) (s : State) : (s.setEnv v).drv = s.drv := rfl

/-! `setDrv` -/

@[simp] theorem State.setDrv_h (v : Driver) (s : State) : (s.setDrv v).h = s.h := rfl
@[simp] theorem State.setDrv_buf (v : Driver) (s : State) : (s.setDrv v).buf = s.buf := rfl
@[simp] theorem State.setDrv_maxbody (v : Driver) (s : State) : (s.setDrv v).maxbody = s.maxbody := rfl
@[simp] theorem State.setDrv_flags (v : Driver) (s : State) : (s.setDrv v).flags = s.flags := rfl
@[simp] theorem State.setDrv_errs (v : Driver) (s : State) : (s.setDrv v).errs = s.errs := rfl
@[simp] theorem State.setDrv_seq (v : Driver) (s : State) : (s.setDrv v).seq = s.seq := rfl
@[simp] theorem State.setDrv_cmdreg (v : Driver) (s : State) : (s.setDrv v).cmdreg = s.cmdreg := rfl
@[simp] theorem State.setDrv_txq (v : Driver) (s : State) : (s.setDrv v).txq = s.txq := rfl
@[simp] theorem State.setDrv_env (v : Driver) (s : State) : (s.setDrv v).env = s.env := rfl
@[simp] theorem State.setDrv_drv (v : Driver) (s : State) : (s.setDrv v).drv = v := rfl

end Sys2Proof.Machine
end

