-- ==== Sys2Proof/Laws/Endings.lean ====
section
/-! SUPPORT. The ends of a command: everything `raise` does (R200), and when it discards nothing. -/

namespace Sys2Proof.Machine

/-- Nothing staged, nothing discarded. -/
theorem discardStaged_nil {s : State} (h : s.txq = []) : discardStaged s = s := by
  simp [discardStaged, h]

/-- All that a discard does: some prefix of the staged bytes goes to the wire, and only the draw counter moves besides. -/
theorem discardStaged_spec (s : State) : ∃ k n : Nat,
    discardStaged s = { s with txq := [], env := { s.env with wire := s.env.wire ++ s.txq.take k }, drv := { s.drv with draws := n } } := by
  obtain ⟨h, B, m, f, e, q, cm, t, v, d⟩ := s
  cases t with
  | nil => exact ⟨0, d.draws, by simp [discardStaged]⟩
  | cons x xs => exact ⟨Config.freeWireCount d.draws, d.draws + 1, rfl⟩

/-- A refusal and a dead link are commands that were not started. -/
theorem refuse_eq (c : Cause) (code : Byte) (arg : Word) (s : State) : refuse c code arg s = notStarted c code arg s := rfl
theorem linkDead_eq (code : Byte) (s : State) : linkDead code s = notStarted .linkDead code 0 s := rfl

/-- An error with nothing staged. -/
theorem raise_eq (c : Cause) (i : Word) (s : State) (hq : s.txq = []) :
    raise c i s = endedError c s.seq.phase s.cmdreg i s := by
  have hq' : ∀ f e, ((s.setErrs e).setFlags f).txq = [] := fun _ _ => hq
  simp only [raise]
  cases hT : c.isTransport
  · simp only [Bool.false_eq_true, if_false, endedError, hT]; rfl
  · simp only [if_true, discardStaged_nil (hq' _ _), endedError, hT]; rfl

theorem raise_busy (c : Cause) (i : Word) (s : State) : (raise c i s).flags.busy = false := by
  simp [raise, finish]

theorem finish_busy (s : State) : (finish s).flags.busy = false := rfl

/-- A transport error: the staged bytes go first. -/
theorem raise_transport {c : Cause} (hc : c.isTransport = true) (i : Word) (s : State) :
    raise c i s = endedError c s.seq.phase s.cmdreg i (discardStaged s) := by
  simp only [raise, hc, if_true, endedError, discardStaged, State.setFlags_txq, State.setErrs_txq]
  cases s.txq <;> rfl

/-- Everything `raise` does but for the wire and the draw counter. -/
theorem raise_fields (c : Cause) (i : Word) (s : State) :
    (raise c i s).h = s.h ∧ (raise c i s).buf = s.buf ∧ (raise c i s).maxbody = s.maxbody ∧
    (raise c i s).flags = { s.flags with busy := false, done := true, dead := c.isTransport || s.flags.dead } ∧
    (raise c i s).errs = ⟨⟨c, s.seq.phase, s.cmdreg⟩, i, s.errs.sticky ||| c.stickyBit⟩ ∧
    (raise c i s).seq = ⟨.idle, 0⟩ ∧ (raise c i s).cmdreg = s.cmdreg ∧
    (raise c i s).txq = (if c.isTransport then [] else s.txq) ∧ (raise c i s).env.rx = s.env.rx ∧
    (raise c i s).env.rxEnded = s.env.rxEnded ∧ (raise c i s).env.sink = s.env.sink ∧
    (raise c i s).drv.inputs = s.drv.inputs ∧ (raise c i s).drv.yields = s.drv.yields := by
  obtain ⟨h, B, m, ⟨f1, f2, f3, f4, f5, f6⟩, e, q, cm, t, v, d⟩ := s
  cases hT : c.isTransport <;> cases t <;> simp [raise, hT, finish, discardStaged, State.setErrs, State.setFlags, State.setSeq, State.setTxq, State.setEnv, State.setDrv]

end Sys2Proof.Machine
end

