-- ==== Sys2Proof/Laws/Mem.lean ====
section
/-! SUPPORT. Memory: a read after a write, and the canonical form, which every operation keeps. -/

namespace Sys2Proof.Machine

@[simp] theorem Mem.read_nil (a : Nat) : Mem.read [] a = none := rfl

theorem Mem.read_cons (k : Nat) (b : Byte) (m : Mem) (a : Nat) :
    Mem.read ((k, b) :: m) a = if a = k then some b else Mem.read m a := rfl

/-- A read of the offset just written gives the byte written. -/
@[simp] theorem Mem.read_write_same (m : Mem) (a : Nat) (b : Byte) : Mem.read (Mem.write m a b) a = some b := by
  induction m with
  | nil => simp [Mem.write, Mem.read]
  | cons x m ih =>
    obtain ⟨k, c⟩ := x
    simp only [Mem.write]
    split
    · simp [Mem.read]
    · split
      · simp [Mem.read]
      · simp [Mem.read, *]

/-- A write leaves every other offset alone. -/
theorem Mem.read_write_other (m : Mem) {a a' : Nat} (b : Byte) (h : a' ≠ a) :
    Mem.read (Mem.write m a b) a' = Mem.read m a' := by
  induction m with
  | nil => simp [Mem.write, Mem.read, h]
  | cons x m ih =>
    obtain ⟨k, c⟩ := x
    simp only [Mem.write]
    split
    · simp [Mem.read, h]
    · split
      · next h2 => subst h2; simp [Mem.read, h]
      · simp [Mem.read, ih]

theorem Mem.mem_write {m : Mem} {a : Nat} {b : Byte} {x : Host.Cell} (hx : x ∈ Mem.write m a b) :
    x = (a, b) ∨ x ∈ m := by
  induction m with
  | nil => simpa [Mem.write] using hx
  | cons y m ih =>
    obtain ⟨k, c⟩ := y
    simp only [Mem.write] at hx
    split at hx
    · simpa using hx
    · split at hx
      · simp only [List.mem_cons] at hx ⊢; tauto
      · simp only [List.mem_cons] at hx ⊢
        rcases hx with h | h
        · exact .inr (.inl h)
        · exact (ih h).imp id .inr

theorem Mem.wf_nil : Mem.wf [] := List.Pairwise.nil

/-- A write keeps the canonical form. -/
theorem Mem.wf_write {m : Mem} (a : Nat) (b : Byte) (h : Mem.wf m) : Mem.wf (Mem.write m a b) := by
  induction m with
  | nil => simp [Mem.write, Mem.wf]
  | cons x m ih =>
    obtain ⟨k, c⟩ := x
    obtain ⟨h1, h2⟩ := List.pairwise_cons.mp h
    simp only [Mem.write]
    split
    · next hlt =>
      refine List.pairwise_cons.mpr ⟨?_, h⟩
      intro y hy
      rcases List.mem_cons.mp hy with rfl | hy
      · exact hlt
      · exact Nat.lt_trans hlt (h1 y hy)
    · split
      · next heq => subst heq; exact List.pairwise_cons.mpr ⟨h1, h2⟩
      · next hne heq =>
        refine List.pairwise_cons.mpr ⟨?_, ih h2⟩
        intro y hy
        rcases Mem.mem_write hy with rfl | hy
        · show k < a; omega
        · exact h1 y hy

/-- Writing several bytes keeps the canonical form. -/
theorem Mem.wf_writeAll {m : Mem} (a : Nat) (bs : List Byte) (h : Mem.wf m) : Mem.wf (Mem.writeAll m a bs) := by
  induction bs generalizing m a with
  | nil => exact h
  | cons b bs ih => exact ih (a + 1) (Mem.wf_write a b h)

theorem Mem.mem_ofBytes {a : Nat} {bs : List Byte} {x : Host.Cell} (hx : x ∈ Mem.ofBytes a bs) :
    a ≤ x.1 ∧ x.1 < a + bs.length := by
  induction bs generalizing a with
  | nil => simp [Mem.ofBytes] at hx
  | cons b bs ih =>
    simp only [Mem.ofBytes, List.mem_cons] at hx
    rcases hx with rfl | hx
    · simp
    · have := ih hx
      simp only [List.length_cons]
      omega

/-- Loaded contents are in canonical form. -/
theorem Mem.wf_ofBytes (a : Nat) (bs : List Byte) : Mem.wf (Mem.ofBytes a bs) := by
  induction bs generalizing a with
  | nil => exact Mem.wf_nil
  | cons b bs ih =>
    refine List.pairwise_cons.mpr ⟨?_, ih (a + 1)⟩
    intro y hy
    have := Mem.mem_ofBytes hy
    show a < y.1
    omega

/-- Loaded contents read back as the bytes loaded. -/
theorem Mem.read_ofBytes (a : Nat) (bs : List Byte) (i : Nat) :
    Mem.read (Mem.ofBytes a bs) i = if a ≤ i then bs[i - a]? else none := by
  induction bs generalizing a with
  | nil => simp [Mem.ofBytes]
  | cons b bs ih =>
    simp only [Mem.ofBytes, Mem.read_cons, ih]
    by_cases h : i = a
    · subst h; simp
    · by_cases h2 : a ≤ i
      · have h3 : i - a = (i - (a + 1)) + 1 := by omega
        have h4 : a + 1 ≤ i := by omega
        simp [h, h2, h3, h4]
      · have h4 : ¬ a + 1 ≤ i := by omega
        simp [h, h2, h4]

/-- Writing the offset after the last listed one adds the byte at the end. -/
theorem Mem.write_ofBytes_end (a : Nat) (bs : List Byte) (b : Byte) :
    Mem.write (Mem.ofBytes a bs) (a + bs.length) b = Mem.ofBytes a (bs ++ [b]) := by
  induction bs generalizing a with
  | nil => simp [Mem.ofBytes, Mem.write]
  | cons c bs ih =>
    simp only [Mem.ofBytes, List.cons_append, List.length_cons, Mem.write]
    have h1 : ¬ a + (bs.length + 1) < a := by omega
    have h2 : ¬ a + (bs.length + 1) = a := by omega
    simp only [h1, h2, if_false]
    congr 1
    rw [← ih]
    congr 1
    omega

/-- Writing bytes after the last listed offset appends them. -/
theorem Mem.writeAll_ofBytes_end (a : Nat) (bs cs : List Byte) :
    Mem.writeAll (Mem.ofBytes a bs) (a + bs.length) cs = Mem.ofBytes a (bs ++ cs) := by
  induction cs generalizing bs with
  | nil => simp [Mem.writeAll]
  | cons c cs ih =>
    rw [Mem.writeAll, Mem.write_ofBytes_end]
    have h : a + bs.length + 1 = a + (bs ++ [c]).length := by simp; omega
    rw [h, ih]
    simp

@[simp] theorem Mem.bytes_length (d : Nat) (m : Mem) (a n : Nat) : (Mem.bytes d m a n).length = n := by
  induction n generalizing a with
  | zero => rfl
  | succ n ih => simp [Mem.bytes, ih]

theorem Mem.bytes_getElem? (d : Nat) (m : Mem) (a n i : Nat) :
    (Mem.bytes d m a n)[i]? = if i < n then some (Mem.byteAt d m (a + i)) else none := by
  induction n generalizing a i with
  | zero => simp [Mem.bytes]
  | succ n ih =>
    cases i with
    | zero => simp [Mem.bytes]
    | succ i => simp [Mem.bytes, ih, Nat.add_assoc, Nat.add_comm 1 i]

/-- Reading back what was loaded draws no free value. -/
theorem Mem.bytes_ofBytes (d : Nat) (bs : List Byte) : Mem.bytes d (Mem.ofBytes 0 bs) 0 bs.length = bs := by
  apply List.ext_getElem?
  intro i
  rw [Mem.bytes_getElem?]
  split
  · next h => simp [Mem.byteAt, Mem.read_ofBytes, h]
  · next h => simp [List.getElem?_eq_none (Nat.le_of_not_lt h)]

/-- The memories of the reset state list nothing, so they have the canonical form. -/
theorem reset_mem_wf (b : BufName) : Mem.wf (Buffers.mem b State.reset.buf) := by
  cases b <;> exact Mem.wf_nil

end Sys2Proof.Machine
end

