-- ==== Sys2Proof/Laws/Sequencer.lean ====
section
/-! SUPPORT. What the shared operations can do, each said once: the turn of the sequencer step by step, the micro-steps of the
stream phases and runs of them, and the cases of `issue`. -/

namespace Sys2Proof.Machine

@[simp] theorem State.setDrv_self (s : State) : s.setDrv s.drv = s := rfl

theorem Driver.yields_nil_eq (d : Driver) (h : d.yields = []) : { d with yields := [] } = d := by
  cases d; subst h; rfl

/-! ## The sequencer's turn -/

/-- With no command in flight the sequencer does nothing. -/
theorem runSeq_idle (n : Nat) {s : State} (h : s.flags.busy = false) : runSeq n s = s := by
  cases n <;> simp [runSeq, h]

/-- With nobody else to move, a turn is one micro-step and the rest of the turn. -/
theorem runSeq_succ (n : Nat) {s : State} (hb : s.flags.busy = true) (hy : s.drv.yields = []) :
    runSeq (n + 1) s = match microStep s with
      | none => s
      | some t => runSeq n t := by
  have h : s.setDrv { s.drv with yields := [] } = s := by rw [Driver.yields_nil_eq _ hy]; rfl
  cases hm : microStep s <;> simp [runSeq, hb, hy, h, hm]

theorem runSeq_of_step {n : Nat} {s t : State} (hb : s.flags.busy = true) (hy : s.drv.yields = [])
    (h : microStep s = some t) : runSeq (n + 1) s = runSeq n t := by
  rw [runSeq_succ n hb hy, h]

/-- A turn in which the environment does not answer changes nothing. -/
theorem runSeq_of_wait {n : Nat} {s : State} (hb : s.flags.busy = true) (hy : s.drv.yields = [])
    (h : microStep s = none) : runSeq n s = s := by
  cases n with
  | zero => rfl
  | succ n => rw [runSeq_succ n hb hy, h]

/-! ## The cases of `issue` (R46) -/

theorem issue_busy {code : Byte} {arg : Word} {st rd : Bool} {p : Phase} {s : State} (h : s.flags.busy = true) :
    issue code arg st rd p s = s := by
  simp [issue, h]

theorem issue_dead {code : Byte} {arg : Word} {rd : Bool} {p : Phase} {s : State} (hb : s.flags.busy = false)
    (hd : s.flags.dead = true) : issue code arg true rd p s = linkDead code s := by
  simp [issue, hb, hd]

theorem issue_refused {code : Byte} {arg : Word} {st : Bool} {p : Phase} {s : State} (hb : s.flags.busy = false)
    (hd : st = true → s.flags.dead = false) : issue code arg st false p s = refuse .badSequence code arg s := by
  cases st
  · simp [issue, hb]
  · simp [issue, hb, hd rfl]

theorem issue_accepted {code : Byte} {arg : Word} {st : Bool} {p : Phase} {s : State} (hb : s.flags.busy = false)
    (hd : st = true → s.flags.dead = false) : issue code arg st true p s = seqTurn (accept code p s) := by
  cases st
  · simp [issue, hb]
  · simp [issue, hb, hd rfl]

/-- Everything `issue` can answer. -/
theorem issue_cases (code : Byte) (arg : Word) (st rd : Bool) (p : Phase) (s : State) :
    (s.flags.busy = true ∧ issue code arg st rd p s = s) ∨
    (s.flags.busy = false ∧ st = true ∧ s.flags.dead = true ∧ issue code arg st rd p s = linkDead code s) ∨
    (s.flags.busy = false ∧ rd = false ∧ issue code arg st rd p s = refuse .badSequence code arg s) ∨
    (s.flags.busy = false ∧ rd = true ∧ (st = true → s.flags.dead = false) ∧
      issue code arg st rd p s = seqTurn (accept code p s)) := by
  simp only [issue]
  cases hb : s.flags.busy <;> cases st <;> cases hd : s.flags.dead <;> cases rd <;> simp

/-! ## Receive phases (R43) -/

@[simp] theorem Buffers.len_setMem (b c : BufName) (m : Mem) (B : Buffers) :
    Buffers.len b (Buffers.setMem c m B) = Buffers.len b B := by
  cases b <;> cases c <;> rfl

@[simp] theorem Buffers.mem_setMem_same (b : BufName) (m : Mem) (B : Buffers) :
    Buffers.mem b (Buffers.setMem b m B) = m := by
  cases b <;> rfl

theorem Buffers.mem_setMem_other {b c : BufName} (h : b ≠ c) (m : Mem) (B : Buffers) :
    Buffers.mem b (Buffers.setMem c m B) = Buffers.mem b B := by
  cases b <;> cases c <;> first | rfl | exact absurd rfl h

@[simp] theorem Buffers.setMem_setMem (b : BufName) (m m' : Mem) (B : Buffers) :
    Buffers.setMem b m' (Buffers.setMem b m B) = Buffers.setMem b m' B := by
  cases b <;> rfl

/-- Every length is a 32-bit number. -/
theorem Buffers.len_lt (b : BufName) (B : Buffers) : Buffers.len b B < 2 ^ 32 := by
  cases b
  · show (24 : Nat) < 2 ^ 32; decide
  · exact Nat.lt_trans B.extLen.isLt (by decide)
  · exact Nat.lt_trans B.keyLen.isLt (by decide)
  · exact B.valLen.isLt

/-- `s` in the receive phase of `b`, with the bytes `bs` received and `rest` left in the stream. -/
def receiving (b : BufName) (bs rest : List Byte) (s : State) : State :=
  ((s.setBuf (Buffers.setMem b (Mem.ofBytes 0 bs) s.buf)).setEnv { s.env with rx := rest }).setSeq
    ⟨rxPhase b, BitVec.ofNat 32 bs.length⟩

@[simp] theorem receiving_flags (b : BufName) (bs rest : List Byte) (s : State) :
    (receiving b bs rest s).flags = s.flags := rfl
@[simp] theorem receiving_drv (b : BufName) (bs rest : List Byte) (s : State) :
    (receiving b bs rest s).drv = s.drv := rfl

theorem microStep_rxPhase (b : BufName) {s : State} (h : s.seq.phase = rxPhase b) : microStep s = recvStep b s := by
  cases b <;> simp only [rxPhase] at h <;> simp [microStep, h]

/-- One byte received (R43). -/
theorem microStep_receiving (b : BufName) (bs rest : List Byte) (x : Byte) (s : State)
    (h : bs.length < Buffers.len b s.buf) :
    microStep (receiving b bs (x :: rest) s) =
      if bs.length + 1 = Buffers.len b s.buf then some (endRecv b (receiving b (bs ++ [x]) rest s))
      else some (receiving b (bs ++ [x]) rest s) := by
  have hlt := Nat.lt_trans h (Buffers.len_lt b s.buf)
  have hn : (BitVec.ofNat 32 bs.length).toNat = bs.length := by
    rw [BitVec.toNat_ofNat, Nat.mod_eq_of_lt hlt]
  have hw : Mem.write (Mem.ofBytes 0 bs) bs.length x = Mem.ofBytes 0 (bs ++ [x]) := by
    simpa using Mem.write_ofBytes_end 0 bs x
  have hs : BitVec.ofNat 32 bs.length + 1 = BitVec.ofNat 32 (bs ++ [x]).length := by
    simp [BitVec.ofNat_add]
  rw [microStep_rxPhase b rfl]
  simp only [recvStep, receiving, received, State.setEnv_env, State.setSeq_env, State.setSeq_seq, State.setEnv_seq,
    State.setSeq_buf, State.setEnv_buf, State.setBuf_buf, Buffers.store, Buffers.mem_setMem_same, Buffers.len_setMem,
    Buffers.setMem_setMem, hn, hw, hs]
  split
  · simp only [Option.some.injEq]
    rfl
  · simp only [Option.some.injEq]
    rfl

/-- The stream waits: the step has not happened yet (R6). -/
theorem microStep_receiving_wait (b : BufName) (bs : List Byte) {s : State} (h : s.env.rxEnded = false) :
    microStep (receiving b bs [] s) = none := by
  rw [microStep_rxPhase b rfl]
  simp [recvStep, receiving, h]

/-- The stream has ended (R43): a transport error with the number of bytes received. -/
theorem microStep_receiving_end (b : BufName) (bs : List Byte) {s : State} (h : s.env.rxEnded = true) :
    microStep (receiving b bs [] s) =
      some (raise (shortCause b (BitVec.ofNat 32 bs.length)) (BitVec.ofNat 32 bs.length) (receiving b bs [] s)) := by
  rw [microStep_rxPhase b rfl]
  simp [recvStep, receiving, h]

/-- Part of a section received: as many micro-steps as bytes. -/
theorem runSeq_receiving_part (b : BufName) (xs : List Byte) (n : Nat) (bs rest : List Byte) (s : State)
    (hb : s.flags.busy = true) (hy : s.drv.yields = []) (h : bs.length + xs.length < Buffers.len b s.buf) :
    runSeq (n + xs.length) (receiving b bs (xs ++ rest) s) = runSeq n (receiving b (bs ++ xs) rest s) := by
  induction xs generalizing bs with
  | nil => simp
  | cons x xs ih =>
    simp only [List.length_cons] at h
    have h1 : ¬ bs.length + 1 = Buffers.len b s.buf := by omega
    rw [List.length_cons, ← Nat.add_assoc, List.cons_append,
      runSeq_of_step (by simpa using hb) (by simpa using hy)
        ((microStep_receiving b bs _ x s (by omega)).trans (if_neg h1)), ih]
    · simp
    · simp only [List.length_append, List.length_singleton]; omega

/-- A whole section received: as many micro-steps as bytes, the last of which ends the phase. -/
theorem runSeq_receiving_all (b : BufName) (xs : List Byte) (n : Nat) (rest : List Byte) (s : State)
    (hb : s.flags.busy = true) (hy : s.drv.yields = []) (h : xs.length = Buffers.len b s.buf) (h0 : xs ≠ []) :
    runSeq (n + xs.length) (receiving b [] (xs ++ rest) s) = runSeq n (endRecv b (receiving b xs rest s)) := by
  obtain ⟨ys, y, rfl⟩ := List.eq_nil_or_concat xs |>.resolve_left h0
  simp only [List.concat_eq_append, List.length_append, List.length_singleton] at h ⊢
  rw [show n + (ys.length + 1) = (n + 1) + ys.length by omega, List.append_assoc,
    runSeq_receiving_part b ys (n + 1) [] _ s hb hy (by simp; omega), List.nil_append, List.singleton_append,
    runSeq_of_step (by simpa using hb) (by simpa using hy)
      ((microStep_receiving b ys _ y s (by omega)).trans (if_pos (by omega)))]

/-! ## Transmit phases (R44) -/

/-- The `n` answers `Ok` of a sink, and the sink after them (R68). -/
def Sink.spend : Nat → Sink → Option Sink
  | 0, k => some k
  | n + 1, k =>
    match k.answer with
    | some (true, k') => Sink.spend n k'
    | _ => none

@[simp] theorem Sink.spend_takesAll (n : Nat) : Sink.spend n .takesAll = some .takesAll := by
  induction n with
  | zero => rfl
  | succ n ih => simpa [Sink.spend, Sink.answer] using ih

theorem Sink.spend_takes (n j : Nat) (f : Bool) :
    Sink.spend n (.takes j f) = if n ≤ j then some (.takes (j - n) f) else none := by
  induction n generalizing j with
  | zero => simp [Sink.spend]
  | succ n ih =>
    cases j with
    | zero => cases f <;> simp [Sink.spend, Sink.answer]
    | succ j => simp [Sink.spend, Sink.answer, ih]

theorem Sink.spend_succ {m : Nat} {k k' : Sink} (h : Sink.spend (m + 1) k = some k') :
    ∃ k1, Sink.spend m k = some k1 ∧ k1.answer = some (true, k') := by
  cases k with
  | takesAll =>
    simp only [Sink.spend_takesAll, Option.some.injEq] at h ⊢
    exact ⟨.takesAll, rfl, by subst h; rfl⟩
  | takes j f =>
    rw [Sink.spend_takes] at h ⊢
    split at h
    · next hle =>
      simp only [Option.some.injEq] at h
      refine ⟨.takes (j - m) f, by rw [if_pos (by omega)], ?_⟩
      obtain ⟨i, hi⟩ : ∃ i, j - m = i + 1 := ⟨j - m - 1, by omega⟩
      rw [hi, Sink.answer, ← h]
      congr 3
      omega
    · cases h

/-- `s` in the transmit phase of `b`, with `n` of its bytes sent, the queue `q` staged and the sink `k`. -/
def sending (b : BufName) (n : Nat) (q : List Byte) (k : Sink) (s : State) : State :=
  ((s.setTxq q).setEnv { s.env with sink := k }).setSeq ⟨txPhase b, BitVec.ofNat 32 n⟩

@[simp] theorem sending_flags (b : BufName) (n : Nat) (q : List Byte) (k : Sink) (s : State) :
    (sending b n q k s).flags = s.flags := rfl
@[simp] theorem sending_drv (b : BufName) (n : Nat) (q : List Byte) (k : Sink) (s : State) :
    (sending b n q k s).drv = s.drv := rfl

theorem microStep_txPhase (b : BufName) {s : State} (h : s.seq.phase = txPhase b) : microStep s = sendStep b s := by
  cases b <;> simp only [txPhase] at h <;> simp [microStep, h]

/-- One byte sent (R44). -/
theorem microStep_sending (b : BufName) (n : Nat) (q : List Byte) (k k' : Sink) (s : State)
    (h : n < Buffers.len b s.buf) (hk : k.answer = some (true, k')) :
    microStep (sending b n q k s) =
      if n + 1 = Buffers.len b s.buf then
        some (nextSend (laterSections b) (sending b (n + 1) (q ++ [Mem.byteAt s.drv.draws (Buffers.mem b s.buf) n]) k' s))
      else some (sending b (n + 1) (q ++ [Mem.byteAt s.drv.draws (Buffers.mem b s.buf) n]) k' s) := by
  have hlt := Nat.lt_trans h (Buffers.len_lt b s.buf)
  have hn : (BitVec.ofNat 32 n).toNat = n := by rw [BitVec.toNat_ofNat, Nat.mod_eq_of_lt hlt]
  have hs : BitVec.ofNat 32 n + 1 = BitVec.ofNat 32 (n + 1) := by simp [BitVec.ofNat_add]
  rw [microStep_txPhase b rfl]
  simp only [sendStep, sending, pushed, State.setEnv_env, State.setSeq_env, hk, State.setSeq_seq, State.setEnv_seq,
    State.setSeq_buf, State.setEnv_buf, State.setTxq_buf, State.setSeq_drv, State.setEnv_drv, State.setTxq_drv,
    State.setEnv_txq, State.setSeq_txq, State.setTxq_txq, hn, hs]
  split
  · simp only [Option.some.injEq]; rfl
  · simp only [Option.some.injEq]; rfl

theorem microStep_sending_wait (b : BufName) (n : Nat) (q : List Byte) (s : State) :
    microStep (sending b n q (.takes 0 false) s) = none := by
  rw [microStep_txPhase b rfl]
  simp [sendStep, sending, Sink.answer]

theorem microStep_sending_fail (b : BufName) (n : Nat) (q : List Byte) (s : State) :
    microStep (sending b n q (.takes 0 true) s) =
      some (raise .writeFail (BitVec.ofNat 32 n) (sending b n q (.takes 0 true) s)) := by
  rw [microStep_txPhase b rfl]
  simp [sendStep, sending, Sink.answer]

theorem Mem.bytes_add (d : Nat) (m : Mem) (a i j : Nat) :
    Mem.bytes d m a (i + j) = Mem.bytes d m a i ++ Mem.bytes d m (a + i) j := by
  induction i generalizing a with
  | zero => simp [Mem.bytes]
  | succ i ih =>
    rw [Nat.succ_add, Mem.bytes, ih, Mem.bytes]
    simp [Nat.add_assoc, Nat.add_comm 1 i]

theorem Mem.bytes_succ_end (d : Nat) (m : Mem) (n : Nat) :
    Mem.bytes d m 0 (n + 1) = Mem.bytes d m 0 n ++ [Mem.byteAt d m n] := by
  rw [Mem.bytes_add]
  simp [Mem.bytes]

/-- Part of a section sent: as many micro-steps as bytes. -/
theorem runSeq_sending_part (b : BufName) (m n : Nat) (q : List Byte) (k k' : Sink) (s : State)
    (hb : s.flags.busy = true) (hy : s.drv.yields = []) (h : m < Buffers.len b s.buf) (hk : Sink.spend m k = some k') :
    runSeq (n + m) (sending b 0 q k s) =
      runSeq n (sending b m (q ++ Mem.bytes s.drv.draws (Buffers.mem b s.buf) 0 m) k' s) := by
  induction m generalizing n k' with
  | zero =>
    simp only [Sink.spend, Option.some.injEq] at hk
    subst hk
    simp [Mem.bytes]
  | succ m ih =>
    obtain ⟨k1, h1, h2⟩ := Sink.spend_succ hk
    rw [show n + (m + 1) = (n + 1) + m by omega, ih (n + 1) k1 (by omega) h1,
      runSeq_of_step (by simpa using hb) (by simpa using hy) ((microStep_sending b m _ k1 k' s (by omega) h2).trans (if_neg (by omega))),
      Mem.bytes_succ_end, List.append_assoc]

/-- A whole section sent: as many micro-steps as bytes, the last of which ends the phase. -/
theorem runSeq_sending_all (b : BufName) (n : Nat) (q : List Byte) (k k' : Sink) (s : State)
    (hb : s.flags.busy = true) (hy : s.drv.yields = []) (h0 : Buffers.len b s.buf ≠ 0)
    (hk : Sink.spend (Buffers.len b s.buf) k = some k') :
    runSeq (n + Buffers.len b s.buf) (sending b 0 q k s) =
      runSeq n (nextSend (laterSections b) (sending b (Buffers.len b s.buf)
        (q ++ Mem.bytes s.drv.draws (Buffers.mem b s.buf) 0 (Buffers.len b s.buf)) k' s)) := by
  obtain ⟨m, hm⟩ : ∃ m, Buffers.len b s.buf = m + 1 := ⟨Buffers.len b s.buf - 1, by omega⟩
  rw [hm] at hk ⊢
  obtain ⟨k1, h1, h2⟩ := Sink.spend_succ hk
  rw [show n + (m + 1) = (n + 1) + m by omega, runSeq_sending_part b m (n + 1) q k k1 s hb hy (by omega) h1,
    runSeq_of_step (by simpa using hb) (by simpa using hy) ((microStep_sending b m _ k1 k' s (by omega) h2).trans (if_pos (by omega))),
    Mem.bytes_succ_end, List.append_assoc]

end Sys2Proof.Machine
end

