-- ==== Sys2Proof/Laws/Header.lean ====
section
/-! SUPPORT. The header in `HDRBUF` as 24 bytes: its fields, what a decode makes of them, and what an encode builds. -/

namespace Sys2Proof.Machine

theorem Mem.bytes_slice (d : Nat) (m : Mem) (N off n : Nat) (h : off + n ≤ N) :
    ((Mem.bytes d m 0 N).drop off).take n = Mem.bytes d m off n := by
  obtain ⟨k, rfl⟩ : ∃ k, N = off + n + k := ⟨N - (off + n), by omega⟩
  rw [Mem.bytes_add, Mem.bytes_add]
  simp only [Nat.zero_add, List.append_assoc]
  rw [List.drop_append_of_le_length (by simp), List.drop_eq_nil_of_le (by simp), List.nil_append,
    List.take_append_of_le_length (by simp), List.take_of_length_le (by simp)]

theorem headerField_eq (s : State) {off n : Nat} (h : off + n ≤ 24) : headerField s off n = fieldAt (hdrBytes s) off n := by
  rw [headerField, fieldAt, hdrBytes, bufferBytes, Mem.bytes_slice]
  · rfl
  · exact h

theorem headerByte_eq (s : State) {off : Nat} (h : off < 24) : headerByte s off = byteOf (hdrBytes s) off := by
  have h' : off < Buffers.len .hdr s.buf := h
  rw [headerByte, byteOf, hdrBytes, bufferBytes, List.getD_eq_getElem?_getD, Mem.bytes_getElem?, if_pos h']
  simp [Buffers.mem]

theorem fieldAt_lt (bs : List Byte) (off n : Nat) : fieldAt bs off n < 256 ^ n := by
  refine Nat.lt_of_lt_of_le (ofBe_lt _) (Nat.pow_le_pow_right (by decide) ?_)
  simp

theorem hdrBytes_of (s : State) (bs : List Byte) (h : s.buf.hdr = Mem.ofBytes 0 bs) (hl : bs.length = 24) :
    hdrBytes s = bs := by
  have := Mem.bytes_ofBytes s.drv.draws bs
  rw [hl] at this
  simp only [hdrBytes, bufferBytes, Buffers.mem, h]
  exact this

theorem declaredTotal_eq (s : State) : declaredTotal s = fieldAt (hdrBytes s) 8 4 := headerField_eq s (by decide)
theorem declaredKey_eq (s : State) : declaredKey s = fieldAt (hdrBytes s) 2 2 := headerField_eq s (by decide)
theorem declaredExtras_eq (s : State) : declaredExtras s = (byteOf (hdrBytes s) 4).toNat := by
  rw [declaredExtras, headerByte_eq s (by decide)]

theorem decodedRegs_eq (magic : Byte) (s : State) (hm : magic = Config.reqMagic ∨ magic = Config.rspMagic) :
    decodedRegs magic s = regsFrom magic (hdrBytes s) s.h := by
  have h4 : fieldAt (hdrBytes s) 8 4 < 2 ^ 32 := fieldAt_lt _ 8 4
  have h2 : fieldAt (hdrBytes s) 2 2 < 2 ^ 16 := fieldAt_lt _ 2 2
  have hne : ¬ Config.rspMagic = Config.reqMagic := by decide
  rcases hm with rfl | rfl
  · simp only [regsFrom, if_true, requestRegs, decodedRegs, reqHeaderOf, declaredTotal_eq, declaredKey_eq,
      declaredExtras_eq, headerByte_eq s (show 1 < 24 by decide), headerByte_eq s (show 4 < 24 by decide),
      headerField_eq s (show 6 + 2 ≤ 24 by decide), headerField_eq s (show 12 + 4 ≤ 24 by decide),
      headerField_eq s (show 16 + 8 ≤ 24 by decide), BitVec.toNat_ofNat, Nat.mod_eq_of_lt h4, Nat.mod_eq_of_lt h2]
  · simp only [regsFrom, if_neg hne, responseRegs, decodedRegs, rspHeaderOf, declaredTotal_eq, declaredKey_eq,
      declaredExtras_eq, headerByte_eq s (show 1 < 24 by decide), headerByte_eq s (show 4 < 24 by decide),
      headerField_eq s (show 6 + 2 ≤ 24 by decide), headerField_eq s (show 12 + 4 ≤ 24 by decide),
      headerField_eq s (show 16 + 8 ≤ 24 by decide), BitVec.toNat_ofNat, Nat.mod_eq_of_lt h4, Nat.mod_eq_of_lt h2]

theorem magicOf_cases (c : Byte) : magicOf c = Config.reqMagic ∨ magicOf c = Config.rspMagic := by
  unfold magicOf; split <;> simp

/-- `Decode(M)` in terms of the 24 bytes. -/
theorem decodeStep_eq (s : State) :
    decodeStep s =
      if byteOf (hdrBytes s) 0 ≠ magicOf s.cmdreg then raise .magicMismatch ((byteOf (hdrBytes s) 0).setWidth 32) s
      else if fieldAt (hdrBytes s) 8 4 < fieldAt (hdrBytes s) 2 2 + (byteOf (hdrBytes s) 4).toNat then
        raise .malformedLength (BitVec.ofNat 32 (fieldAt (hdrBytes s) 8 4)) s
      else
        let s1 := (s.setH (regsFrom (magicOf s.cmdreg) (hdrBytes s) s.h)).setFlags { s.flags with hv := true }
        if isReceive s.cmdreg then enter .check s1 else finish s1 := by
  rw [decodeStep, headerByte_eq s (by decide), declaredTotal_eq, declaredKey_eq, declaredExtras_eq,
    decodedRegs_eq _ s (magicOf_cases _)]

/-! The first 24 bytes of a stream are all that a header is read from. -/

theorem byteOf_take {i n : Nat} (bs : List Byte) (h : i < n) : byteOf (bs.take n) i = byteOf bs i := by
  simp [byteOf, h]

theorem fieldAt_take {i j n : Nat} (bs : List Byte) (h : i + j ≤ n) : fieldAt (bs.take n) i j = fieldAt bs i j := by
  simp only [fieldAt, List.drop_take, List.take_take]
  congr 2
  omega

theorem reqHeaderOf_take (bs : List Byte) : reqHeaderOf (bs.take 24) = reqHeaderOf bs := by
  simp [reqHeaderOf, byteOf_take, fieldAt_take]

theorem rspHeaderOf_take (bs : List Byte) : rspHeaderOf (bs.take 24) = rspHeaderOf bs := by
  simp [rspHeaderOf, byteOf_take, fieldAt_take]

theorem regsFrom_take (magic : Byte) (bs : List Byte) (h : HeaderRegs) :
    regsFrom magic (bs.take 24) h = regsFrom magic bs h := by
  simp [regsFrom, reqHeaderOf_take, rspHeaderOf_take]

theorem regsFrom_lengths (magic : Byte) (bs : List Byte) (h : HeaderRegs) (hl : ¬ fieldAt bs 8 4 < fieldAt bs 2 2 + (byteOf bs 4).toNat) :
    (regsFrom magic bs h).totLen.toNat = (regsFrom magic bs h).extLen.toNat + (regsFrom magic bs h).keyLen.toNat + (regsFrom magic bs h).valLen.toNat := by
  have h4 : fieldAt bs 8 4 < 2 ^ 32 := fieldAt_lt _ 8 4
  have h2 : fieldAt bs 2 2 < 2 ^ 16 := fieldAt_lt _ 2 2
  have e : fieldAt bs 8 4 - fieldAt bs 2 2 - (byteOf bs 4).toNat < 2 ^ 32 := by omega
  unfold regsFrom
  split <;>
  · simp only [requestRegs, responseRegs, reqHeaderOf, rspHeaderOf, BitVec.toNat_ofNat, Nat.mod_eq_of_lt h4, Nat.mod_eq_of_lt h2, Nat.mod_eq_of_lt e]
    omega

theorem regsFrom_magic (magic : Byte) (hm : magic = Config.reqMagic ∨ magic = Config.rspMagic) (bs : List Byte) (h : HeaderRegs) :
    (regsFrom magic bs h).magic = magic := by
  rcases hm with rfl | rfl <;> rfl

theorem headerBytes_length (magic : Byte) (s : State) : (headerBytes magic s).length = 24 := by
  simp only [headerBytes]; split <;> simp [encodeReqHeader, encodeRspHeader]

theorem beBytes_mod (n v : Nat) : beBytes n (v % 256 ^ n) = beBytes n v := by
  have h := beBytes_ofBe (beBytes n v)
  rwa [beBytes_length, ofBe_beBytes] at h

theorem encodedHeader_eq (magic : Byte) (s : State) (hm : magic = Config.reqMagic ∨ magic = Config.rspMagic) :
    encodedHeader magic s = Mem.ofBytes 0 (headerBytes magic s) := by
  have hw : ∀ (a : Nat) (bs cs : List Byte), a = bs.length →
      Mem.writeAll (Mem.ofBytes 0 bs) a cs = Mem.ofBytes 0 (bs ++ cs) := by
    intro a bs cs h; subst h; simpa using Mem.writeAll_ofBytes_end 0 bs cs
  simp only [encodedHeader]
  rw [show ([] : Mem) = Mem.ofBytes 0 [] from rfl]
  rw [hw 0 [] _ rfl, hw 1 _ _ (by simp), hw 2 _ _ (by simp), hw 4 _ _ (by simp), hw 5 _ _ (by simp), hw 6 _ _ (by simp),
    hw 8 _ _ (by simp), hw 12 _ _ (by simp), hw 16 _ _ (by simp)]
  have htn : beBytes 4 (Buffers.total s.buf % 4294967296) = beBytes 4 (Buffers.total s.buf) := beBytes_mod 4 _
  congr 1
  rcases hm with rfl | rfl
  · simp [headerBytes, encodeReqHeader, requestHeader, htn]
  · have hne : ¬ Config.rspMagic = Config.reqMagic := by decide
    simp [headerBytes, hne, encodeRspHeader, responseHeader, htn]

theorem hdrBytes_headerBuilt (magic : Byte) (s : State) : bufferBytes .hdr (headerBuilt magic s) = headerBytes magic s := by
  have hl : (headerBytes magic s).length = 24 := by
    simp only [headerBytes]; split <;> simp [encodeReqHeader, encodeRspHeader]
  exact hdrBytes_of (headerBuilt magic s) _ rfl hl

end Sys2Proof.Machine
end

