-- ==== Sys2Proof/Laws/Invariant.lean ====
section
/-! SUPPORT. The invariants under each shared operation: `raise`, a refusal, `finish`, `enter`, acceptance, each micro-step, a host access. -/

namespace Sys2Proof.Machine

theorem Inv.setEnv {s : State} (h : Inv s) (e : Env) : Inv (s.setEnv e) :=
  ⟨h.1, h.2, h.3, h.4, h.5, h.6, h.7, h.8, h.9, h.10, h.11, h.12, h.13, h.14, h.15, h.16, h.17, h.18, h.19, h.20, h.21,
   h.22, h.23, h.24, h.25, h.26, h.27, h.28, h.29, h.30⟩

theorem Inv.setDrv {s : State} (h : Inv s) (e : Driver) : Inv (s.setDrv e) :=
  ⟨h.1, h.2, h.3, h.4, h.5, h.6, h.7, h.8, h.9, h.10, h.11, h.12, h.13, h.14, h.15, h.16, h.17, h.18, h.19, h.20, h.21,
   h.22, h.23, h.24, h.25, h.26, h.27, h.28, h.29, h.30⟩

theorem sticky_or_zero (x : Byte) (c : Cause) (h : x &&& 0x91#8 = 0) : (x ||| c.stickyBit) &&& 0x91#8 = 0 := by
  revert x; cases c <;> decide
theorem sticky_or_self (x : Byte) (c : Cause) : (x ||| c.stickyBit) &&& c.stickyBit = c.stickyBit := by
  revert x; cases c <;> decide
theorem sticky_or_eight (x : Byte) (c : Cause) (h : x &&& 0x08#8 = 0x08#8) : (x ||| c.stickyBit) &&& 0x08#8 = 0x08#8 := by
  revert x; cases c <;> decide
theorem sticky_transport (x : Byte) (c : Cause) (h : c.isTransport = true) : (x ||| c.stickyBit) &&& 0x08#8 = 0x08#8 := by
  revert x; cases c <;> first | (exact absurd h (by decide)) | decide

/-- The invariants of a state with no command in flight. -/
theorem Inv.ofIdle {t : State} (hp : t.seq = ⟨.idle, 0⟩) (hb : t.flags.busy = false) (hq : t.txq = [])
    (c1 : t.maxbody.toNat ≤ Config.valcap) (c2 : t.buf.valLen.toNat ≤ Config.valcap)
    (c3 : ∀ b, Mem.wf (Buffers.mem b t.buf)) (c4 : ∀ b, ∀ x ∈ Buffers.mem b t.buf, x.1 < Buffers.len b t.buf)
    (c5 : t.h.magic = 0 ∨ t.h.magic = Config.reqMagic ∨ t.h.magic = Config.rspMagic)
    (c6 : t.h.totLen.toNat = t.h.extLen.toNat + t.h.keyLen.toNat + t.h.valLen.toNat)
    (c7 : t.errs.err.cmd = t.cmdreg) (c8 : t.errs.err.cause = .none → t.errs.info = 0)
    (c9 : canEndWith t.errs.err.cmd t.errs.err.cause t.errs.err.phase = true)
    (c10 : t.errs.sticky &&& t.errs.err.cause.stickyBit = t.errs.err.cause.stickyBit)
    (c11 : t.errs.sticky &&& 0x91#8 = 0) (c12 : t.flags.dead = true → t.errs.sticky &&& 0x08#8 = 0x08#8)
    (c13 : t.flags.hl = true → Mem.definedTo Config.headerLen t.buf.hdr) (c14 : t.flags.hv = true → t.flags.hl = true)
    (c15 : t.flags.fok = true → ∀ b, b ≠ .hdr → sectionComplete b t.buf)
    (c16 : t.flags.dead = false → ∀ b, b ≠ .hdr → sectionComplete b t.buf) : Inv t := by
  have hp' : t.seq.phase = .idle := by rw [hp]
  constructor <;> try assumption
  · simp [hb, hp']
  · simp [hb]
  · rw [hp]; rfl
  · intro _; exact hq
  · rw [hp']; rfl
  · simp [hb]
  · simp [hb]
  · simp [hp']
  · simp [hp']
  · simp [hp']
  · simp [hp', isFrameRx]
  · intro h _; exact c16 h
  · simp [hp', isFrameRx]
  · intro b h; rw [hp'] at h; cases b <;> cases h
  · intro b c h; rw [hp'] at h; cases b <;> cases h

theorem canEnd_complete {code : Byte} {c : Cause} {p : Phase} (h : canEndWith code c p = true) :
    c.isTransport = true ∨ isFrameRx p = false := by
  cases c <;> cases p <;> first | (left; rfl) | (right; rfl) | (simp [canEndWith] at h)

theorem Inv.raise {s : State} (hs : Inv s) {c : Cause} (i : Word) (hne : c ≠ .none)
    (hc : canEndWith s.cmdreg c s.seq.phase = true) (hq : c.isTransport = false → s.txq = []) : Inv (raise c i s) := by
  obtain ⟨e1, e2, e3, e4, e5, e6, e7, e8, -⟩ := raise_fields c i s
  apply Inv.ofIdle
  · exact e6
  · rw [e4]
  · rw [e8]; split
    · rfl
    · next h => exact hq (by simpa using h)
  · rw [e3]; exact hs.maxbody_le
  · rw [e2]; exact hs.valLen_le
  · rw [e2]; exact hs.mem_wf
  · rw [e2]; exact hs.mem_bound
  · rw [e1]; exact hs.magic
  · rw [e1]; exact hs.lengths
  · rw [e5, e7]
  · rw [e5]; intro h; exact absurd h hne
  · rw [e5]; exact hc
  · rw [e5]; exact sticky_or_self _ _
  · rw [e5]; exact sticky_or_zero _ _ hs.sticky_zero
  · rw [e4, e5]
    intro h
    simp only [Bool.or_eq_true] at h
    rcases h with h | h
    · exact sticky_transport _ _ h
    · exact sticky_or_eight _ _ (hs.dead_sticky h)
  · rw [e4, e2]; exact hs.hl_defined
  · rw [e4]; exact hs.hv_hl
  · rw [e4, e2]; exact hs.fok_complete
  · rw [e4, e2]
    intro h
    simp only [Bool.or_eq_false_iff] at h
    rcases canEnd_complete hc with h' | h'
    · rw [h.1] at h'; cases h'
    · exact hs.complete h.2 h'

theorem Inv.txq_of_not_tx {s : State} (hs : Inv s) (h : isTx s.seq.phase = false) : s.txq = [] := hs.staged h

theorem Inv.idle_of {s : State} (hs : Inv s) (h : s.flags.busy = false) : s.seq = ⟨.idle, 0⟩ ∧ s.txq = [] := by
  have hp : s.seq.phase = .idle := by
    by_contra hne; have := hs.busy_iff.mpr hne; rw [h] at this; cases this
  have hc := hs.count
  rw [hp] at hc
  refine ⟨?_, hs.staged (by rw [hp]; rfl)⟩
  simp only [movedBuffer] at hc
  rw [← hp, ← hc]

theorem Mem.definedTo_ofBytes {bs : List Byte} {n : Nat} (h : n ≤ bs.length) : Mem.definedTo n (Mem.ofBytes 0 bs) := by
  intro a ha
  rw [Mem.read_ofBytes]
  simp [show a < bs.length by omega]

theorem Mem.definedTo_write {m : Mem} {n : Nat} (h : Mem.definedTo n m) (x : Byte) : Mem.definedTo (n + 1) (Mem.write m n x) := by
  intro a ha
  by_cases hn : a = n
  · subst hn; simp
  · rw [Mem.read_write_other _ _ hn]; exact h a (by omega)

/-- Refusals and dead links. -/
theorem Inv.notStarted {s t : State} (hs : Inv s) (hb : s.flags.busy = false) (c : Cause) (code : Byte) (arg : Word) (hne : c ≠ .none)
    (hc : canEndWith code c .idle = true)
    (ht : t = ((s.setCmdreg code).setErrs ⟨⟨c, .idle, code⟩, arg, s.errs.sticky ||| c.stickyBit⟩).setFlags { s.flags with done := true }) :
    Inv t := by
  obtain ⟨hseq, hq⟩ := hs.idle_of hb
  have hph : s.seq.phase = .idle := by rw [hseq]
  subst ht
  apply Inv.ofIdle
  · exact hseq
  · exact hb
  · exact hq
  · exact hs.maxbody_le
  · exact hs.valLen_le
  · exact hs.mem_wf
  · exact hs.mem_bound
  · exact hs.magic
  · exact hs.lengths
  · rfl
  · exact fun h => absurd h hne
  · exact hc
  · exact sticky_or_self _ _
  · exact sticky_or_zero _ _ hs.sticky_zero
  · exact fun h => sticky_or_eight _ _ (hs.dead_sticky h)
  · exact hs.hl_defined
  · exact hs.hv_hl
  · exact hs.fok_complete
  · exact fun h => hs.complete h (by rw [hph]; rfl)


theorem Buffers.len_store (b c : BufName) (a : Nat) (x : Byte) (B : Buffers) :
    Buffers.len c (Buffers.store b a x B) = Buffers.len c B := by simp [Buffers.store]

theorem Buffers.mem_store_same (b : BufName) (a : Nat) (x : Byte) (B : Buffers) :
    Buffers.mem b (Buffers.store b a x B) = Mem.write (Buffers.mem b B) a x := by simp [Buffers.store]

theorem Buffers.mem_store_other {b c : BufName} (h : c ≠ b) (a : Nat) (x : Byte) (B : Buffers) :
    Buffers.mem c (Buffers.store b a x B) = Buffers.mem c B := by simp [Buffers.store, Buffers.mem_setMem_other h]

theorem Mem.definedTo_mono_write {m : Mem} {n : Nat} (h : Mem.definedTo n m) (a : Nat) (x : Byte) : Mem.definedTo n (Mem.write m a x) := by
  intro i hi
  by_cases hn : i = a
  · subst hn; simp
  · rw [Mem.read_write_other _ _ hn]; exact h i hi

theorem definedTo_store {c : BufName} {n : Nat} {B : Buffers} (h : Mem.definedTo n (Buffers.mem c B)) (b : BufName) (a : Nat) (x : Byte) :
    Mem.definedTo n (Buffers.mem c (Buffers.store b a x B)) := by
  by_cases hcb : c = b
  · subst hcb; rw [Buffers.mem_store_same]; exact Mem.definedTo_mono_write h a x
  · rw [Buffers.mem_store_other hcb]; exact h

theorem sectionComplete_store {c : BufName} {B : Buffers} (h : sectionComplete c B) (b : BufName) (a : Nat) (x : Byte) :
    sectionComplete c (Buffers.store b a x B) := by
  unfold sectionComplete; rw [Buffers.len_store]; exact definedTo_store h b a x

theorem store_wf {B : Buffers} (h : ∀ b, Mem.wf (Buffers.mem b B)) (b : BufName) (a : Nat) (x : Byte) :
    ∀ c, Mem.wf (Buffers.mem c (Buffers.store b a x B)) := by
  intro c
  by_cases hcb : c = b
  · subst hcb; rw [Buffers.mem_store_same]; exact Mem.wf_write _ _ (h c)
  · rw [Buffers.mem_store_other hcb]; exact h c

theorem store_bound {B : Buffers} (h : ∀ b, ∀ x ∈ Buffers.mem b B, x.1 < Buffers.len b B) (b : BufName) {a : Nat}
    (ha : a < Buffers.len b B) (x : Byte) :
    ∀ c, ∀ y ∈ Buffers.mem c (Buffers.store b a x B), y.1 < Buffers.len c (Buffers.store b a x B) := by
  intro c y hy
  rw [Buffers.len_store]
  by_cases hcb : c = b
  · subst hcb; rw [Buffers.mem_store_same] at hy
    rcases Mem.mem_write hy with rfl | hy
    · exact ha
    · exact h c y hy
  · rw [Buffers.mem_store_other hcb] at hy; exact h c y hy

theorem store_valLen (b : BufName) (a : Nat) (x : Byte) (B : Buffers) : (Buffers.store b a x B).valLen = B.valLen := by cases b <;> rfl
theorem store_keyLen (b : BufName) (a : Nat) (x : Byte) (B : Buffers) : (Buffers.store b a x B).keyLen = B.keyLen := by cases b <;> rfl
theorem store_extLen (b : BufName) (a : Nat) (x : Byte) (B : Buffers) : (Buffers.store b a x B).extLen = B.extLen := by cases b <;> rfl

theorem rxPhase_inj {b c : BufName} (h : rxPhase b = rxPhase c) : b = c := by cases b <;> cases c <;> first | rfl | cases h
theorem rxPhase_moved (b : BufName) : movedBuffer (rxPhase b) = some b := by cases b <;> rfl
theorem txPhase_moved (b : BufName) : movedBuffer (txPhase b) = some b := by cases b <;> rfl

/-- A byte in the middle of a section. -/
theorem Inv.receivedPart {s : State} (hs : Inv s) {b : BufName} (hp : s.seq.phase = rxPhase b) (x : Byte)
    (hn : s.seq.cnt.toNat + 1 < Buffers.len b s.buf) :
    Inv ((s.setBuf (Buffers.store b s.seq.cnt.toNat x s.buf)).setSeq ⟨s.seq.phase, s.seq.cnt + 1⟩) := by
  have hlen := Buffers.len_lt b s.buf
  have hc1 : (s.seq.cnt + 1).toNat = s.seq.cnt.toNat + 1 := by
    rw [BitVec.toNat_add]; apply Nat.mod_eq_of_lt; show _ + 1 < _; omega
  exact { hs with
    valLen_le := by show (Buffers.store b _ x s.buf).valLen.toNat ≤ _; rw [store_valLen]; exact hs.valLen_le
    mem_wf := store_wf hs.mem_wf b _ x
    mem_bound := store_bound hs.mem_bound b (by omega) x
    count := by
      show match movedBuffer s.seq.phase with | some c => (s.seq.cnt + 1).toNat < Buffers.len c (Buffers.store b _ x s.buf) | none => _
      rw [hp, rxPhase_moved]
      show (s.seq.cnt + 1).toNat < Buffers.len b (Buffers.store b _ x s.buf)
      rw [hc1, Buffers.len_store]; exact hn
    hl_defined := fun h => definedTo_store (c := .hdr) (hs.hl_defined h) b _ x
    fok_complete := fun h c hc => sectionComplete_store (hs.fok_complete h c hc) b _ x
    complete := fun h h' c hc => sectionComplete_store (hs.complete h h' c hc) b _ x
    allocated := by
      intro h
      show (Buffers.store b _ x s.buf).extLen = _ ∧ (Buffers.store b _ x s.buf).keyLen = _ ∧ (Buffers.store b _ x s.buf).valLen = _
      rw [store_extLen, store_keyLen, store_valLen]; exact hs.allocated h
    received := by
      intro c hc
      have hcb : c = b := rxPhase_inj (hc.symm.trans hp)
      subst hcb
      show Mem.definedTo (s.seq.cnt + 1).toNat (Buffers.mem c (Buffers.store c _ x s.buf))
      rw [hc1, Buffers.mem_store_same]
      exact Mem.definedTo_write (hs.received c hp) x
    earlier := fun b' c h1 h2 h3 => sectionComplete_store (hs.earlier b' c h1 h2 h3) b _ x }

/-- Between two sections of a frame. -/
structure Between (l : List BufName) (u : State) : Prop where
  maxbody_le : u.maxbody.toNat ≤ Config.valcap
  valLen_le : u.buf.valLen.toNat ≤ Config.valcap
  mem_wf : ∀ b, Mem.wf (Buffers.mem b u.buf)
  mem_bound : ∀ b, ∀ x ∈ Buffers.mem b u.buf, x.1 < Buffers.len b u.buf
  magic : u.h.magic = 0 ∨ u.h.magic = Config.reqMagic ∨ u.h.magic = Config.rspMagic
  lengths : u.h.totLen.toNat = u.h.extLen.toNat + u.h.keyLen.toNat + u.h.valLen.toNat
  busy : u.flags.busy = true
  done : u.flags.done = false
  hl : u.flags.hl = true
  hv : u.flags.hv = false
  fok : u.flags.fok = false
  dead : u.flags.dead = false
  txq : u.txq = []
  cmd : passesThrough u.cmdreg .check = true
  err_cmd : u.errs.err.cmd = u.cmdreg
  err_none : u.errs.err.cause = .none
  err_info : u.errs.info = 0
  err_table : canEndWith u.errs.err.cmd u.errs.err.cause u.errs.err.phase = true
  sticky_zero : u.errs.sticky &&& 0x91#8 = 0
  hdr : Mem.definedTo Config.headerLen u.buf.hdr
  allocated : u.buf.extLen = u.h.extLen ∧ u.buf.keyLen = u.h.keyLen ∧ u.buf.valLen = u.h.valLen
  before : ∀ c, c ≠ .hdr → c ∉ l → sectionComplete c u.buf

theorem sectionComplete_zero {b : BufName} {B : Buffers} (h : Buffers.len b B = 0) : sectionComplete b B := by
  intro a ha; rw [h] at ha; omega

theorem Between.done_inv {u : State} (hu : Between [] u) : Inv (finish (u.setFlags { u.flags with fok := true })) := by
  apply Inv.ofIdle
  · rfl
  · rfl
  · exact hu.txq
  · exact hu.maxbody_le
  · exact hu.valLen_le
  · exact hu.mem_wf
  · exact hu.mem_bound
  · exact hu.magic
  · exact hu.lengths
  · exact hu.err_cmd
  · exact fun _ => hu.err_info
  · exact hu.err_table
  · show _ &&& u.errs.err.cause.stickyBit = u.errs.err.cause.stickyBit
    rw [hu.err_none]; simp [Cause.stickyBit]
  · exact hu.sticky_zero
  · intro h; have := hu.dead; rw [show u.flags.dead = true from h] at this; cases this
  · exact fun _ => hu.hdr
  · intro h; exact hu.hl
  · exact fun _ b hb => hu.before b hb (by simp)
  · exact fun _ b hb => hu.before b hb (by simp)

theorem Between.enter_inv {b : BufName} {u : State} (hb : b ≠ .hdr) (hu : Between (b :: laterSections b) u) (h0 : Buffers.len b u.buf ≠ 0) :
    Inv (enter (rxPhase b) u) := by
  have hp : (enter (rxPhase b) u).seq = ⟨rxPhase b, 0⟩ := by cases b <;> rfl
  have hf : (enter (rxPhase b) u).flags = u.flags := by cases b <;> first | rfl | exact absurd rfl hb
  have hB : (enter (rxPhase b) u).buf = u.buf := by cases b <;> first | rfl | exact absurd rfl hb
  have hh : (enter (rxPhase b) u).h = u.h := by cases b <;> rfl
  have hm : (enter (rxPhase b) u).maxbody = u.maxbody := by cases b <;> rfl
  have he : (enter (rxPhase b) u).errs = u.errs := by cases b <;> rfl
  have hc : (enter (rxPhase b) u).cmdreg = u.cmdreg := by cases b <;> rfl
  have ht : (enter (rxPhase b) u).txq = u.txq := by cases b <;> rfl
  have hni : rxPhase b ≠ .idle := by cases b <;> decide
  have hfr : isFrameRx (rxPhase b) = true := by cases b <;> first | rfl | exact absurd rfl hb
  constructor <;> simp only [hp, hf, hB, hh, hm, he, hc, ht]
  · exact hu.maxbody_le
  · exact hu.valLen_le
  · exact hu.mem_wf
  · exact hu.mem_bound
  · exact hu.magic
  · exact hu.lengths
  · simp [hu.busy, hni]
  · exact fun _ => hu.done
  · rw [rxPhase_moved]; show 0 < _; omega
  · exact fun _ => hu.txq
  · have := hu.cmd; cases b <;> first | exact absurd rfl hb | exact this
  · exact fun _ _ => hu.dead
  · exact hu.err_cmd
  · exact fun _ => hu.err_none
  · exact fun _ => hu.err_info
  · exact hu.err_table
  · rw [hu.err_none]; simp [Cause.stickyBit]
  · exact hu.sticky_zero
  · simp [hu.dead]
  · exact fun _ => hu.hdr
  · exact fun _ => hu.hl
  · intro h; cases b <;> first | exact absurd rfl hb | cases h
  · exact fun _ _ _ => hu.hl
  · simp [hu.hv]
  · exact fun _ => hu.fok
  · simp [hu.fok]
  · intro _ h; rw [hfr] at h; cases h
  · exact fun _ => hu.allocated
  · intro c hcp a ha; simp at ha
  · intro b' c h1 h2 h3
    have : b = b' := rxPhase_inj h1
    subst this
    apply hu.before c h3
    revert h2
    cases b <;> cases c <;> decide

theorem Between.next_inv {b : BufName} (hb : b ≠ .hdr) (ih : ∀ u, Between (laterSections b) u → Inv (nextRecv (laterSections b) u))
    (u : State) (hu : Between (b :: laterSections b) u) : Inv (nextRecv (b :: laterSections b) u) := by
  simp only [nextRecv]
  split
  · next h0 =>
    apply ih
    refine ⟨hu.1, hu.2, hu.3, hu.4, hu.5, hu.6, hu.7, hu.8, hu.9, hu.10, hu.11, hu.12, hu.13, hu.14, hu.15, hu.16, hu.17, hu.18, hu.19, hu.20, hu.21, ?_⟩
    intro c hc hcl
    by_cases hcb : c = b
    · subst hcb; exact sectionComplete_zero h0
    · exact hu.before c hc (by simp [hcb, hcl])
  · next h0 => exact hu.enter_inv hb h0

theorem nextRecv_inv_val (u : State) (hu : Between [] u) : Inv (nextRecv [] u) := hu.done_inv
theorem nextRecv_inv_key : ∀ u, Between [.val] u → Inv (nextRecv [.val] u) := Between.next_inv (b := .val) (by decide) nextRecv_inv_val
theorem nextRecv_inv_ext : ∀ u, Between [.key, .val] u → Inv (nextRecv [.key, .val] u) := Between.next_inv (b := .key) (by decide) nextRecv_inv_key
theorem nextRecv_inv : ∀ u, Between [.ext, .key, .val] u → Inv (nextRecv [.ext, .key, .val] u) := Between.next_inv (b := .ext) (by decide) nextRecv_inv_ext

theorem nextRecv_inv_later (b : BufName) (u : State) (hb : b ≠ .hdr) (hu : Between (laterSections b) u) : Inv (nextRecv (laterSections b) u) := by
  cases b
  · exact absurd rfl hb
  · exact nextRecv_inv_ext u hu
  · exact nextRecv_inv_key u hu
  · exact nextRecv_inv_val u hu

theorem Inv.busy_of {s : State} (hs : Inv s) (h : s.seq.phase ≠ .idle) : s.flags.busy = true := hs.busy_iff.mpr h

theorem passes_section {b : BufName} (hb : b ≠ .hdr) (c : Byte) : passesThrough c (rxPhase b) = passesThrough c .check := by
  cases b <;> first | rfl | exact absurd rfl hb

theorem passes_check_stream {c : Byte} (h : passesThrough c .check = true) : isStream c = true := by
  simp only [passesThrough, isStream, decide_eq_true_eq] at *; tauto

/-- The last byte of a section. -/
theorem Inv.receivedLast {s : State} (hs : Inv s) {b : BufName} (hb : b ≠ .hdr) (hp : s.seq.phase = rxPhase b) (x : Byte)
    (hn : s.seq.cnt.toNat + 1 = Buffers.len b s.buf) :
    Inv (nextRecv (laterSections b) ((s.setBuf (Buffers.store b s.seq.cnt.toNat x s.buf)).setSeq ⟨s.seq.phase, s.seq.cnt + 1⟩)) := by
  have hni : s.seq.phase ≠ .idle := by rw [hp]; cases b <;> decide
  have hfr : isFrameRx s.seq.phase = true := by rw [hp]; cases b <;> first | rfl | exact absurd rfl hb
  have hbusy := hs.busy_of hni
  have hcmd : passesThrough s.cmdreg .check = true := by rw [← passes_section hb, ← hp]; exact hs.command
  apply nextRecv_inv_later b _ hb
  exact {
    maxbody_le := hs.maxbody_le
    valLen_le := by show (Buffers.store b _ x s.buf).valLen.toNat ≤ _; rw [store_valLen]; exact hs.valLen_le
    mem_wf := store_wf hs.mem_wf b _ x
    mem_bound := store_bound hs.mem_bound b (by omega) x
    magic := hs.magic
    lengths := hs.lengths
    busy := hbusy
    done := hs.not_done hbusy
    hl := hs.hl_later hni (by rw [hp]; cases b <;> first | decide | exact absurd rfl hb) (by rw [hp]; cases b <;> decide)
    hv := by
      by_contra h
      have := hs.hv_phase (by simpa using h)
      rw [hp] at this; revert this; cases b <;> decide
    fok := hs.fok_phase (.inr hfr)
    dead := hs.alive hbusy (passes_check_stream hcmd)
    txq := hs.staged (by rw [hp]; cases b <;> rfl)
    cmd := hcmd
    err_cmd := hs.err_cmd
    err_none := hs.err_busy hbusy
    err_info := hs.err_info (hs.err_busy hbusy)
    err_table := hs.err_table
    sticky_zero := hs.sticky_zero
    hdr := definedTo_store (c := .hdr) (hs.hl_defined (hs.hl_later hni (by rw [hp]; cases b <;> first | decide | exact absurd rfl hb) (by rw [hp]; cases b <;> decide))) b _ x
    allocated := by
      show (Buffers.store b _ x s.buf).extLen = _ ∧ (Buffers.store b _ x s.buf).keyLen = _ ∧ (Buffers.store b _ x s.buf).valLen = _
      rw [store_extLen, store_keyLen, store_valLen]; exact hs.allocated hfr
    before := by
      intro c hc hcl
      by_cases hcb : c = b
      · subst hcb
        show Mem.definedTo (Buffers.len c (Buffers.store c _ x s.buf)) (Buffers.mem c (Buffers.store c _ x s.buf))
        rw [Buffers.len_store, Buffers.mem_store_same, ← hn]
        exact Mem.definedTo_write (hs.received c hp) x
      · exact sectionComplete_store (hs.earlier b c hp (by revert hc hcl hcb hb; cases b <;> cases c <;> decide) hc) b _ x }

theorem Inv.finish_inv {s t : State} (hs : Inv s) (hni : s.seq.phase ≠ .idle) (hq : t.txq = [])
    (hm : t.maxbody = s.maxbody) (hh : t.h.magic = 0 ∨ t.h.magic = Config.reqMagic ∨ t.h.magic = Config.rspMagic)
    (hl : t.h.totLen.toNat = t.h.extLen.toNat + t.h.keyLen.toNat + t.h.valLen.toNat)
    (he : t.errs = s.errs) (hc : t.cmdreg = s.cmdreg) (hd : t.flags.dead = s.flags.dead) (hf : t.flags.fok = s.flags.fok)
    (hfr : isFrameRx s.seq.phase = false)
    (hx : ∀ c, c ≠ .hdr → Buffers.len c t.buf = Buffers.len c s.buf ∧ Buffers.mem c t.buf = Buffers.mem c s.buf)
    (hw : Mem.wf t.buf.hdr) (hbd : ∀ x ∈ t.buf.hdr, x.1 < 24) (hhl : t.flags.hl = true) (hdef : Mem.definedTo Config.headerLen t.buf.hdr) :
    Inv (finish t) := by
  have hbusy := hs.busy_of hni
  have hsc : ∀ c, c ≠ .hdr → sectionComplete c s.buf → sectionComplete c t.buf := by
    intro c hc h; unfold sectionComplete; rw [(hx c hc).1, (hx c hc).2]; exact h
  apply Inv.ofIdle
  · rfl
  · rfl
  · exact hq
  · show t.maxbody.toNat ≤ _; rw [hm]; exact hs.maxbody_le
  · show Buffers.len .val t.buf ≤ _; rw [(hx .val (by decide)).1]; exact hs.valLen_le
  · intro c
    by_cases hc : c = .hdr
    · subst hc; exact hw
    · show Mem.wf (Buffers.mem c t.buf); rw [(hx c hc).2]; exact hs.mem_wf c
  · intro c
    by_cases hc : c = .hdr
    · subst hc; exact hbd
    · show ∀ x ∈ Buffers.mem c t.buf, x.1 < Buffers.len c t.buf
      rw [(hx c hc).1, (hx c hc).2]; exact hs.mem_bound c
  · exact hh
  · exact hl
  · show t.errs.err.cmd = t.cmdreg; rw [he, hc]; exact hs.err_cmd
  · show t.errs.err.cause = _ → t.errs.info = 0; rw [he]; exact hs.err_info
  · show canEndWith t.errs.err.cmd t.errs.err.cause t.errs.err.phase = true; rw [he]; exact hs.err_table
  · show t.errs.sticky &&& t.errs.err.cause.stickyBit = t.errs.err.cause.stickyBit; rw [he]; exact hs.err_sticky
  · show t.errs.sticky &&& _ = _; rw [he]; exact hs.sticky_zero
  · show t.flags.dead = true → t.errs.sticky &&& _ = _; rw [he, hd]; exact hs.dead_sticky
  · exact fun _ => hdef
  · exact fun _ => hhl
  · show t.flags.fok = true → _; rw [hf]; exact fun h b hb => hsc b hb (hs.fok_complete h b hb)
  · show t.flags.dead = false → _; rw [hd]; exact fun h b hb => hsc b hb (hs.complete h hfr b hb)

/-- Going on to a phase that moves no byte, or to `HDR_TX`, from a phase that reads no frame. -/
theorem Inv.enter_inv {s t : State} (hs : Inv s) (hni : s.seq.phase ≠ .idle) (hq : t.txq = [])
    (hm : t.maxbody = s.maxbody) (hh : t.h.magic = 0 ∨ t.h.magic = Config.reqMagic ∨ t.h.magic = Config.rspMagic)
    (hl : t.h.totLen.toNat = t.h.extLen.toNat + t.h.keyLen.toNat + t.h.valLen.toNat)
    (he : t.errs = s.errs) (hc : t.cmdreg = s.cmdreg) (hd : t.flags.dead = s.flags.dead) (hf : t.flags.fok = s.flags.fok ∨ t.flags.fok = false)
    (hfr : isFrameRx s.seq.phase = false)
    (hx : ∀ c, c ≠ .hdr → Buffers.len c t.buf = Buffers.len c s.buf ∧ Buffers.mem c t.buf = Buffers.mem c s.buf)
    (hw : Mem.wf t.buf.hdr) (hbd : ∀ x ∈ t.buf.hdr, x.1 < 24) (hhl : t.flags.hl = true) (hdef : Mem.definedTo Config.headerLen t.buf.hdr)
    (hb : t.flags.busy = true) (hdn : t.flags.done = false) (hhv : t.flags.hv = false)
    (hp : t.seq.phase = .decode ∨ (t.seq.phase = .check ∧ t.flags.fok = false) ∨ t.seq.phase = .hdrTx) (hcnt : t.seq.cnt = 0)
    (hcmd : passesThrough s.cmdreg t.seq.phase = true) :
    Inv t := by
  have hbusy := hs.busy_of hni
  have hsc : ∀ c, c ≠ .hdr → sectionComplete c s.buf → sectionComplete c t.buf := by
    intro c hc h; unfold sectionComplete; rw [(hx c hc).1, (hx c hc).2]; exact h
  have hfr' : isFrameRx t.seq.phase = false := by rcases hp with h | ⟨h, -⟩ | h <;> rw [h] <;> rfl
  have hti : t.seq.phase ≠ .idle := by rcases hp with h | ⟨h, -⟩ | h <;> rw [h] <;> decide
  constructor
  · rw [hm]; exact hs.maxbody_le
  · show Buffers.len .val t.buf ≤ _; rw [(hx .val (by decide)).1]; exact hs.valLen_le
  · intro c
    by_cases hc : c = .hdr
    · subst hc; exact hw
    · rw [(hx c hc).2]; exact hs.mem_wf c
  · intro c
    by_cases hc : c = .hdr
    · subst hc; exact hbd
    · rw [(hx c hc).1, (hx c hc).2]; exact hs.mem_bound c
  · exact hh
  · exact hl
  · simp [hb, hti]
  · exact fun _ => hdn
  · rcases hp with h | ⟨h, -⟩ | h <;> rw [h] <;> simp only [movedBuffer, hcnt]
    · show (0 : Nat) < 24; decide
  · exact fun _ => hq
  · rw [hc]; exact hcmd
  · rw [hc, hd]; exact fun _ h => hs.alive hbusy h
  · rw [he, hc]; exact hs.err_cmd
  · rw [he]; exact fun _ => hs.err_busy hbusy
  · rw [he]; exact hs.err_info
  · rw [he]; exact hs.err_table
  · rw [he]; exact hs.err_sticky
  · rw [he]; exact hs.sticky_zero
  · rw [he, hd]; exact hs.dead_sticky
  · exact fun _ => hdef
  · exact fun _ => hhl
  · intro h; rcases hp with h' | ⟨h', -⟩ | h' <;> rw [h'] at h <;> cases h
  · exact fun _ _ _ => hhl
  · intro h; rw [hhv] at h; cases h
  · intro h; rcases hp with h' | ⟨-, h'⟩ | h'
    · rw [h'] at h; rcases h with h | h <;> cases h
    · exact h'
    · rw [h'] at h; rcases h with h | h <;> cases h
  · intro h; rcases hf with h' | h'
    · exact fun b hb => hsc b hb (hs.fok_complete (h' ▸ h) b hb)
    · rw [h] at h'; cases h'
  · rw [hd]; exact fun h _ b hb => hsc b hb (hs.complete h hfr b hb)
  · intro h; rw [hfr'] at h; cases h
  · intro c h; rcases hp with h' | ⟨h', -⟩ | h' <;> rw [h'] at h <;> cases c <;> cases h
  · intro c _ h; rcases hp with h' | ⟨h', -⟩ | h' <;> rw [h'] at h <;> cases c <;> cases h

theorem received_last {b : BufName} {x : Byte} {s : State} (h : s.seq.cnt.toNat + 1 = Buffers.len b s.buf) :
    Machine.received b x s = endRecv b ((s.setBuf (Buffers.store b s.seq.cnt.toNat x s.buf)).setSeq ⟨s.seq.phase, s.seq.cnt + 1⟩) :=
  if_pos h
theorem received_part {b : BufName} {x : Byte} {s : State} (h : ¬ s.seq.cnt.toNat + 1 = Buffers.len b s.buf) :
    Machine.received b x s = (s.setBuf (Buffers.store b s.seq.cnt.toNat x s.buf)).setSeq ⟨s.seq.phase, s.seq.cnt + 1⟩ :=
  if_neg h

theorem Inv.recvStep_inv {s t : State} (hs : Inv s) {b : BufName} (hp : s.seq.phase = rxPhase b) (h : recvStep b s = some t) : Inv t := by
  have hni : s.seq.phase ≠ .idle := by rw [hp]; cases b <;> decide
  have hbusy := hs.busy_of hni
  have hcnt := hs.count
  rw [hp, rxPhase_moved] at hcnt
  simp only at hcnt
  simp only [recvStep] at h
  split at h
  · next x rest _ =>
    simp only [Option.some.injEq] at h
    subst h
    have hs' : Inv (s.setEnv { s.env with rx := rest }) := hs.setEnv _
    by_cases hn : s.seq.cnt.toNat + 1 = Buffers.len b s.buf
    · rw [received_last (s := s.setEnv { s.env with rx := rest }) hn]
      by_cases hb : b = .hdr
      · subst hb
        have hlen := Buffers.len_lt .hdr s.buf
        have hc1 : (s.seq.cnt + 1).toNat = s.seq.cnt.toNat + 1 := by
          rw [BitVec.toNat_add]; apply Nat.mod_eq_of_lt; show _ + 1 < _; omega
        have hdef : Mem.definedTo Config.headerLen (Mem.write s.buf.hdr s.seq.cnt.toNat x) := by
          rw [show Config.headerLen = s.seq.cnt.toNat + 1 from hn.symm]
          exact Mem.definedTo_write (hs.received .hdr hp) x
        have hw : Mem.wf (Mem.write s.buf.hdr s.seq.cnt.toNat x) := Mem.wf_write _ _ (hs.mem_wf .hdr)
        have hbd : ∀ y ∈ Mem.write s.buf.hdr s.seq.cnt.toNat x, y.1 < 24 := by
          intro y hy
          rcases Mem.mem_write hy with rfl | hy
          · exact hcnt
          · exact hs.mem_bound .hdr y hy
        have hfr : isFrameRx s.seq.phase = false := by rw [hp]; rfl
        have hhv : s.flags.hv = false := by
          by_contra h; have := hs.hv_phase (by simpa using h); rw [hp] at this; revert this; decide
        have hq := hs.staged (by rw [hp]; rfl)
        have hcmd := hs.command
        rw [hp] at hcmd
        simp only [endRecv]
        split
        · next hrec =>
          refine Inv.enter_inv hs hni hq rfl hs.magic hs.lengths rfl rfl rfl (.inl rfl) hfr ?_ hw hbd rfl hdef hbusy (hs.not_done hbusy) rfl (.inl rfl) rfl ?_
          · intro c hc; cases c <;> first | exact absurd rfl hc | exact ⟨rfl, rfl⟩
          · simp only [isReceive, decide_eq_true_eq] at hrec
            show passesThrough s.cmdreg .decode = true
            simp only [passesThrough, decide_eq_true_eq]
            rcases hrec with h | h
            · exact .inr (.inr (.inl h))
            · exact .inr (.inr (.inr h))
        · refine Inv.finish_inv hs hni hq rfl hs.magic hs.lengths rfl rfl rfl rfl hfr ?_ hw hbd rfl hdef
          intro c hc; cases c <;> first | exact absurd rfl hc | exact ⟨rfl, rfl⟩
      · rw [show ∀ s, endRecv b s = nextRecv (laterSections b) s by intro s; cases b <;> first | rfl | exact absurd rfl hb]
        exact hs'.receivedLast hb hp x hn
    · rw [received_part (s := s.setEnv { s.env with rx := rest }) hn]
      exact hs'.receivedPart hp x (by simp only [State.setEnv_seq, State.setEnv_buf]; omega)
  · split at h
    · simp only [Option.some.injEq] at h
      subst h
      refine hs.raise _ (by cases b <;> simp only [shortCause] <;> (try split) <;> decide) ?_ (fun _ => hs.staged (by rw [hp]; cases b <;> rfl))
      have hcmd := hs.command
      rw [hp] at hcmd ⊢
      cases b
      · simp only [shortCause]
        split <;> simpa [canEndWith, rxPhase] using hcmd
      all_goals simpa [shortCause, canEndWith, rxPhase, isFrameRx] using hcmd
    · cases h

theorem Inv.notHv {s : State} (hs : Inv s) (h1 : s.seq.phase ≠ .idle) (h2 : s.seq.phase ≠ .encode) : s.flags.hv = false := by
  by_contra h; rcases hs.hv_phase (by simpa using h) with h | h <;> contradiction

theorem Inv.decodeStep_inv {s : State} (hs : Inv s) (hp : s.seq.phase = .decode) : Inv (decodeStep s) := by
  have hni : s.seq.phase ≠ .idle := by rw [hp]; decide
  have hbusy := hs.busy_of hni
  have hq := hs.staged (by rw [hp]; rfl)
  have hcmd := hs.command
  have hhl := hs.hl_later hni (by rw [hp]; decide) (by rw [hp]; decide)
  have hhv := hs.notHv hni (by rw [hp]; decide)
  rw [decodeStep_eq]
  split
  · exact hs.raise _ (by decide) (by rw [hp] at hcmd ⊢; simpa [canEndWith] using hcmd) (fun _ => hq)
  · split
    · exact hs.raise _ (by decide) (by rw [hp] at hcmd ⊢; simpa [canEndWith] using hcmd) (fun _ => hq)
    · next hnl =>
      have hm := magicOf_cases s.cmdreg
      simp only
      split
      · next hrec =>
        refine Inv.enter_inv hs hni hq rfl (.inr ?_) (regsFrom_lengths _ _ _ hnl) rfl rfl rfl (.inr rfl) (by rw [hp]; rfl) (fun _ _ => ⟨rfl, rfl⟩)
          (hs.mem_wf .hdr) (hs.mem_bound .hdr) hhl (hs.hl_defined hhl) hbusy (hs.not_done hbusy) rfl (.inr (.inl ⟨rfl, rfl⟩)) rfl ?_
        · show (regsFrom _ _ _).magic = _ ∨ (regsFrom _ _ _).magic = _
          rw [regsFrom_magic _ hm]; exact hm
        · show passesThrough s.cmdreg .check = true
          simp only [isReceive, decide_eq_true_eq] at hrec
          simp only [passesThrough, decide_eq_true_eq]
          tauto
      · refine Inv.finish_inv hs hni hq rfl (.inr ?_) (regsFrom_lengths _ _ _ hnl) rfl rfl rfl rfl (by rw [hp]; rfl) (fun _ _ => ⟨rfl, rfl⟩)
          (hs.mem_wf .hdr) (hs.mem_bound .hdr) hhl (hs.hl_defined hhl)
        show (regsFrom _ _ _).magic = _ ∨ (regsFrom _ _ _).magic = _
        rw [regsFrom_magic _ hm]; exact hm

theorem Inv.checkStep_inv {s : State} (hs : Inv s) (hp : s.seq.phase = .check) : Inv (checkStep s) := by
  have hni : s.seq.phase ≠ .idle := by rw [hp]; decide
  have hbusy := hs.busy_of hni
  have hq := hs.staged (by rw [hp]; rfl)
  have hcmd := hs.command
  rw [hp] at hcmd
  have hhl := hs.hl_later hni (by rw [hp]; decide) (by rw [hp]; decide)
  have hhv := hs.notHv hni (by rw [hp]; decide)
  rw [checkStep]
  split
  · exact hs.raise _ (by decide) (by rw [hp]; simpa [canEndWith] using hcmd) (fun _ => hq)
  · next hle =>
    apply nextRecv_inv
    have hle' : s.h.totLen.toNat ≤ s.maxbody.toNat := by simpa [BitVec.lt_def] using hle
    have hl := hs.lengths
    have hmb := hs.maxbody_le
    exact {
      maxbody_le := hs.maxbody_le
      valLen_le := by show s.h.valLen.toNat ≤ _; omega
      mem_wf := by intro b; cases b <;> first | exact hs.mem_wf .hdr | exact Mem.wf_nil
      mem_bound := by intro b; cases b <;> first | exact hs.mem_bound .hdr | (intro x hx; cases hx)
      magic := hs.magic
      lengths := hs.lengths
      busy := hbusy
      done := hs.not_done hbusy
      hl := hhl
      hv := hhv
      fok := hs.fok_phase (.inl hp)
      dead := hs.alive hbusy (passes_check_stream hcmd)
      txq := hq
      cmd := hcmd
      err_cmd := hs.err_cmd
      err_none := hs.err_busy hbusy
      err_info := hs.err_info (hs.err_busy hbusy)
      err_table := hs.err_table
      sticky_zero := hs.sticky_zero
      hdr := hs.hl_defined hhl
      allocated := ⟨rfl, rfl, rfl⟩
      before := by intro c hc hcl; exfalso; revert hc hcl; cases c <;> decide }

theorem Inv.encodeStep_inv {s : State} (hs : Inv s) (hp : s.seq.phase = .encode) : Inv (encodeStep s) := by
  have hni : s.seq.phase ≠ .idle := by rw [hp]; decide
  have hbusy := hs.busy_of hni
  have hq := hs.staged (by rw [hp]; rfl)
  have he : encodedHeader (magicOf s.cmdreg) s = Mem.ofBytes 0 (headerBytes (magicOf s.cmdreg) s) :=
    encodedHeader_eq _ _ (magicOf_cases _)
  have hL := headerBytes_length (magicOf s.cmdreg) s
  have hw : Mem.wf (encodedHeader (magicOf s.cmdreg) s) := by rw [he]; exact Mem.wf_ofBytes _ _
  have hbd : ∀ x ∈ encodedHeader (magicOf s.cmdreg) s, x.1 < 24 := by
    rw [he]; intro x hx; have := Mem.mem_ofBytes hx; omega
  have hdef : Mem.definedTo Config.headerLen (encodedHeader (magicOf s.cmdreg) s) := by
    rw [he]; exact Mem.definedTo_ofBytes (by rw [hL]; exact Nat.le_refl _)
  rw [encodeStep]
  clear he
  generalize encodedHeader (magicOf s.cmdreg) s = m at hw hbd hdef ⊢
  simp only
  split
  · next ht =>
    refine Inv.enter_inv hs hni hq rfl hs.magic hs.lengths rfl rfl rfl (.inl rfl) (by rw [hp]; rfl) ?_
      hw hbd rfl hdef hbusy (hs.not_done hbusy) rfl (.inr (.inr rfl)) rfl ?_
    · intro c hc; cases c <;> first | exact absurd rfl hc | exact ⟨rfl, rfl⟩
    · show passesThrough s.cmdreg .hdrTx = true
      simpa [isTransmit, passesThrough] using ht
  · refine Inv.finish_inv hs hni hq rfl hs.magic hs.lengths rfl rfl rfl rfl (by rw [hp]; rfl) ?_ hw hbd rfl hdef
    intro c hc; cases c <;> first | exact absurd rfl hc | exact ⟨rfl, rfl⟩

/-- From one transmit phase to another, or within one. -/
theorem Inv.tx_inv {s : State} (hs : Inv s) (q : List Byte) (e : Env) (sq : Seq) (hp : isTx s.seq.phase = true) (hp' : isTx sq.phase = true)
    (hc : match movedBuffer sq.phase with | some b => sq.cnt.toNat < Buffers.len b s.buf | none => sq.cnt = 0) :
    Inv (((s.setTxq q).setEnv e).setSeq sq) := by
  have hni : s.seq.phase ≠ .idle := by intro h; rw [h] at hp; cases hp
  have hni' : sq.phase ≠ .idle := by intro h; rw [h] at hp'; cases hp'
  have hbusy := hs.busy_of hni
  have hcmd := hs.command
  have hhl := hs.hl_later hni (by intro h; rw [h] at hp; cases hp) (by intro h; rw [h] at hp; cases hp)
  have hhv := hs.notHv hni (by intro h; rw [h] at hp; cases hp)
  have hfr : isFrameRx s.seq.phase = false := by revert hp; cases s.seq.phase <;> decide
  have hfr' : isFrameRx sq.phase = false := by revert hp'; cases sq.phase <;> decide
  exact { hs with
    busy_iff := by simp [hbusy, hni']
    count := hc
    staged := by intro h; rw [show isTx sq.phase = false from h] at hp'; cases hp'
    command := by
      show passesThrough s.cmdreg sq.phase = true
      revert hcmd hp hp'
      cases s.seq.phase <;> cases sq.phase <;> simp [isTx, passesThrough]
    hl_hdrRx := by intro h; rw [show sq.phase = _ from h] at hp'; cases hp'
    hl_later := fun _ _ _ => hhl
    hv_phase := by intro h; rw [show s.flags.hv = true from h] at hhv; cases hhv
    fok_phase := by
      intro h
      rcases h with h | h
      · rw [show sq.phase = _ from h] at hp'; cases hp'
      · rw [show isFrameRx sq.phase = true from h] at hfr'; cases hfr'
    complete := fun h _ => hs.complete h hfr
    allocated := by intro h; rw [show isFrameRx sq.phase = true from h] at hfr'; cases hfr'
    received := by intro b h; rw [show sq.phase = _ from h] at hp'; cases b <;> cases hp'
    earlier := by intro b c h; rw [show sq.phase = _ from h] at hp'; cases b <;> cases hp' }

theorem nextSend_inv {s : State} (hs : Inv s) (hp : isTx s.seq.phase = true) (q : List Byte) (e : Env) (sq : Seq) (l : List BufName) :
    Inv (nextSend l (((s.setTxq q).setEnv e).setSeq sq)) := by
  induction l with
  | nil => exact hs.tx_inv q e ⟨.flush, 0⟩ hp rfl rfl
  | cons b l ih =>
    rw [nextSend]
    split
    · exact ih
    · next h0 =>
      have hb : Buffers.len b s.buf ≠ 0 := h0
      have : enter (txPhase b) (((s.setTxq q).setEnv e).setSeq sq) = ((s.setTxq q).setEnv e).setSeq ⟨txPhase b, 0⟩ := by
        cases b <;> rfl
      rw [this]
      exact hs.tx_inv q e _ hp (by cases b <;> rfl) (by rw [txPhase_moved]; show 0 < _; omega)

theorem pushed_last {b : BufName} {s : State} (h : s.seq.cnt.toNat + 1 = Buffers.len b s.buf) :
    pushed b s = nextSend (laterSections b) ((s.setTxq (s.txq ++ [Mem.byteAt s.drv.draws (Buffers.mem b s.buf) s.seq.cnt.toNat])).setSeq ⟨s.seq.phase, s.seq.cnt + 1⟩) :=
  if_pos h
theorem pushed_part {b : BufName} {s : State} (h : ¬ s.seq.cnt.toNat + 1 = Buffers.len b s.buf) :
    pushed b s = (s.setTxq (s.txq ++ [Mem.byteAt s.drv.draws (Buffers.mem b s.buf) s.seq.cnt.toNat])).setSeq ⟨s.seq.phase, s.seq.cnt + 1⟩ :=
  if_neg h

theorem Inv.sendStep_inv {s t : State} (hs : Inv s) {b : BufName} (hp : s.seq.phase = txPhase b) (h : sendStep b s = some t) : Inv t := by
  have htx : isTx s.seq.phase = true := by rw [hp]; cases b <;> rfl
  have hcnt := hs.count
  rw [hp, txPhase_moved] at hcnt
  simp only at hcnt
  simp only [sendStep] at h
  split at h
  · next k _ =>
    simp only [Option.some.injEq] at h
    subst h
    by_cases hn : s.seq.cnt.toNat + 1 = Buffers.len b s.buf
    · rw [pushed_last (s := s.setEnv { s.env with sink := k }) hn]
      exact nextSend_inv hs htx _ _ _ _
    · rw [pushed_part (s := s.setEnv { s.env with sink := k }) hn]
      have hlen := Buffers.len_lt b s.buf
      have hc1 : (s.seq.cnt + 1).toNat = s.seq.cnt.toNat + 1 := by
        rw [BitVec.toNat_add]; apply Nat.mod_eq_of_lt; show _ + 1 < _; omega
      refine hs.tx_inv _ _ ⟨s.seq.phase, s.seq.cnt + 1⟩ htx htx ?_
      show match movedBuffer s.seq.phase with | some b => (s.seq.cnt + 1).toNat < Buffers.len b s.buf | none => _
      rw [hp, txPhase_moved]
      simp only [hc1]
      omega
  · simp only [Option.some.injEq] at h
    subst h
    refine hs.raise _ (by decide) ?_ (fun h => by cases h)
    have hcmd := hs.command
    rw [hp] at hcmd ⊢
    cases b <;> simpa [canEndWith, isTx, txPhase] using hcmd
  · cases h

theorem Inv.flushStep_inv {s t : State} (hs : Inv s) (hp : s.seq.phase = .flush) (h : flushStep s = some t) : Inv t := by
  have hni : s.seq.phase ≠ .idle := by rw [hp]; decide
  have hhl := hs.hl_later hni (by rw [hp]; decide) (by rw [hp]; decide)
  simp only [flushStep] at h
  split at h
  · simp only [Option.some.injEq] at h
    subst h
    refine Inv.finish_inv hs hni rfl rfl hs.magic hs.lengths rfl rfl rfl rfl (by rw [hp]; rfl) (fun _ _ => ⟨rfl, rfl⟩) (hs.mem_wf .hdr) (hs.mem_bound .hdr) hhl (hs.hl_defined hhl)
  · simp only [Option.some.injEq] at h
    subst h
    refine hs.raise _ (by decide) ?_ (fun h => by cases h)
    have hcmd := hs.command
    rw [hp] at hcmd ⊢
    simpa [canEndWith] using hcmd
  · cases h

theorem Inv.microStep_inv {s t : State} (hs : Inv s) (h : microStep s = some t) : Inv t := by
  unfold microStep at h
  split at h
  · cases h
  · next hp => exact hs.recvStep_inv (b := .hdr) hp h
  · next hp => simp only [Option.some.injEq] at h; subst h; exact hs.decodeStep_inv hp
  · next hp => simp only [Option.some.injEq] at h; subst h; exact hs.checkStep_inv hp
  · next hp => exact hs.recvStep_inv (b := .ext) hp h
  · next hp => exact hs.recvStep_inv (b := .key) hp h
  · next hp => exact hs.recvStep_inv (b := .val) hp h
  · next hp => simp only [Option.some.injEq] at h; subst h; exact hs.encodeStep_inv hp
  · next hp => exact hs.sendStep_inv (b := .hdr) hp h
  · next hp => exact hs.sendStep_inv (b := .ext) hp h
  · next hp => exact hs.sendStep_inv (b := .key) hp h
  · next hp => exact hs.sendStep_inv (b := .val) hp h
  · next hp => exact hs.flushStep_inv hp h

theorem Inv.accept_inv {s : State} (hs : Inv s) (hb : s.flags.busy = false) {code : Byte} {p : Phase}
    (hp : p = .hdrRx ∨ (p = .decode ∧ s.flags.hl = true) ∨ (p = .check ∧ s.flags.hl = true) ∨ p = .encode)
    (hc : passesThrough code p = true) (hd : isStream code = true → s.flags.dead = false) : Inv (accept code p s) := by
  obtain ⟨hseq, hq⟩ := hs.idle_of hb
  have hfr : isFrameRx s.seq.phase = false := by rw [hseq]; rfl
  have hB : ∀ b, b ≠ .hdr → Buffers.len b (accept code p s).buf = Buffers.len b s.buf ∧ Buffers.mem b (accept code p s).buf = Buffers.mem b s.buf := by
    intro b hb; cases p <;> cases b <;> first | exact absurd rfl hb | exact ⟨rfl, rfl⟩
  have hsc : ∀ c, c ≠ .hdr → sectionComplete c s.buf → sectionComplete c (accept code p s).buf := by
    intro c hc h; unfold sectionComplete; rw [(hB c hc).1, (hB c hc).2]; exact h
  have hvl : (accept code p s).buf.valLen = s.buf.valLen := by cases p <;> rfl
  have hph : (accept code p s).seq = ⟨p, 0⟩ := by cases p <;> rfl
  have hh : (accept code p s).h = s.h := by cases p <;> rfl
  have hm : (accept code p s).maxbody = s.maxbody := by cases p <;> rfl
  have he : (accept code p s).errs = ⟨⟨.none, .idle, code⟩, 0, s.errs.sticky⟩ := by cases p <;> rfl
  have hcm : (accept code p s).cmdreg = code := by cases p <;> rfl
  have ht : (accept code p s).txq = s.txq := by cases p <;> rfl
  have hf : (accept code p s).flags = enterFlags p { s.flags with busy := true, done := false } := by cases p <;> rfl
  have hni : p ≠ .idle := by rcases hp with h | ⟨h, -⟩ | ⟨h, -⟩ | h <;> rw [h] <;> decide
  have htx : isTx p = false := by rcases hp with h | ⟨h, -⟩ | ⟨h, -⟩ | h <;> rw [h] <;> rfl
  have hfr' : isFrameRx p = false := by rcases hp with h | ⟨h, -⟩ | ⟨h, -⟩ | h <;> rw [h] <;> rfl
  have hdr : (accept code p s).buf.hdr = if p = .hdrRx then [] else s.buf.hdr := by cases p <;> rfl
  constructor <;> try simp only [hph, hh, hm, he, hcm, ht, hf]
  · exact hs.maxbody_le
  · rw [hvl]; exact hs.valLen_le
  · intro b
    by_cases hb' : b = .hdr
    · subst hb'; show Mem.wf (accept code p s).buf.hdr; rw [hdr]; split
      · exact Mem.wf_nil
      · exact hs.mem_wf .hdr
    · rw [(hB b hb').2]; exact hs.mem_wf b
  · intro b
    by_cases hb' : b = .hdr
    · subst hb'; show ∀ x ∈ (accept code p s).buf.hdr, _; rw [hdr]; split
      · intro x hx; cases hx
      · exact hs.mem_bound .hdr
    · rw [(hB b hb').1, (hB b hb').2]; exact hs.mem_bound b
  · exact hs.magic
  · exact hs.lengths
  · cases p <;> simp [enterFlags]
    exact absurd rfl hni
  · intro _; cases p <;> rfl
  · rcases hp with h | ⟨h, -⟩ | ⟨h, -⟩ | h <;> subst h <;> first | exact trivial | (show (0 : Nat) < 24; decide)
  · exact fun _ => hq
  · exact hc
  · intro _ h; have := hd h; cases p <;> exact this
  · exact fun _ => trivial
  · exact fun _ => trivial
  · rfl
  · simp [Cause.stickyBit]
  · exact hs.sticky_zero
  · intro h; exact hs.dead_sticky (by cases p <;> exact h)
  · intro h
    rw [hdr]
    rcases hp with h' | ⟨h', hhl⟩ | ⟨h', hhl⟩ | h' <;> subst h'
    · cases h
    · exact hs.hl_defined hhl
    · exact hs.hl_defined hhl
    · exact hs.hl_defined h
  · intro h
    rcases hp with h' | ⟨h', hhl⟩ | ⟨h', hhl⟩ | h' <;> subst h' <;> first | cases h | exact hs.hv_hl h
  · intro h; subst h; rfl
  · intro _ h1 h2
    rcases hp with h' | ⟨h', hhl⟩ | ⟨h', hhl⟩ | h' <;> subst h' <;> first | contradiction | exact hhl
  · intro h
    rcases hp with h' | ⟨h', hhl⟩ | ⟨h', hhl⟩ | h' <;> subst h' <;> first | cases h | exact .inr rfl
  · rw [hfr']
    intro h; rcases h with h | h
    · subst h; rfl
    · cases h
  · intro h b hb'
    refine hsc b hb' (hs.fok_complete ?_ b hb')
    cases p <;> first | exact h | cases h
  · intro h _ b hb'
    refine hsc b hb' (hs.complete ?_ hfr b hb')
    cases p <;> exact h
  · rw [hfr']; intro h; cases h
  · intro b h a ha; simp at ha
  · intro b c h h1
    exfalso
    have : b = .hdr := by rcases hp with h' | ⟨h', -⟩ | ⟨h', -⟩ | h' <;> rw [h'] at h <;> cases b <;> first | rfl | cases h
    subst this; revert h1; cases c <;> decide

theorem writtenRegs_keeps {n v : Nat} {h h' : HeaderRegs} (e : writtenRegs n v h = some h') :
    h'.magic = h.magic ∧ h'.totLen = h.totLen ∧ h'.extLen = h.extLen ∧ h'.keyLen = h.keyLen ∧ h'.valLen = h.valLen := by
  simp only [writtenRegs] at e
  split at e <;> first | (split at e <;> first | (simp only [Option.some.injEq] at e; subst e; exact ⟨rfl, rfl, rfl, rfl, rfl⟩) | cases e) | cases e

/-- An idle state changed in its registers, buffers and flags by the host. -/
theorem Inv.hostEdit {s : State} (hs : Inv s) (hb : s.flags.busy = false) (h : HeaderRegs) (B : Buffers) (f : Flags)
    (c2 : B.valLen.toNat ≤ Config.valcap)
    (c3 : ∀ b, Mem.wf (Buffers.mem b B)) (c4 : ∀ b, ∀ x ∈ Buffers.mem b B, x.1 < Buffers.len b B)
    (c5 : h.magic = s.h.magic) (c6 : h.totLen = s.h.totLen) (c6a : h.extLen = s.h.extLen) (c6b : h.keyLen = s.h.keyLen) (c6c : h.valLen = s.h.valLen)
    (cb : f.busy = false) (cd : f.dead = s.flags.dead)
    (c13 : f.hl = true → Mem.definedTo Config.headerLen B.hdr) (c14 : f.hv = true → f.hl = true)
    (c15 : f.fok = true → ∀ b, b ≠ .hdr → sectionComplete b B)
    (c16 : f.dead = false → ∀ b, b ≠ .hdr → sectionComplete b B) : Inv (((s.setH h).setBuf B).setFlags f) := by
  obtain ⟨hseq, hq⟩ := hs.idle_of hb
  apply Inv.ofIdle
  · exact hseq
  · exact cb
  · exact hq
  · exact hs.maxbody_le
  · exact c2
  · exact c3
  · exact c4
  · show h.magic = 0 ∨ h.magic = _ ∨ h.magic = _; rw [c5]; exact hs.magic
  · show h.totLen.toNat = h.extLen.toNat + h.keyLen.toNat + h.valLen.toNat; rw [c6, c6a, c6b, c6c]; exact hs.lengths
  · exact hs.err_cmd
  · exact hs.err_info
  · exact hs.err_table
  · exact hs.err_sticky
  · exact hs.sticky_zero
  · show f.dead = true → _; rw [cd]; exact hs.dead_sticky
  · exact c13
  · exact c14
  · exact c15
  · exact c16

theorem load_facts {b : BufName} {bs : List Byte} (h : fits b bs.length = true) (B : Buffers) :
    (Buffers.load b bs B).hdr = (if b = .hdr then Mem.ofBytes 0 bs else B.hdr) ∧
    Buffers.len b (Buffers.load b bs B) = bs.length ∧ Buffers.mem b (Buffers.load b bs B) = Mem.ofBytes 0 bs ∧
    (∀ c, c ≠ b → Buffers.len c (Buffers.load b bs B) = Buffers.len c B ∧ Buffers.mem c (Buffers.load b bs B) = Buffers.mem c B) := by
  have hv := Config.valcap_le_max
  cases b
  · refine ⟨rfl, ?_, rfl, ?_⟩
    · exact (of_decide_eq_true h).symm
    · intro c hc; cases c <;> first | exact absurd rfl hc | exact ⟨rfl, rfl⟩
  · refine ⟨rfl, ?_, rfl, ?_⟩
    · have : bs.length ≤ 255 := of_decide_eq_true h
      show (BitVec.ofNat 8 bs.length).toNat = _
      rw [BitVec.toNat_ofNat, Nat.mod_eq_of_lt (by omega)]
    · intro c hc; cases c <;> first | exact absurd rfl hc | exact ⟨rfl, rfl⟩
  · refine ⟨rfl, ?_, rfl, ?_⟩
    · have : bs.length ≤ 65535 := of_decide_eq_true h
      show (BitVec.ofNat 16 bs.length).toNat = _
      rw [BitVec.toNat_ofNat, Nat.mod_eq_of_lt (by omega)]
    · intro c hc; cases c <;> first | exact absurd rfl hc | exact ⟨rfl, rfl⟩
  · refine ⟨rfl, ?_, rfl, ?_⟩
    · have : bs.length ≤ Config.valcap := by simpa [fits, exceedsValcap_eq] using h
      show (BitVec.ofNat 32 bs.length).toNat = _
      rw [BitVec.toNat_ofNat, Nat.mod_eq_of_lt (by simp only [Config.valcapMax] at hv; omega)]
    · intro c hc; cases c <;> first | exact absurd rfl hc | exact ⟨rfl, rfl⟩

end Sys2Proof.Machine
end

