-- ==== Sys2Proof/Laws/PerInstr.lean ====
section
/-! SUPPORT. A law of every instruction as syntax: its encoding has the length of its format (R90 to R92). -/

namespace Sys2Proof.Laws.EncodeLength

/-- The bytes of an instruction's format: 5 for a command word (R91), 24 for a header (R92). -/
def formatLength : Instr → Nat
  | .cfgmax _ => 5
  | .ldhdr _ => 5
  | .decreq _ => 5
  | .decrsp _ => 5
  | .rdframe _ => 5
  | .rxreq _ => 5
  | .rxrsp _ => 5
  | .encreq _ => 5
  | .encrsp _ => 5
  | .txreq _ => 5
  | .txrsp _ => 5
  | .hdrReq _ => 24
  | .hdrRsp _ => 24

def Statement (i : Instr) : Prop := (encode i).length = formatLength i

theorem command (code : Byte) (arg : Word) : (encodeCommand code arg).length = 5 := by simp [encodeCommand, beBytes]

theorem cfgmax (arg : Word) : Statement (.cfgmax arg) := command _ _
theorem ldhdr (arg : Word) : Statement (.ldhdr arg) := command _ _
theorem decreq (arg : Word) : Statement (.decreq arg) := command _ _
theorem decrsp (arg : Word) : Statement (.decrsp arg) := command _ _
theorem rdframe (arg : Word) : Statement (.rdframe arg) := command _ _
theorem rxreq (arg : Word) : Statement (.rxreq arg) := command _ _
theorem rxrsp (arg : Word) : Statement (.rxrsp arg) := command _ _
theorem encreq (arg : Word) : Statement (.encreq arg) := command _ _
theorem encrsp (arg : Word) : Statement (.encrsp arg) := command _ _
theorem txreq (arg : Word) : Statement (.txreq arg) := command _ _
theorem txrsp (arg : Word) : Statement (.txrsp arg) := command _ _
theorem hdrReq (h : ReqHeader) : Statement (.hdrReq h) := by simp [Statement, encode, encodeReqHeader, beBytes, formatLength]
theorem hdrRsp (h : RspHeader) : Statement (.hdrRsp h) := by simp [Statement, encode, encodeRspHeader, beBytes, formatLength]

end Sys2Proof.Laws.EncodeLength
end

