-- ==== Sys2Proof/Laws/Receive.lean ====
section
/-! SUPPORT. Receiving a frame as a whole: the sections one after the other, and what is left when the stream ends or waits. -/

namespace Sys2Proof.Machine

def frameResult : List BufName → List Byte → State → State
  | [], bs, u => finish ((u.setEnv { u.env with rx := bs }).setFlags { u.flags with fok := true })
  | b :: l, bs, u =>
    if Buffers.len b u.buf ≤ bs.length then
      frameResult l (bs.drop (Buffers.len b u.buf))
        (u.setBuf (Buffers.setMem b (Mem.ofBytes 0 (bs.take (Buffers.len b u.buf))) u.buf))
    else if u.env.rxEnded then raise .incompleteFrame (BitVec.ofNat 32 bs.length) (receiving b bs [] u)
    else receiving b bs [] u

theorem frameResult_setSeq (l : List BufName) (bs : List Byte) (u : State) (q : Seq) :
    frameResult l bs (u.setSeq q) = frameResult l bs u := by
  induction l generalizing bs u with
  | nil => rfl
  | cons b l ih =>
    by_cases hle : Buffers.len b u.buf ≤ bs.length
    · refine (if_pos hle).trans (Eq.trans ?_ (if_pos hle).symm)
      exact ih _ (u.setBuf (Buffers.setMem b (Mem.ofBytes 0 (bs.take (Buffers.len b u.buf))) u.buf))
    · refine (if_neg hle).trans (Eq.trans ?_ (if_neg hle).symm)
      rfl

theorem frameResult_setRx (l : List BufName) (bs rx : List Byte) (u : State) :
    frameResult l bs (u.setEnv { u.env with rx := rx }) = frameResult l bs u := by
  induction l generalizing bs u with
  | nil => rfl
  | cons b l ih =>
    by_cases hle : Buffers.len b u.buf ≤ bs.length
    · refine (if_pos hle).trans (Eq.trans ?_ (if_pos hle).symm)
      exact ih _ (u.setBuf (Buffers.setMem b (Mem.ofBytes 0 (bs.take (Buffers.len b u.buf))) u.buf))
    · refine (if_neg hle).trans (Eq.trans ?_ (if_neg hle).symm)
      rfl

theorem endRecv_section {b : BufName} (hb : b ≠ .hdr) (s : State) : endRecv b s = nextRecv (laterSections b) s := by
  cases b <;> first | rfl | exact absurd rfl hb

theorem enter_rx {b : BufName} (hb : b ≠ .hdr) (u : State) (hm : Buffers.mem b u.buf = []) :
    enter (rxPhase b) u = receiving b [] u.env.rx u := by
  cases b
  · exact absurd rfl hb
  all_goals
    obtain ⟨h, ⟨a1, a2, a3, a4, a5, a6, a7⟩, m, f, e, q, c, t, ⟨v1, v2, v3, v4⟩, d⟩ := u
    simp only [Buffers.mem] at hm
    subst hm
    rfl

theorem shortCause_section {b : BufName} (hb : b ≠ .hdr) (c : Word) : shortCause b c = .incompleteFrame := by
  cases b <;> first | rfl | exact absurd rfl hb

/-- One section, given the rest. -/
theorem recv_section {b : BufName} (hb : b ≠ .hdr)
    (ih : ∀ (n : Nat) (bs : List Byte) (u : State), u.flags.busy = true → u.drv.yields = [] →
      (∀ c ∈ laterSections b, Buffers.mem c u.buf = []) → u.env.rx = bs → bs.length < n →
      runSeq n (nextRecv (laterSections b) u) = frameResult (laterSections b) bs u)
    (n : Nat) (bs : List Byte) (u : State) (hbusy : u.flags.busy = true) (hy : u.drv.yields = [])
    (hm : ∀ c ∈ b :: laterSections b, Buffers.mem c u.buf = []) (hrx : u.env.rx = bs) (hn : bs.length < n) :
    runSeq n (nextRecv (b :: laterSections b) u) = frameResult (b :: laterSections b) bs u := by
  have hmb := hm b (by simp)
  have hself : u.setBuf (Buffers.setMem b (Mem.ofBytes 0 []) u.buf) = u := by
    obtain ⟨h, ⟨a1, a2, a3, a4, a5, a6, a7⟩, m, f, e, q, c, t, v, d⟩ := u
    cases b <;> simp only [Buffers.mem] at hmb <;> subst hmb <;> rfl
  simp only [nextRecv, frameResult]
  by_cases h0 : Buffers.len b u.buf = 0
  · simp only [h0, if_true, Nat.zero_le, List.take_zero, List.drop_zero, hself]
    exact ih n bs u hbusy hy (fun c hc => hm c (by simp [hc])) hrx hn
  · rw [if_neg h0, enter_rx hb u hmb, hrx]
    by_cases hle : Buffers.len b u.buf ≤ bs.length
    · rw [if_pos hle]
      set L := Buffers.len b u.buf with hL
      have hsplit : bs = bs.take L ++ bs.drop L := (List.take_append_drop L bs).symm
      have hlen : (bs.take L).length = L := by simp [hle]
      have hne : bs.take L ≠ [] := by intro h; rw [h] at hlen; simp at hlen; omega
      conv_lhs => rw [hsplit]
      obtain ⟨k, rfl⟩ : ∃ k, n = k + (bs.take L).length := ⟨n - L, by omega⟩
      rw [runSeq_receiving_all b _ k _ u hbusy hy (by omega) hne, endRecv_section hb]
      have hdrop : (bs.drop L).length = bs.length - L := by simp
      rw [ih k (bs.drop L) (receiving b (bs.take L) (bs.drop L) u) hbusy hy ?_ rfl (by omega)]
      · rw [receiving, frameResult_setSeq]
        exact frameResult_setRx _ _ _ (u.setBuf (Buffers.setMem b (Mem.ofBytes 0 (bs.take L)) u.buf))
      · intro c hc
        have hcb : c ≠ b := by intro h; subst h; revert hc; cases c <;> decide
        have := hm c (by simp [hc])
        simpa [receiving, Buffers.mem_setMem_other hcb] using this
    · rw [if_neg hle]
      obtain ⟨k, rfl⟩ : ∃ k, n = (k + 1) + bs.length := ⟨n - bs.length - 1, by omega⟩
      have hp := runSeq_receiving_part b bs (k + 1) [] [] u hbusy hy (by simp; omega)
      rw [List.append_nil, List.nil_append] at hp
      rw [hp]
      cases he : u.env.rxEnded
      · rw [runSeq_of_wait (by simpa using hbusy) (by simpa using hy) (microStep_receiving_wait b bs he)]
        simp
      · rw [runSeq_of_step (by simpa using hbusy) (by simpa using hy) (microStep_receiving_end b bs he),
          runSeq_idle _ (raise_busy _ _ _), shortCause_section hb]
        simp

theorem runSeq_frame (n : Nat) (bs : List Byte) (u : State) (hbusy : u.flags.busy = true) (hy : u.drv.yields = [])
    (hm : ∀ c ∈ [BufName.ext, .key, .val], Buffers.mem c u.buf = []) (hrx : u.env.rx = bs) (hn : bs.length < n) :
    runSeq n (nextRecv [.ext, .key, .val] u) = frameResult [.ext, .key, .val] bs u := by
  refine recv_section (b := .ext) (by decide) ?_ n bs u hbusy hy hm hrx hn
  refine recv_section (b := .key) (by decide) ?_
  refine recv_section (b := .val) (by decide) ?_
  intro n bs u _ _ _ hrx _
  simp only [laterSections, nextRecv, frameResult]
  rw [runSeq_idle _ (finish_busy _)]
  subst hrx
  rfl

/-- The buffers with as much of a frame as there is read into them. -/
def filled (bs : List Byte) (B : Buffers) : Buffers :=
  { B with
    ext := Mem.ofBytes 0 (bs.take B.extLen.toNat)
    key := Mem.ofBytes 0 ((bs.drop B.extLen.toNat).take B.keyLen.toNat)
    val := Mem.ofBytes 0 ((bs.drop (B.extLen.toNat + B.keyLen.toNat)).take B.valLen.toNat) }

def frameEnd (bs : List Byte) (u : State) : RxOutcome → State
  | .transport _ p k => raise .incompleteFrame (BitVec.ofNat 32 k)
      (((u.setBuf (filled bs u.buf)).setEnv { u.env with rx := [] }).setSeq ⟨p, BitVec.ofNat 32 k⟩)
  | .waiting p k => ((u.setBuf (filled bs u.buf)).setEnv { u.env with rx := [] }).setSeq ⟨p, BitVec.ofNat 32 k⟩
  | _ => finish (((u.setBuf (filled bs u.buf)).setEnv { u.env with rx := bs.drop (Buffers.total u.buf) }).setFlags
      { u.flags with fok := true })

theorem frameResult_eq (bs : List Byte) (u : State) (hm : ∀ c ∈ [BufName.ext, .key, .val], Buffers.mem c u.buf = []) :
    frameResult [.ext, .key, .val] bs u =
      frameEnd bs u (frameOutcome u.buf.extLen.toNat u.buf.keyLen.toNat (Buffers.total u.buf) bs u.env.rxEnded) := by
  obtain ⟨h, ⟨a1, a2, a3, a4, a5, a6, a7⟩, m, f, e, q, c, t, ⟨v1, v2, v3, v4⟩, d⟩ := u
  have h1 := hm .ext (by simp)
  have h2 := hm .key (by simp)
  have h3 := hm .val (by simp)
  simp only [Buffers.mem] at h1 h2 h3
  subst h1 h2 h3
  simp only [frameOutcome, Buffers.total, frameBreak]
  by_cases c1 : a2.toNat ≤ bs.length
  · by_cases c2 : a4.toNat ≤ (bs.drop a2.toNat).length
    · by_cases c3 : a6.toNat ≤ ((bs.drop a2.toNat).drop a4.toNat).length
      · have ht : a2.toNat + a4.toNat + a6.toNat ≤ bs.length := by simp at c2 c3; omega
        rw [if_pos ht]
        refine (if_pos c1).trans ?_
        refine (if_pos c2).trans ?_
        refine (if_pos c3).trans ?_
        simp only [frameEnd, filled, frameResult, Buffers.len, List.drop_drop, Buffers.total, Buffers.setMem, State.setBuf]
      · have ht : ¬ a2.toNat + a4.toNat + a6.toNat ≤ bs.length := by simp at c2 c3; omega
        have n1 : ¬ bs.length < a2.toNat := by omega
        have n2 : ¬ bs.length < a2.toNat + a4.toNat := by simp at c2; omega
        rw [if_neg ht, if_neg n1, if_neg n2]
        have hl : (bs.drop (a2.toNat + a4.toNat)).length = bs.length - a2.toNat - a4.toNat := by
          rw [List.length_drop, Nat.sub_sub]
        refine (if_pos c1).trans ?_
        refine (if_pos c2).trans ?_
        refine (if_neg c3).trans ?_
        have htk : ((bs.drop (a2.toNat + a4.toNat)).take a6.toNat) = bs.drop (a2.toNat + a4.toNat) :=
          List.take_of_length_le (by simp at c3 ⊢; omega)
        simp only [Buffers.len, Buffers.setMem, State.setBuf]
        cases v2
        · simp only [Bool.false_eq_true, if_false, frameEnd, filled, receiving, htk, Buffers.setMem, State.setBuf, List.drop_drop, hl]
          rfl
        · simp only [if_true, frameEnd, filled, receiving, htk, Buffers.setMem, State.setBuf, List.drop_drop, hl]
          rfl
    · have ht : ¬ a2.toNat + a4.toNat + a6.toNat ≤ bs.length := by simp at c2; omega
      have n1 : ¬ bs.length < a2.toNat := by omega
      have n2 : bs.length < a2.toNat + a4.toNat := by simp at c2; omega
      rw [if_neg ht, if_neg n1, if_pos n2]
      have hl : (bs.drop a2.toNat).length = bs.length - a2.toNat := by simp
      refine (if_pos c1).trans ?_
      refine (if_neg c2).trans ?_
      have htk : ((bs.drop a2.toNat).take a4.toNat) = bs.drop a2.toNat :=
          List.take_of_length_le (by simp at c2 ⊢; omega)
      have hnil : bs.drop (a2.toNat + a4.toNat) = [] := List.drop_eq_nil_of_le (by omega)
      simp only [Buffers.len, Buffers.setMem, State.setBuf]
      cases v2
      · simp only [Bool.false_eq_true, if_false, frameEnd, filled, receiving, htk, hnil, Buffers.setMem, State.setBuf, List.take_nil, hl]
        rfl
      · simp only [if_true, frameEnd, filled, receiving, htk, hnil, Buffers.setMem, State.setBuf, List.take_nil, hl]
        rfl
  · have ht : ¬ a2.toNat + a4.toNat + a6.toNat ≤ bs.length := by omega
    have n1 : bs.length < a2.toNat := by omega
    rw [if_neg ht, if_pos n1]
    refine (if_neg c1).trans ?_
    have htk : (bs.take a2.toNat) = bs := List.take_of_length_le (by omega)
    have hnil : bs.drop a2.toNat = [] := List.drop_eq_nil_of_le (by omega)
    have hnil2 : bs.drop (a2.toNat + a4.toNat) = [] := List.drop_eq_nil_of_le (by omega)
    cases v2
    · simp only [Bool.false_eq_true, if_false, frameEnd, filled, receiving, htk, hnil, hnil2, Buffers.setMem, State.setBuf, List.take_nil]
      rfl
    · simp only [if_true, frameEnd, filled, receiving, htk, hnil, hnil2, Buffers.setMem, State.setBuf, List.take_nil]
      rfl

/-- The whole check-and-read of a frame from a state in phase `CHECK`. -/
theorem runSeq_check (n : Nat) (u : State) (hp : u.seq.phase = .check) (hbusy : u.flags.busy = true)
    (hy : u.drv.yields = []) (hn : u.env.rx.length + 1 < n) :
    runSeq n u = if u.maxbody < u.h.totLen then raise .oversizedBody u.h.totLen u
      else frameEnd u.env.rx (allocate u)
        (frameOutcome u.h.extLen.toNat u.h.keyLen.toNat (u.h.extLen.toNat + u.h.keyLen.toNat + u.h.valLen.toNat)
          u.env.rx u.env.rxEnded) := by
  obtain ⟨k, rfl⟩ : ∃ k, n = k + 1 := ⟨n - 1, by omega⟩
  have hs : microStep u = some (checkStep u) := by simp [microStep, hp]
  rw [runSeq_of_step hbusy hy hs, checkStep]
  split
  · rw [runSeq_idle _ (raise_busy _ _ _)]
  · have hm : ∀ c ∈ [BufName.ext, .key, .val], Buffers.mem c (allocate u).buf = [] := by
      intro c hc; fin_cases hc <;> rfl
    rw [runSeq_frame k u.env.rx (allocate u) hbusy hy hm rfl (by omega), frameResult_eq _ _ hm]
    rfl

end Sys2Proof.Machine
end

