-- ==== Sys2Proof/Laws/Transmit.lean ====
section
/-! SUPPORT. Sending a packet as a whole: the sections one after the other, the flush, and what is left when the sink fails or waits. -/

namespace Sys2Proof.Machine

def sendResult : List BufName → State → State
  | [], u =>
    match u.env.sink with
    | .takesAll => finish ((u.setTxq []).setEnv { u.env with sink := .takesAll, wire := u.env.wire ++ u.txq })
    | .takes (j + 1) f => finish ((u.setTxq []).setEnv { u.env with sink := .takes j f, wire := u.env.wire ++ u.txq })
    | .takes 0 true => raise .flushFail 0 (enter .flush u)
    | .takes 0 false => enter .flush u
  | b :: l, u =>
    let L := Buffers.len b u.buf
    let bytes := Mem.bytes u.drv.draws (Buffers.mem b u.buf) 0
    match u.env.sink with
    | .takesAll => sendResult l (u.setTxq (u.txq ++ bytes L))
    | .takes j f =>
      if L ≤ j then sendResult l ((u.setTxq (u.txq ++ bytes L)).setEnv { u.env with sink := .takes (j - L) f })
      else if f then raise .writeFail (BitVec.ofNat 32 j) (sending b j (u.txq ++ bytes j) (.takes 0 true) u)
      else sending b j (u.txq ++ bytes j) (.takes 0 false) u

theorem sendResult_setSeq (l : List BufName) (u : State) (q : Seq) : sendResult l (u.setSeq q) = sendResult l u := by
  induction l generalizing u with
  | nil => rcases hs : u.env.sink with _ | ⟨_ | j, _ | _⟩ <;> simp only [sendResult, State.setSeq_env, hs] <;> rfl
  | cons b l ih =>
    rcases hs : u.env.sink with _ | ⟨j, f⟩
    · simp only [sendResult, State.setSeq_env, hs]
      exact ih (u.setTxq _)
    · simp only [sendResult, State.setSeq_env, State.setSeq_buf, hs]
      by_cases h : Buffers.len b u.buf ≤ j
      · refine (if_pos h).trans (Eq.trans ?_ (if_pos h).symm)
        exact ih ((u.setTxq _).setEnv _)
      · refine (if_neg h).trans (Eq.trans ?_ (if_neg h).symm)
        rfl

theorem enter_tx (b : BufName) (u : State) : enter (txPhase b) u = sending b 0 u.txq u.env.sink u := by
  cases b <;> rfl

theorem send_section (b : BufName)
    (ih : ∀ (n : Nat) (u : State), u.flags.busy = true → u.drv.yields = [] →
      (laterSections b).foldl (fun a c => a + Buffers.len c u.buf) 1 ≤ n →
      runSeq n (nextSend (laterSections b) u) = sendResult (laterSections b) u)
    (n : Nat) (u : State) (hbusy : u.flags.busy = true) (hy : u.drv.yields = [])
    (hn : Buffers.len b u.buf + (laterSections b).foldl (fun a c => a + Buffers.len c u.buf) 1 ≤ n) :
    runSeq n (nextSend (b :: laterSections b) u) = sendResult (b :: laterSections b) u := by
  by_cases h0 : Buffers.len b u.buf = 0
  · have e : nextSend (b :: laterSections b) u = nextSend (laterSections b) u := by simp [nextSend, h0]
    rw [e, ih n u hbusy hy (by omega)]
    have hs1 : u.setTxq (u.txq ++ []) = u := by rw [List.append_nil]; rfl
    rcases hs : u.env.sink with _ | ⟨j, f⟩
    · simp only [sendResult, hs, h0, Mem.bytes, hs1]
    · simp only [sendResult, hs, h0, Mem.bytes, Nat.zero_le, if_true, hs1, Nat.sub_zero]
      congr 1
      rw [← hs]
      rfl
  · have e : nextSend (b :: laterSections b) u = enter (txPhase b) u := by simp [nextSend, h0]
    rw [e, enter_tx]
    have fin : ∀ (q : List Byte) (k : Sink) (m : Nat),
        (laterSections b).foldl (fun a c => a + Buffers.len c u.buf) 1 ≤ m →
        runSeq m (nextSend (laterSections b) (sending b (Buffers.len b u.buf) q k u)) =
        sendResult (laterSections b) ((u.setTxq q).setEnv { u.env with sink := k }) := by
      intro q k m hm
      rw [ih m (sending b (Buffers.len b u.buf) q k u) hbusy hy hm]
      exact sendResult_setSeq _ _ _
    obtain ⟨m, rfl⟩ : ∃ m, n = m + Buffers.len b u.buf := ⟨n - Buffers.len b u.buf, by omega⟩
    rcases hs : u.env.sink with _ | ⟨j, f⟩
    · rw [runSeq_sending_all b m _ _ .takesAll u hbusy hy h0 (by simp), fin _ _ _ (by omega)]
      simp only [sendResult, hs]
      congr 1
      rw [← hs]; rfl
    · by_cases hle : Buffers.len b u.buf ≤ j
      · rw [runSeq_sending_all b m _ _ (.takes (j - Buffers.len b u.buf) f) u hbusy hy h0
          (by rw [Sink.spend_takes, if_pos hle]), fin _ _ _ (by omega)]
        simp only [sendResult, hs, if_pos hle]
      · obtain ⟨i, hi⟩ : ∃ i, m + Buffers.len b u.buf = (i + 1) + j := ⟨m + Buffers.len b u.buf - j - 1, by omega⟩
        rw [hi, runSeq_sending_part b j (i + 1) _ _ (.takes 0 f) u hbusy hy (by omega)
          (by rw [Sink.spend_takes, if_pos (Nat.le_refl j), Nat.sub_self])]
        simp only [sendResult, hs, if_neg hle]
        cases f
        · rw [runSeq_of_wait (by exact hbusy) (by exact hy) (microStep_sending_wait b j _ u)]
          simp
        · rw [runSeq_of_step (by exact hbusy) (by exact hy) (microStep_sending_fail b j _ u),
            runSeq_idle _ (raise_busy _ _ _)]
          simp

theorem runSeq_send (n : Nat) (u : State) (hbusy : u.flags.busy = true) (hy : u.drv.yields = [])
    (hn : 24 + Buffers.total u.buf + 1 ≤ n) :
    runSeq n (nextSend [.hdr, .ext, .key, .val] u) = sendResult [.hdr, .ext, .key, .val] u := by
  have hl : Buffers.len .hdr u.buf = 24 := rfl
  refine send_section .hdr ?_ n u hbusy hy ?_
  swap
  · simp only [laterSections, List.foldl, Buffers.len, Config.headerLen, Buffers.total] at *; omega
  intro n u hbusy hy hn
  refine send_section .ext ?_ n u hbusy hy ?_
  swap
  · simp only [laterSections, List.foldl] at *; omega
  intro n u hbusy hy hn
  refine send_section .key ?_ n u hbusy hy ?_
  swap
  · simp only [laterSections, List.foldl] at *; omega
  intro n u hbusy hy hn
  refine send_section .val ?_ n u hbusy hy ?_
  swap
  · simp only [laterSections, List.foldl] at *; omega
  intro n u hbusy hy hn
  simp only [laterSections, List.foldl] at hn
  obtain ⟨k, rfl⟩ : ∃ k, n = k + 1 := ⟨n - 1, by omega⟩
  have hms : microStep (enter .flush u) = flushStep (enter .flush u) := rfl
  simp only [laterSections, nextSend]
  have hsk : (enter .flush u).env.sink = u.env.sink := rfl
  rcases hs : u.env.sink with _ | ⟨_ | j, _ | _⟩
  · rw [runSeq_of_step (by exact hbusy) (by exact hy) (t := sendResult [] u), runSeq_idle]
    · simp only [sendResult, hs]; rfl
    · rw [hms]; simp only [flushStep, hsk, hs, Sink.answer, sendResult]; rfl
  · rw [runSeq_of_wait (by exact hbusy) (by exact hy)]
    · simp only [sendResult, hs]
    · rw [hms]; simp only [flushStep, hsk, hs, Sink.answer]
  · rw [runSeq_of_step (by exact hbusy) (by exact hy) (t := sendResult [] u), runSeq_idle]
    · simp only [sendResult, hs]; exact raise_busy _ _ _
    · rw [hms]; simp only [flushStep, hsk, hs, Sink.answer, sendResult]
  · rw [runSeq_of_step (by exact hbusy) (by exact hy) (t := sendResult [] u), runSeq_idle]
    · simp only [sendResult, hs]; rfl
    · rw [hms]; simp only [flushStep, hsk, hs, Sink.answer, sendResult]; rfl
  · rw [runSeq_of_step (by exact hbusy) (by exact hy) (t := sendResult [] u), runSeq_idle]
    · simp only [sendResult, hs]; rfl
    · rw [hms]; simp only [flushStep, hsk, hs, Sink.answer, sendResult]; rfl

theorem take_in (A B : List Byte) (j : Nat) (h : A.length ≤ j) : (A ++ B).take j = A ++ B.take (j - A.length) := by
  rw [List.take_append, List.take_of_length_le h]

theorem mem_take (d : Nat) (m : Mem) (L j : Nat) (h : j ≤ L) : (Mem.bytes d m 0 L).take j = Mem.bytes d m 0 j := by
  have := Mem.bytes_slice d m L 0 j (by omega)
  simpa using this

/-- What a transmit comes to, in a form close to `txState`. -/
theorem sendResult_eq (u : State) (hq : u.txq = []) :
    sendResult [.hdr, .ext, .key, .val] u =
      let P := bufferBytes .hdr u ++ bufferBytes .ext u ++ bufferBytes .key u ++ bufferBytes .val u
      match u.env.sink with
      | .takesAll => finish (u.setEnv { u.env with wire := u.env.wire ++ P })
      | .takes j f =>
        if P.length < j then
          finish (u.setEnv { u.env with sink := .takes (j - (P.length + 1)) f, wire := u.env.wire ++ P })
        else
          let place := if j = P.length then (Phase.flush, 0) else packetPlace u.buf j
          let w := ((u.setTxq (P.take j)).setEnv { u.env with sink := .takes 0 f }).setSeq ⟨place.1, BitVec.ofNat 32 place.2⟩
          if f then raise (if j = P.length then .flushFail else .writeFail) (BitVec.ofNat 32 place.2) w else w := by
  have hH : (bufferBytes .hdr u).length = 24 := by simp [bufferBytes, Buffers.len, Config.headerLen]
  have hX : (bufferBytes .ext u).length = u.buf.extLen.toNat := by simp [bufferBytes, Buffers.len]
  have hK : (bufferBytes .key u).length = u.buf.keyLen.toNat := by simp [bufferBytes, Buffers.len]
  have hV : (bufferBytes .val u).length = u.buf.valLen.toNat := by simp [bufferBytes, Buffers.len]
  have hP : (bufferBytes .hdr u ++ bufferBytes .ext u ++ bufferBytes .key u ++ bufferBytes .val u).length =
     24 + u.buf.extLen.toNat + u.buf.keyLen.toNat + u.buf.valLen.toNat := by simp only [List.length_append, hH, hX, hK, hV]
  obtain ⟨h, ⟨a1, a2, a3, a4, a5, a6, a7⟩, m, f, e, q, c, t, ⟨v1, v2, v3, v4⟩, d⟩ := u
  simp only at hq
  subst hq
  rcases v3 with _ | ⟨j, fl⟩
  · simp only [sendResult, List.nil_append]
    rfl
  · simp only [hP]
    generalize hPP : (bufferBytes BufName.hdr _ ++ bufferBytes BufName.ext _ ++ bufferBytes BufName.key _ ++ bufferBytes BufName.val _ : List Byte) = P
    simp only [bufferBytes, Buffers.len, Buffers.mem, Config.headerLen] at hPP hH hX hK hV
    have hlen : P.length = 24 + a2.toNat + a4.toNat + a6.toNat := by rw [← hPP]; simp [Nat.add_assoc]
    by_cases c1 : 24 ≤ j
    swap
    · have n1 : ¬ 24 + a2.toNat + a4.toNat + a6.toNat < j := by omega
      have n2 : ¬ j = 24 + a2.toNat + a4.toNat + a6.toNat := by omega
      have n3 : j < Config.headerLen := by show j < 24; omega
      have ht : P.take j = Mem.bytes d.draws a1 0 j := by
        rw [← hPP, List.append_assoc, List.append_assoc, List.take_append_of_le_length (by simp; omega), mem_take _ _ _ _ (by omega)]
      simp only [packetPlace, if_neg n1, if_neg n2, if_pos n3, ht]
      refine (if_neg c1).trans ?_
      cases fl <;> rfl
    by_cases c2 : a2.toNat ≤ j - 24
    swap
    · have n1 : ¬ 24 + a2.toNat + a4.toNat + a6.toNat < j := by omega
      have n2 : ¬ j = 24 + a2.toNat + a4.toNat + a6.toNat := by omega
      have n3 : ¬ j < Config.headerLen := by show ¬ j < 24; omega
      have n4 : j < Config.headerLen + a2.toNat := by show j < 24 + _; omega
      have ht : P.take j = Mem.bytes d.draws a1 0 24 ++ Mem.bytes d.draws a3 0 (j - 24) := by
        rw [← hPP, List.append_assoc, List.append_assoc, take_in _ _ _ (by simpa using c1), hH, List.take_append_of_le_length (by simp; omega), mem_take _ _ _ _ (by omega)]
      simp only [packetPlace, if_neg n1, if_neg n2, if_neg n3, if_pos n4, ht]
      refine (if_pos c1).trans ?_
      refine (if_neg c2).trans ?_
      cases fl <;> rfl
    by_cases c3 : a4.toNat ≤ j - 24 - a2.toNat
    swap
    · have n1 : ¬ 24 + a2.toNat + a4.toNat + a6.toNat < j := by omega
      have n2 : ¬ j = 24 + a2.toNat + a4.toNat + a6.toNat := by omega
      have n3 : ¬ j < Config.headerLen := by show ¬ j < 24; omega
      have n4 : ¬ j < Config.headerLen + a2.toNat := by show ¬ j < 24 + _; omega
      have n5 : j < Config.headerLen + a2.toNat + a4.toNat := by show j < 24 + _ + _; omega
      have ht : P.take j = Mem.bytes d.draws a1 0 24 ++ Mem.bytes d.draws a3 0 a2.toNat ++ Mem.bytes d.draws a5 0 (j - 24 - a2.toNat) := by
        rw [← hPP, List.append_assoc, take_in _ _ _ (by simp; omega), List.take_append_of_le_length (by simp; omega), mem_take _ _ _ _ (by simp; omega)]
        simp [Nat.sub_sub]
      simp only [packetPlace, if_neg n1, if_neg n2, if_neg n3, if_neg n4, if_pos n5, ht]
      refine (if_pos c1).trans ?_
      refine (if_pos c2).trans ?_
      refine (if_neg c3).trans ?_
      cases fl <;> rfl
    by_cases c4 : a6.toNat ≤ j - 24 - a2.toNat - a4.toNat
    swap
    · have n1 : ¬ 24 + a2.toNat + a4.toNat + a6.toNat < j := by omega
      have n2 : ¬ j = 24 + a2.toNat + a4.toNat + a6.toNat := by omega
      have n3 : ¬ j < Config.headerLen := by show ¬ j < 24; omega
      have n4 : ¬ j < Config.headerLen + a2.toNat := by show ¬ j < 24 + _; omega
      have n5 : ¬ j < Config.headerLen + a2.toNat + a4.toNat := by show ¬ j < 24 + _ + _; omega
      have ht : P.take j = Mem.bytes d.draws a1 0 24 ++ Mem.bytes d.draws a3 0 a2.toNat ++ Mem.bytes d.draws a5 0 a4.toNat ++ Mem.bytes d.draws a7 0 (j - 24 - a2.toNat - a4.toNat) := by
        rw [← hPP, take_in _ _ _ (by simp; omega), mem_take _ _ _ _ (by simp; omega)]
        simp [Nat.sub_sub, Nat.add_assoc]
      simp only [packetPlace, if_neg n1, if_neg n2, if_neg n3, if_neg n4, if_neg n5, ht]
      refine (if_pos c1).trans ?_
      refine (if_pos c2).trans ?_
      refine (if_pos c3).trans ?_
      refine (if_neg c4).trans ?_
      cases fl <;> rfl
    refine (if_pos c1).trans ?_
    refine (if_pos c2).trans ?_
    refine (if_pos c3).trans ?_
    refine (if_pos c4).trans ?_
    by_cases c5 : j = 24 + a2.toNat + a4.toNat + a6.toNat
    · have n1 : ¬ 24 + a2.toNat + a4.toNat + a6.toNat < j := by omega
      have ht : P.take j = P := List.take_of_length_le (by omega)
      have hj : j - 24 - a2.toNat - a4.toNat - a6.toNat = 0 := by omega
      simp only [if_neg n1, if_pos c5, ht]
      cases fl
      · simp only [sendResult, Buffers.len, Config.headerLen, State.setEnv, State.setTxq]
        rw [hj]
        simp only [List.nil_append]
        rw [← hPP]
        rfl
      · simp only [sendResult, Buffers.len, Config.headerLen, State.setEnv, State.setTxq]
        rw [hj]
        simp only [List.nil_append]
        rw [← hPP]
        rfl
    · have n1 : 24 + a2.toNat + a4.toNat + a6.toNat < j := by omega
      obtain ⟨i, hi⟩ : ∃ i, j - 24 - a2.toNat - a4.toNat - a6.toNat = i + 1 := ⟨j - 24 - a2.toNat - a4.toNat - a6.toNat - 1, by omega⟩
      have hii : j - (24 + a2.toNat + a4.toNat + a6.toNat + 1) = i := by omega
      rw [if_pos n1, hii]
      simp only [sendResult, Buffers.len, Config.headerLen, State.setEnv, State.setTxq]
      rw [hi]
      simp only [List.nil_append]
      rw [← hPP]
      rfl

end Sys2Proof.Machine
end

