-- ==== Sys2Proof/WellFormed.lean ====
section
/-! DEFINITION. Which instructions are well-formed. Every command word is (R91: `arg` is any 32-bit number). A header is when
it is legal in the sense of rule R102: its magic is the format's own, so one check remains, on its lengths. The machine loads
an ill-formed header all the same: a decode then answers it with `MALFORMED_LENGTH` (R97). -/

namespace Sys2Proof

/-- The length check of R97 and R102: the declared total covers the key and the extras. -/
def lengthsLegal (keyLen : Half) (extLen : Byte) (totLen : Word) : Bool :=
  decide (keyLen.toNat + extLen.toNat ≤ totLen.toNat)

/-- Well-formed instructions (R91, R102). -/
def Instr.wellFormed : Instr → Bool
  | .cfgmax _ => true
  | .ldhdr _ => true
  | .decreq _ => true
  | .decrsp _ => true
  | .rdframe _ => true
  | .rxreq _ => true
  | .rxrsp _ => true
  | .encreq _ => true
  | .encrsp _ => true
  | .txreq _ => true
  | .txrsp _ => true
  | .hdrReq h => lengthsLegal h.keyLen h.extLen h.totLen
  | .hdrRsp h => lengthsLegal h.keyLen h.extLen h.totLen

end Sys2Proof
end

