-- ==== Sys2Proof/Tests/Slice0.lean ====
section
/-! SUPPORT. The model's own tests. Every expected value is one of spec/95_test_vectors.md (named V<n>, P<n>) or a word written
out from R91, R92 and R100. Then, for each statement with hypotheses, a state and operands that meet them. -/

namespace Sys2Proof.Tests

open Sys2Proof.Machine

/-! ## The reference packets (part 2 of the vectors) -/

/-- `HDR1`. -/
def hdr1 : List Byte :=
  [0x80#8, 0x01#8, 0x00#8, 0x03#8, 0x08#8, 0x00#8, 0x00#8, 0x05#8, 0x00#8, 0x00#8, 0x00#8, 0x0E#8] ++
  [0x12#8, 0x34#8, 0x56#8, 0x78#8, 0x00#8, 0x00#8, 0x00#8, 0x00#8, 0x00#8, 0x00#8, 0x00#8, 0x2A#8]

/-- The extras, the key and the value of `REQ1`. -/
def ext1 : List Byte := [0x00#8, 0x00#8, 0x00#8, 0x07#8, 0x00#8, 0x00#8, 0x0E#8, 0x10#8]
def key1 : List Byte := [0x66#8, 0x6F#8, 0x6F#8]
def val1 : List Byte := [0x62#8, 0x61#8, 0x72#8]

/-- `FRM1`. -/
def frm1 : List Byte := ext1 ++ key1 ++ val1

/-- `RSP2`. -/
def rsp2 : List Byte :=
  [0x81#8, 0x10#8, 0x00#8, 0x03#8, 0x00#8, 0xAB#8, 0x00#8, 0x01#8, 0x00#8, 0x00#8, 0x00#8, 0x08#8] ++
  [0x00#8, 0x00#8, 0x00#8, 0x07#8, 0x00#8, 0x00#8, 0x00#8, 0x00#8, 0x00#8, 0x00#8, 0x00#8, 0x00#8]

/-- The header of V17, whose total is below its key and extras lengths. -/
def hdr17 : List Byte := hdr1.set 11 0x0A#8

/-! ## Start states -/

/-- The reset state on a stream that delivers these bytes and then ends. -/
def onStream (bs : List Byte) : State :=
  State.reset.setEnv ⟨bs, true, .takesAll, []⟩

/-- The reset state with a header loaded by the host. -/
def withHeader (bs : List Byte) : State := hostLoad 0x23 bs State.reset

/-- After V12, with `FRM1` left in the stream; written out from the vector. -/
def decoded1 : State := { State.reset with
  h := ⟨0x80#8, 0x01#8, 3#16, 8#8, 5#16, 0#16, 14#32, 0x12345678#32, 0x2A#64, 3#32⟩
  buf := { State.reset.buf with hdr := Mem.ofBytes 0 hdr1 }
  flags := ⟨false, true, true, true, false, false⟩
  errs := ⟨⟨.none, .idle, 0x11#8⟩, 0, 0⟩
  cmdreg := 0x11#8
  env := ⟨frm1, true, .takesAll, []⟩ }

/-- After `LOAD1` (part 3.4), with the given sink. -/
def loaded1 (k : Sink) : State := { State.reset with
  h := ⟨0#8, 0x01#8, 0#16, 0#8, 5#16, 0#16, 0#32, 0x12345678#32, 42#64, 0#32⟩
  buf := ⟨[], 8#8, Mem.ofBytes 0 ext1, 3#16, Mem.ofBytes 0 key1, 3#32, Mem.ofBytes 0 val1⟩
  env := ⟨[], false, k, []⟩ }

/-- V76: `RXREQ` in flight after ten bytes. -/
def waiting10 : State := inFlight .hdrRx 10 0x14#8 { State.reset with buf := { State.reset.buf with hdr := Mem.ofBytes 0 (hdr1.take 10) } }

/-- A dead link after V11. -/
def deadLink : State := endedError .shortHeader .hdrRx 0x10#8 23 { State.reset with
  buf := { State.reset.buf with hdr := Mem.ofBytes 0 (hdr1.take 23) }, env := ⟨[], true, .takesAll, []⟩ }

/-- The host's next move. -/
def next (i : Input) (s : State) : State := s.setDrv { s.drv with inputs := [i] }

/-- The outcome is a next state with this property. -/
def nextHas (o : Host.Outcome State Fault Refusal) (p : State → Bool) : Bool :=
  match o with
  | .next t => p t
  | .fault _ => false
  | .refused _ => false

/-- `CSR`, `ERR`, `ERRINFO`, `ERRSTICKY` as numbers. -/
def status (s : State) : List Nat :=
  [(csrWord s.flags).toNat, (errWord s.errs.err).toNat, s.errs.info.toNat, s.errs.sticky.toNat]

/-! ## Well-formed instructions (R91, R102) -/

/-- The one check of `wellFormed`: a request header with total 10 for 3 + 8 bytes is refused (V17), one with total 11 is not (V18). -/
theorem test_wellFormed_request : Instr.wellFormed (.hdrReq ⟨1, 3, 8, 0, 5, 10, 0, 0⟩) = false ∧
    Instr.wellFormed (.hdrReq ⟨1, 3, 8, 0, 5, 11, 0, 0⟩) = true := by decide
theorem test_wellFormed_response : Instr.wellFormed (.hdrRsp ⟨1, 3, 8, 0, 5, 10, 0, 0⟩) = false ∧
    Instr.wellFormed (.hdrRsp ⟨1, 3, 8, 0, 5, 11, 0, 0⟩) = true := by decide

/-! ## Decoding (R91, R92, R100): words written out from the spec -/

/-- `CFGMAX 4096`, bit by bit: code 0x01, then 4096 with bit 12 set. -/
theorem test_decode_cfgmax : decode [0b00000001#8, 0b00000000#8, 0b00000000#8, 0b00010000#8, 0b00000000#8] = .ok (.cfgmax 4096) := by decide
/-- Codes 0b00010000 to 0b00010101, with `arg` 1, 2, ... in its last byte. -/
theorem test_decode_ldhdr : decode [0b00010000#8, 0b00000000#8, 0b00000000#8, 0b00000000#8, 0b00000001#8] = .ok (.ldhdr 1) := by decide
theorem test_decode_decreq : decode [0b00010001#8, 0b00000000#8, 0b00000000#8, 0b00000000#8, 0b00000010#8] = .ok (.decreq 2) := by decide
theorem test_decode_decrsp : decode [0b00010010#8, 0b00000000#8, 0b00000000#8, 0b00000000#8, 0b00000011#8] = .ok (.decrsp 3) := by decide
theorem test_decode_rdframe : decode [0b00010011#8, 0b00000000#8, 0b00000000#8, 0b00000000#8, 0b00000100#8] = .ok (.rdframe 4) := by decide
theorem test_decode_rxreq : decode [0b00010100#8, 0b00000000#8, 0b00000000#8, 0b00000000#8, 0b00000101#8] = .ok (.rxreq 5) := by decide
theorem test_decode_rxrsp : decode [0b00010101#8, 0b00000000#8, 0b00000000#8, 0b00000000#8, 0b00000110#8] = .ok (.rxrsp 6) := by decide
/-- Codes 0b00100001, 0b00100010, 0b00100100, 0b00100101, with `arg` in its first byte. -/
theorem test_decode_encreq : decode [0b00100001#8, 0b00000001#8, 0b00000000#8, 0b00000000#8, 0b00000000#8] = .ok (.encreq 0x01000000) := by decide
theorem test_decode_encrsp : decode [0b00100010#8, 0b00000010#8, 0b00000000#8, 0b00000000#8, 0b00000000#8] = .ok (.encrsp 0x02000000) := by decide
theorem test_decode_txreq : decode [0b00100100#8, 0b00000011#8, 0b00000000#8, 0b00000000#8, 0b00000000#8] = .ok (.txreq 0x03000000) := by decide
theorem test_decode_txrsp : decode [0b00100101#8, 0b00000100#8, 0b00000000#8, 0b00000000#8, 0b00000000#8] = .ok (.txrsp 0x04000000) := by decide
/-- `HDR1` and `RSP2`, field by field from the tables of R92 to R94. -/
theorem test_decode_hdrReq : decode hdr1 = .ok (.hdrReq ⟨0x01, 3, 8, 0, 5, 14, 0x12345678, 42⟩) := by decide
theorem test_decode_hdrRsp : decode rsp2 = .ok (.hdrRsp ⟨0x10, 3, 0, 0xAB, 1, 8, 7, 0⟩) := by decide
/-- What is no instruction is rejected by name: code 0x23 (V81), magic 0x7F (V19), four bytes. -/
theorem test_decode_rejects : decode [0x23#8, 0#8, 0#8, 0#8, 0#8] = .error (.unknownCode 0x23#8) ∧
    decode (hdr1.set 0 0x7F#8) = .error (.noHeaderMagic 0x7F#8) ∧ decode [0x01#8, 0#8, 0#8, 0#8] = .error (.badLength 4) := by decide
/-- The encoder writes the words of V1 and of `HDR1`. -/
theorem test_encode : encode (.cfgmax 4096) = [0x01#8, 0x00#8, 0x00#8, 0x10#8, 0x00#8] ∧
    encode (.hdrReq ⟨0x01, 3, 8, 0, 5, 14, 0x12345678, 42⟩) = hdr1 := by decide

/-! ## One step of each instruction -/

/-- V1. -/
theorem test_cfgmax : nextHas (exec (.cfgmax 4096) State.reset)
    (fun t => status t == [0x02, 0x00010000, 0, 0] && t.maxbody == 4096) = true := by decide
/-- V5: above every `VALCAP`. -/
theorem test_cfgmax_refused : nextHas (exec (.cfgmax 4294967295) State.reset)
    (fun t => status t == [0x02, 0x00010036, 0xFFFFFFFF, 0x40] && t.maxbody == 1000000) = true := by decide
/-- V10. -/
theorem test_ldhdr : nextHas (exec (.ldhdr 0) (onStream (hdr1 ++ frm1)))
    (fun t => status t == [0x06, 0x00100000, 0, 0] && hdrBytes t == hdr1 && t.env.rx == frm1 && t.h == State.reset.h) = true := by decide
/-- V11. -/
theorem test_ldhdr_short : nextHas (exec (.ldhdr 0) (onStream (hdr1.take 23)))
    (fun t => status t == [0x22, 0x00100123, 23, 0x08] && t.buf.hdr == Mem.ofBytes 0 (hdr1.take 23)) = true := by decide
/-- V12. -/
theorem test_decreq : nextHas (exec (.decreq 0) (withHeader hdr1))
    (fun t => status t == [0x0E, 0x00110000, 0, 0] &&
      t.h == ⟨0x80#8, 0x01#8, 3#16, 8#8, 5#16, 0#16, 14#32, 0x12345678#32, 0x2A#64, 3#32⟩ && t.buf.keyLen == 0) = true := by decide
/-- V17. -/
theorem test_decreq_malformed : nextHas (exec (.decreq 0) (withHeader hdr17))
    (fun t => status t == [0x06, 0x00110205, 0x0A, 0x20] && t.h == State.reset.h) = true := by decide
/-- V16. -/
theorem test_decrsp : nextHas (exec (.decrsp 0) (withHeader rsp2))
    (fun t => status t == [0x0E, 0x00120000, 0, 0] && t.h == ⟨0x81#8, 0x10#8, 3#16, 0#8, 0#16, 1#16, 8#32, 7#32, 0#64, 5#32⟩) = true := by decide
/-- V13. -/
theorem test_decrsp_mismatch : nextHas (exec (.decrsp 0) (withHeader hdr1))
    (fun t => status t == [0x06, 0x00120201, 0x80, 0x02] && t.h == State.reset.h) = true := by decide
/-- V21. -/
theorem test_rdframe : nextHas (exec (.rdframe 0) decoded1)
    (fun t => status t == [0x16, 0x00130000, 0, 0] && bufferBytes .ext t == ext1 && bufferBytes .key t == key1 &&
      bufferBytes .val t == val1 && t.env.rx == []) = true := by decide
/-- V22a. -/
theorem test_rdframe_refused : nextHas (exec (.rdframe 0) State.reset)
    (fun t => status t == [0x02, 0x00130026, 0, 0x40]) = true := by decide
/-- V24: no byte beyond the packet. -/
theorem test_rxreq : nextHas (exec (.rxreq 0) (onStream (hdr1.set 11 0x0B#8 ++ frm1)))
    (fun t => status t == [0x16, 0x00140000, 0, 0] && t.h.valLen == 0 && bufferBytes .key t == key1 && t.env.rx == val1) = true := by decide
/-- V37. -/
theorem test_rxreq_incomplete : nextHas (exec (.rxreq 0) (onStream (hdr1 ++ frm1.take 5)))
    (fun t => status t == [0x26, 0x00140433, 5, 0x08] && t.buf.extLen == 8 && t.buf.ext == Mem.ofBytes 0 (ext1.take 5) &&
      t.buf.key == []) = true := by decide
/-- V26. -/
theorem test_rxrsp_mismatch : nextHas (exec (.rxrsp 0) (onStream (hdr1.set 0 0x00#8 ++ frm1)))
    (fun t => status t == [0x06, 0x00150201, 0, 0x02] && t.env.rx == frm1) = true := by decide
/-- P4, step 3: `r1`, key "pid", value "42". -/
theorem test_rxrsp : nextHas (exec (.rxrsp 0) (onStream ((rsp2.set 5 0x00#8).set 7 0x00#8 |>.set 11 0x05#8 |>.set 15 0x09#8 |> (· ++
    [0x70#8, 0x69#8, 0x64#8, 0x34#8, 0x32#8]))))
    (fun t => status t == [0x16, 0x00150000, 0, 0] && bufferBytes .key t == [0x70#8, 0x69#8, 0x64#8] &&
      bufferBytes .val t == [0x34#8, 0x32#8]) = true := by decide
/-- V40. -/
theorem test_encreq : nextHas (exec (.encreq 0) (loaded1 .takesAll))
    (fun t => status t == [0x06, 0x00210000, 0, 0] && hdrBytes t == hdr1 && t.h == (loaded1 .takesAll).h) = true := by decide
/-- V44. -/
theorem test_encrsp : nextHas (exec (.encrsp 0) { State.reset with
      h := ⟨0#8, 0xFF#8, 0#16, 0#8, 0xFFFF#16, 0x1234#16, 0#32, 0xFFFFFFFF#32, 0xFFFFFFFFFFFFFFFF#64, 0#32⟩ })
    (fun t => status t == [0x06, 0x00220000, 0, 0] && hdrBytes t == [0x81#8, 0xFF#8, 0#8, 0#8, 0#8, 0#8, 0x12#8, 0x34#8, 0#8, 0#8, 0#8,
      0#8] ++ List.replicate 12 0xFF#8) = true := by decide
/-- V50. -/
theorem test_txreq : nextHas (exec (.txreq 0) (loaded1 .takesAll))
    (fun t => status t == [0x06, 0x00240000, 0, 0] && t.env.wire == hdr1 ++ frm1 && t.h == (loaded1 .takesAll).h) = true := by decide
/-- V54. -/
theorem test_txreq_fails : nextHas (exec (.txreq 0) (loaded1 (.takes 30 true)))
    (fun t => status t == [0x26, 0x00240943, 6, 0x08] && t.txq == []) = true := by decide
/-- V49. -/
theorem test_txrsp : nextHas (exec (.txrsp 0) State.reset)
    (fun t => status t == [0x06, 0x00250000, 0, 0] && t.env.wire == 0x81#8 :: List.replicate 23 0x00#8) = true := by decide
/-- R69, by the example of V57 for a response: the flush fails. -/
theorem test_txrsp_flush_fails : nextHas (exec (.txrsp 0) (loaded1 (.takes 38 true)))
    (fun t => status t == [0x26, 0x00250C53, 0, 0x08]) = true := by decide
/-- P6, step 1. -/
theorem test_hdrReq : nextHas (exec (.hdrReq ⟨0x01, 3, 8, 0, 5, 14, 0x12345678, 42⟩) State.reset)
    (fun t => status t == [0x04, 0, 0, 0] && t.h == State.reset.h && hdrBytes t == hdr1) = true := by decide
/-- V75: `RSP1` loaded after V12; nothing is decoded, whichever direction the header is of. -/
theorem test_hdrRsp : nextHas (exec (.hdrRsp ⟨0x01, 0, 0, 0, 0, 0, 0x12345678, 43⟩) decoded1)
    (fun t => (csrWord t.flags).toNat == 0x06 && t.h == decoded1.h && t.errs == decoded1.errs) = true := by decide

/-! ## The host, the streams, reset -/

/-- V80 to V82, by the word. -/
theorem test_unknown_code : nextHas (step (next (.word [0x00#8, 0#8, 0#8, 0xCA#8, 0xFE#8]) State.reset))
    (fun t => status t == [0x02, 0x00000016, 0xCAFE, 0x40]) = true := by decide
/-- V76: what the host reads while `RXREQ` waits; the command it gives is dropped. -/
theorem test_busy : ([0x00, 0x12, 0x13, 0x01, 0x09].map fun n => (hostRead n waiting10).drv.answer) =
      [some (.reg 32 1), some (.reg 4 1), some (.reg 32 10), some (.reg 32 0x00140000), some .refused] ∧
    nextHas (exec (.rxreq 0) waiting10) (fun t => t == waiting10) = true := by decide
/-- V60 to V66. -/
theorem test_host_registers : (hostRead 0x04 State.reset).drv.answer = some (.reg 32 1000000) ∧
    (hostWrite 0x0F 0xDEADBEEF State.reset).h.opq = 0xDEADBEEF ∧ (hostWrite 0x0A 3 State.reset).drv.answer = some .refused ∧
    (hostWrite 0x09 0x100 State.reset).drv.answer = some .refused ∧ (hostRead 0x05 State.reset).drv.answer = some .refused := by decide
/-- V67, V70, V71, V72. -/
theorem test_host_buffers : (hostLoad 0x21 key1 State.reset).buf.keyLen = 3 ∧
    (hostDump 0x21 (hostLoad 0x21 key1 State.reset)).drv.answer = some (.bytes key1) ∧
    (hostLoad 0x23 (hdr1.take 23) State.reset).drv.answer = some .refused ∧ (hostDump 0x23 State.reset).drv.answer = some .refused ∧
    (hostDump 0x22 State.reset).drv.answer = some (.bytes []) := by decide
/-- V90, V91: the block is as after reset, the stream is where it was. -/
theorem test_reset : nextHas (step (next .reset (waiting10.setEnv { waiting10.env with rx := frm1 })))
    (fun t => t == State.reset.setEnv { State.reset.env with rx := frm1 }) = true := by decide
/-- R221 and R6: nothing to do is a step that changes nothing. -/
theorem test_idle : nextHas (step State.reset) (fun t => t == State.reset) = true := by decide

/-! ## Witnesses: for each statement with hypotheses, a state and operands that meet them -/

theorem sections_of {s : State} (he : ∃ bs : List Byte, s.buf.ext = Mem.ofBytes 0 bs ∧ bs.length = s.buf.extLen.toNat)
    (hk : ∃ bs : List Byte, s.buf.key = Mem.ofBytes 0 bs ∧ bs.length = s.buf.keyLen.toNat)
    (hv : ∃ bs : List Byte, s.buf.val = Mem.ofBytes 0 bs ∧ bs.length = s.buf.valLen.toNat) (b : BufName) (hb : b ≠ .hdr) :
    sectionComplete b s.buf := by
  obtain ⟨x, hx, lx⟩ := he
  obtain ⟨y, hy, ly⟩ := hk
  obtain ⟨z, hz, lz⟩ := hv
  cases b
  · exact absurd rfl hb
  · simp only [sectionComplete, Buffers.mem, Buffers.len, hx]; exact Mem.definedTo_ofBytes (by omega)
  · simp only [sectionComplete, Buffers.mem, Buffers.len, hy]; exact Mem.definedTo_ofBytes (by omega)
  · simp only [sectionComplete, Buffers.mem, Buffers.len, hz]; exact Mem.definedTo_ofBytes (by omega)

/-- The invariants hold after `LOAD1`. -/
theorem witness_inv_loaded (k : Sink) : Inv (loaded1 k) := by
  have hmin : (1000000 : Nat) ≤ Config.valcap := Config.valcapMin_le
  have hs := sections_of (s := loaded1 k) ⟨ext1, rfl, rfl⟩ ⟨key1, rfl, rfl⟩ ⟨val1, rfl, rfl⟩
  apply Inv.ofIdle
  · rfl
  · rfl
  · rfl
  · exact hmin
  · exact Nat.le_trans (show (3#32).toNat ≤ 1000000 by decide) hmin
  · intro b; cases b <;> simp only [loaded1, Buffers.mem] <;> first | exact Mem.wf_nil | exact Mem.wf_ofBytes _ _
  · intro b; cases b <;> simp only [loaded1, Buffers.mem, Buffers.len] <;> decide
  · left; rfl
  · rfl
  · rfl
  · intro _; rfl
  · rfl
  · show (0#8) &&& 0#8 = 0#8; decide
  · show (0#8) &&& 0x91#8 = 0; decide
  · intro h; cases h
  · intro h; cases h
  · intro h; cases h
  · intro h; cases h
  · intro _; exact hs

/-- After V12, but for the values of the header field registers. -/
def decodedAs (h : HeaderRegs) : State := decoded1.setH h

/-- The invariants hold after V12, with whatever lengths add up. -/
theorem witness_inv_decoded (h : HeaderRegs) (hm : h.magic = Config.reqMagic)
    (hl : h.totLen.toNat = h.extLen.toNat + h.keyLen.toNat + h.valLen.toNat) : Inv (decodedAs h) := by
  have hmin : (1000000 : Nat) ≤ Config.valcap := Config.valcapMin_le
  have hs := sections_of (s := decodedAs h) ⟨[], rfl, rfl⟩ ⟨[], rfl, rfl⟩ ⟨[], rfl, rfl⟩
  apply Inv.ofIdle
  · rfl
  · rfl
  · rfl
  · exact hmin
  · exact Nat.zero_le _
  · intro b; cases b <;> first | exact Mem.wf_nil | exact Mem.wf_ofBytes _ _
  · show ∀ b, ∀ x ∈ Buffers.mem b decoded1.buf, x.1 < Buffers.len b decoded1.buf; intro b; cases b <;> decide
  · exact .inr (.inl hm)
  · exact hl
  · rfl
  · intro _; rfl
  · rfl
  · show (0#8) &&& 0#8 = 0#8; decide
  · show (0#8) &&& 0x91#8 = 0; decide
  · intro h; cases h
  · intro _; exact Mem.definedTo_ofBytes (by decide)
  · intro _; rfl
  · intro h; cases h
  · intro _; exact hs

/-- The invariants hold after V12. -/
theorem witness_inv_decoded1 : Inv decoded1 := witness_inv_decoded decoded1.h rfl (by decide)

/-- EncodeInvertsDecode. -/
theorem witness_EncodeInvertsDecode : decode [0x25#8, 0xFF#8, 0#8, 0#8, 0xFF#8] = .ok (.txrsp 0xFF0000FF) := by decide
/-- UnknownCodesAreRefused, at both ends of the range and next to the codes. -/
theorem witness_UnknownCodesAreRefused : (∀ c ∈ [0x00#8, 0x02#8, 0x0F#8, 0x16#8, 0x20#8, 0x23#8, 0x26#8, 0xFF#8], c ∉ Code.all) ∧
    (next (.word (encodeCommand 0x23#8 7)) State.reset).drv.inputs = .word (encodeCommand 0x23#8 7) :: [] ∧
    State.reset.flags.busy = false := by decide
/-- StepExecutesDecodedWord. -/
theorem witness_StepExecutesDecodedWord : (next (.word hdr1) State.reset).drv.inputs = .word hdr1 :: [] ∧
    decode hdr1 = .ok (.hdrReq ⟨0x01, 3, 8, 0, 5, 14, 0x12345678, 42⟩) := by decide
/-- PlacedTableWordRuns. -/
theorem witness_PlacedTableWordRuns : decodeTableWord 40 0x2400000000 = some (.txreq 0) := by decide
/-- StepTakesEveryOtherMove. -/
theorem witness_StepTakesEveryOtherMove : (next (.hrd 4) State.reset).drv.inputs = .hrd 4 :: [] ∧ (∀ bytes, Input.hrd 4 ≠ .word bytes) ∧
    State.reset.drv.inputs = [] := ⟨rfl, fun _ h => (by cases h), rfl⟩
/-- StepKeepsInvariant. -/
theorem witness_StepKeepsInvariant : ∃ s : State, Inv s ∧ nextHas (step s) (fun t => t.flags.fok) = true :=
  ⟨next (.word [0x13#8, 0#8, 0#8, 0#8, 0#8]) decoded1, witness_inv_decoded1.setDrv _, by decide⟩
/-- ResetRestoresBlock, with a command in flight. -/
theorem witness_ResetRestoresBlock : (next .reset waiting10).drv.inputs = .reset :: [] ∧ waiting10.flags.busy = true := by decide
/-- ErrorRecordsPersist, with a bit set already and the link dead, and a step that sets another. -/
theorem witness_ErrorRecordsPersist : ∃ s : State, s.drv.inputs.head? ≠ some .reset ∧ s.flags.dead = true ∧ s.errs.sticky = 0x08#8 ∧
    nextHas (step s) (fun t => t.errs.sticky == 0x48#8) = true :=
  ⟨next (.word [0x99#8, 0#8, 0#8, 0#8, 1#8]) deadLink, by decide, by decide, by decide, by decide⟩
/-- OnlyCfgmaxWritesMaxbody. -/
theorem witness_OnlyCfgmaxWritesMaxbody : ∃ s : State, nextHas (step s) (fun t => t.maxbody ≠ s.maxbody) = true :=
  ⟨next (.word [0x01#8, 0#8, 0#8, 0x10#8, 0#8]) State.reset, by decide⟩
/-- OnlyDecodeWritesLengthRegisters: a micro-step that decodes, one that does not, and a host access. -/
theorem witness_OnlyDecodeWritesLengthRegisters :
    (microStep (accept 0x11#8 .decode (withHeader hdr1))).isSome = true ∧
    (microStep (waiting10.setEnv { waiting10.env with rx := [0#8] })).isSome = true ∧
    Input.hwr 9 1 ≠ .turn ∧ Input.hwr 9 1 ≠ .reset := by decide
/-- CommandsWhileBusyAreDropped. -/
theorem witness_CommandsWhileBusyAreDropped : waiting10.flags.busy = true := by decide
/-- DeadLinkStopsStreamCommands. -/
theorem witness_DeadLinkStopsStreamCommands : deadLink.flags.dead = true ∧ deadLink.flags.busy = false ∧
    deadLink.drv.inputs.head? ≠ some .reset ∧ nextHas (step deadLink) (fun _ => true) = true := by decide
/-- RefusalsAreRecorded, clause by clause. -/
theorem witness_RefusalsAreRecorded : State.reset.flags.busy = false ∧ State.reset.flags.hl = false ∧ State.reset.flags.dead = false ∧
    State.reset.flags.hv = false ∧ Config.valcap < (4294967295#32).toNat ∧
    (microStep (accept 0x11#8 .decode (withHeader hdr1))).isSome = true :=
  ⟨rfl, rfl, rfl, rfl, Nat.lt_of_le_of_lt Config.valcap_le_max (by decide), by decide⟩
/-- RaiseRecordsAndEnds, kind by kind. -/
theorem witness_RaiseRecordsAndEnds : Cause.magicMismatch.kind = 1 ∧ Cause.oversizedBody.kind = 2 ∧ Cause.linkDead.kind = 3 ∧
    Cause.malformedLength.kind = 5 := by decide
/-- WrongMagicIsReported: at the micro-step, and a loaded header, and one in the stream, for both directions. -/
theorem witness_WrongMagicIsReported :
    (accept 0x12#8 .decode (withHeader hdr1)).seq.phase = .decode ∧ byteOf (hdrBytes (accept 0x12#8 .decode (withHeader hdr1))) 0 ≠ magicOf 0x12#8 ∧
    (withHeader hdr1).flags = ⟨false, false, true, false, false, false⟩ ∧ (withHeader hdr1).drv.yields = [] ∧
    byteOf (hdrBytes (withHeader hdr1)) 0 ≠ 0x81#8 ∧ byteOf (hdrBytes (withHeader rsp2)) 0 ≠ 0x80#8 ∧
    24 ≤ (onStream hdr1).env.rx.length ∧ byteOf (onStream hdr1).env.rx 0 ≠ 0x81#8 ∧ byteOf (onStream rsp2).env.rx 0 ≠ 0x80#8 := by
  decide
/-- ImpossibleLengthIsReported: a total one below the sum, for a request and for a response. -/
theorem witness_ImpossibleLengthIsReported :
    (accept 0x11#8 .decode (withHeader hdr17)).seq.phase = .decode ∧
    byteOf (hdrBytes (accept 0x11#8 .decode (withHeader hdr17))) 0 = magicOf (accept 0x11#8 .decode (withHeader hdr17)).cmdreg ∧
    fieldAt (hdrBytes (withHeader hdr17)) 8 4 < fieldAt (hdrBytes (withHeader hdr17)) 2 2 + (byteOf (hdrBytes (withHeader hdr17)) 4).toNat ∧
    byteOf (hdrBytes (withHeader hdr17)) 0 = 0x80#8 ∧ (withHeader hdr17).flags.hl = true ∧
    fieldAt (rsp2.set 11 2#8) 8 4 < fieldAt (rsp2.set 11 2#8) 2 2 + (byteOf (rsp2.set 11 2#8) 4).toNat ∧
    byteOf (onStream (rsp2.set 11 2#8)).env.rx 0 = 0x81#8 ∧ (onStream (rsp2.set 11 2#8)).flags.dead = false := by decide
/-- OversizedBodyIsReported: a total one above the maximum (V28). -/
theorem witness_OversizedBodyIsReported :
    (accept 0x13#8 .check (decoded1.setMaxbody 13)).seq.phase = .check ∧
    (accept 0x13#8 .check (decoded1.setMaxbody 13)).maxbody.toNat < (accept 0x13#8 .check (decoded1.setMaxbody 13)).h.totLen.toNat ∧
    (decoded1.setMaxbody 13).flags = ⟨false, true, true, true, false, false⟩ ∧
    (decoded1.setMaxbody 13).maxbody.toNat < (decoded1.setMaxbody 13).h.totLen.toNat ∧
    24 ≤ (onStream hdr1).env.rx.length ∧ fieldAt hdr1 2 2 + (byteOf hdr1 4).toNat ≤ fieldAt hdr1 8 4 ∧
    ((onStream hdr1).setMaxbody 13).maxbody.toNat < fieldAt hdr1 8 4 ∧ byteOf hdr1 0 = 0x80#8 ∧
    fieldAt rsp2 2 2 + (byteOf rsp2 4).toNat ≤ fieldAt rsp2 8 4 ∧ ((onStream rsp2).setMaxbody 7).maxbody.toNat < fieldAt rsp2 8 4 ∧
    byteOf rsp2 0 = 0x81#8 := by decide
/-- CfgmaxSetsMaximum: the least `VALCAP` itself. -/
theorem witness_CfgmaxSetsMaximum : State.reset.flags.busy = false ∧ (1000000#32).toNat ≤ Config.valcap :=
  ⟨rfl, Config.valcapMin_le⟩
/-- LdhdrLoadsHeader, ReceiveAgreesWithBigStep, ReceiveIsLoadDecodeFrame, TransmitAgreesWithBigStep: an idle, live, uninterrupted
block. -/
theorem witness_idle : (onStream hdr1).flags.busy = false ∧ (onStream hdr1).flags.dead = false ∧ (onStream hdr1).drv.yields = [] ∧
    (onStream hdr1).txq = [] ∧ (onStream hdr1).env.rxEnded = true ∧ State.reset.env.rxEnded = false := by decide
/-- DecodeReadsHeader, LegalHeaderDecodes: a total equal to the sum (V18), and a response. -/
theorem witness_LegalHeaderDecodes : (withHeader (hdr1.set 11 0x0B#8)).flags.hl = true ∧
    fieldAt (hdrBytes (withHeader (hdr1.set 11 0x0B#8))) 2 2 + (byteOf (hdrBytes (withHeader (hdr1.set 11 0x0B#8))) 4).toNat ≤
      fieldAt (hdrBytes (withHeader (hdr1.set 11 0x0B#8))) 8 4 ∧
    byteOf (hdrBytes (withHeader (hdr1.set 11 0x0B#8))) 0 = 0x80#8 ∧ byteOf (hdrBytes (withHeader rsp2)) 0 = 0x81#8 := by decide
/-- RdframeReadsFrame, ReceivesComplete (second clause), RdframeIsOneShot. -/
theorem witness_RdframeReadsFrame : decoded1.flags.hv = true ∧ decoded1.flags.busy = false ∧ decoded1.flags.dead = false ∧
    decoded1.h.totLen.toNat = decoded1.h.extLen.toNat + decoded1.h.keyLen.toNat + decoded1.h.valLen.toNat ∧
    decoded1.h.totLen.toNat ≤ decoded1.maxbody.toNat ∧ decoded1.h.totLen.toNat ≤ decoded1.env.rx.length ∧
    nextHas (exec (.rdframe 0) decoded1) (fun t => !t.flags.busy && !t.flags.dead) = true := by decide
/-- ReceivesComplete (third clause): a request exactly at the maximum and exactly as long as the stream (V29), and a response. -/
theorem witness_ReceivesComplete : ((onStream (hdr1 ++ frm1)).setMaxbody 14).maxbody.toNat = fieldAt (hdr1 ++ frm1) 8 4 ∧
    24 + fieldAt (hdr1 ++ frm1) 8 4 = (hdr1 ++ frm1).length ∧ byteOf (hdr1 ++ frm1) 0 = 0x80#8 ∧
    24 + fieldAt (rsp2 ++ ext1) 8 4 ≤ (rsp2 ++ ext1).length ∧ fieldAt (rsp2 ++ ext1) 8 4 ≤ State.reset.maxbody.toNat ∧
    fieldAt (rsp2 ++ ext1) 2 2 + (byteOf (rsp2 ++ ext1) 4).toNat ≤ fieldAt (rsp2 ++ ext1) 8 4 ∧ byteOf (rsp2 ++ ext1) 0 = 0x81#8 := by
  decide
/-- ReceivedLengthsAddUp: the last micro-step of a frame read, and a whole one. -/
theorem witness_ReceivedLengthsAddUp : Inv decoded1 ∧ decoded1.flags.busy = false ∧
    nextHas (exec (.rdframe 0) decoded1) (fun t => endedWell t) = true ∧
    (∃ s : State, Inv s ∧ s.cmdreg ∈ [Code.rdframe, Code.rxreq, Code.rxrsp] ∧ ((microStep s).map endedWell) = some true) := by
  refine ⟨witness_inv_decoded1, rfl, by decide, accept Code.rdframe .check (decodedAs ⟨0x80#8, 0, 0, 0, 0, 0, 0, 0, 0, 0⟩), ?_, by decide, by decide⟩
  exact (witness_inv_decoded _ rfl (by decide)).accept_inv rfl (.inr (.inr (.inl ⟨rfl, rfl⟩))) rfl (fun _ => rfl)
/-- RaisedMaximumReadsRejectedFrame (the variant of P3, with `REQ1` and the maxima 13 and 14). -/
theorem witness_RaisedMaximumReadsRejectedFrame : ((onStream (hdr1 ++ frm1)).setMaxbody 13).maxbody.toNat < fieldAt (hdr1 ++ frm1) 8 4 ∧
    fieldAt (hdr1 ++ frm1) 8 4 ≤ (14#32).toNat ∧ (14#32).toNat ≤ Config.valcap ∧ byteOf (hdr1 ++ frm1) 0 = 0x80#8 ∧
    24 + fieldAt (hdr1 ++ frm1) 8 4 ≤ (hdr1 ++ frm1).length ∧
    fieldAt (hdr1 ++ frm1) 2 2 + (byteOf (hdr1 ++ frm1) 4).toNat ≤ fieldAt (hdr1 ++ frm1) 8 4 :=
  ⟨by decide, by decide, Nat.le_trans (by decide) Config.valcapMin_le, by decide, by decide, by decide⟩
/-- PassThroughFieldsDoNotSteerReceive: the opcode, the reserved byte and the last byte of the value are others. -/
theorem witness_PassThroughFieldsDoNotSteerReceive :
    let r := (((hdr1 ++ frm1).set 1 0xEE#8).set 5 0x11#8).set 37 0x00#8
    r.length = (onStream (hdr1 ++ frm1)).env.rx.length ∧ r ≠ (onStream (hdr1 ++ frm1)).env.rx ∧
    ∀ i ∈ [0, 2, 3, 4, 8, 9, 10, 11], byteOf r i = byteOf (onStream (hdr1 ++ frm1)).env.rx i := by decide
/-- EncodeBuildsHeader, EncodedTotalIsExact. -/
theorem witness_EncodedTotalIsExact : (loaded1 .takesAll).flags.busy = false ∧ (loaded1 .takesAll).drv.yields = [] ∧
    (loaded1 .takesAll).buf.valLen.toNat ≤ Config.valcap := ⟨rfl, rfl, (witness_inv_loaded _).valLen_le⟩
/-- TransmitsComplete: a sink that takes all, and one that takes the 38 pushes and the flush and no more. -/
theorem witness_TransmitsComplete : (loaded1 .takesAll).env.sink = .takesAll ∧ (loaded1 (.takes 39 true)).env.sink = .takes 39 true ∧
    25 + Buffers.total (loaded1 (.takes 39 true)).buf ≤ 39 ∧ (loaded1 .takesAll).txq = [] ∧ (loaded1 .takesAll).flags.dead = false := by
  decide
/-- WireLaws: a transmit that ends ok, one that fails (V57), one given while busy, one on a dead link, another command. -/
theorem witness_WireLaws : Inv (loaded1 .takesAll) ∧ Inv (loaded1 (.takes 38 true)) ∧
    nextHas (exec (.txreq 0) (loaded1 .takesAll)) (fun t => !t.flags.busy && t.errs.err.cause == .none) = true ∧
    nextHas (exec (.txreq 0) (loaded1 (.takes 38 true))) (fun t => !t.flags.busy && t.errs.err.cause == .flushFail) = true ∧
    nextHas (exec (.txreq 0) waiting10) (fun t => t.flags.busy) = true ∧
    nextHas (exec (.txreq 0) deadLink) (fun t => t.flags.dead) = true ∧
    nextHas (exec (.encreq 0) (loaded1 .takesAll)) (fun _ => true) = true :=
  ⟨witness_inv_loaded _, witness_inv_loaded _, by decide, by decide, by decide, by decide, by decide⟩
/-- WireOnlyGrows, by a step that does grow it. -/
theorem witness_WireOnlyGrows : nextHas (step (next (.word [0x24#8, 0#8, 0#8, 0#8, 0#8]) (loaded1 .takesAll)))
    (fun t => t.env.wire.length == 38) = true := by decide
/-- TransmittedBytesAreDefined. -/
theorem witness_TransmittedBytesAreDefined : Inv (loaded1 .takesAll) ∧ (loaded1 .takesAll).flags.busy = false ∧
    (loaded1 .takesAll).flags.dead = false := ⟨witness_inv_loaded _, rfl, rfl⟩
/-- HeaderRowsDecode: legal and impossible, for both formats; 24 bytes that are a header and 24 that are none. -/
theorem witness_HeaderRowsDecode : (next (.word hdr1) State.reset).drv.inputs = .word hdr1 :: [] ∧ hdr1.length = 24 ∧
    (hdr1.set 0 0x7F#8).length = 24 ∧ (3#16).toNat + (8#8).toNat ≤ (11#32).toNat ∧ (10#32).toNat < (3#16).toNat + (8#8).toNat ∧
    State.reset.flags.busy = false ∧ State.reset.drv.yields = [] := by decide
/-- CodecCommandsFrame, command by command. -/
theorem witness_CodecCommandsFrame :
    ∀ i ∈ [Instr.cfgmax 5, .decreq 0, .decrsp 0, .encreq 0, .encrsp 0], nextHas (exec i decoded1) (fun _ => true) = true := by decide
/-- ReceiveCommandsFrame, command by command. -/
theorem witness_ReceiveCommandsFrame : decoded1.txq = [] ∧
    ∀ i ∈ [Instr.ldhdr 0, .rdframe 0, .rxreq 0, .rxrsp 0], nextHas (exec i decoded1) (fun _ => true) = true := by decide
/-- TransmitCommandsFrame, for both commands and the three kinds of sink. -/
theorem witness_TransmitCommandsFrame : ∀ i ∈ [Instr.txreq 0, .txrsp 0], ∀ k ∈ [Sink.takesAll, .takes 30 true, .takes 30 false],
    nextHas (exec i (loaded1 k)) (fun _ => true) = true := by decide
/-- OnlyReceivesConsume, for a command and a header. -/
theorem witness_OnlyReceivesConsume : (∀ i ∈ [Instr.txreq 0, .hdrReq ⟨1, 3, 8, 0, 5, 14, 0, 0⟩], ∀ a,
      i ∉ [Instr.ldhdr a, .rdframe a, .rxreq a, .rxrsp a]) ∧
    nextHas (exec (.hdrReq ⟨1, 3, 8, 0, 5, 14, 0, 0⟩) decoded1) (fun _ => true) = true := by
  refine ⟨?_, by decide⟩
  intro i hi a
  simp only [List.mem_cons, List.not_mem_nil, or_false] at hi
  rcases hi with rfl | rfl <;> simp
/-- EncodeThenDecodeRestores. -/
theorem witness_EncodeThenDecodeRestores : ∃ s : State, Inv s ∧ s.flags.busy = false ∧ s.drv.yields = [] :=
  ⟨loaded1 .takesAll, witness_inv_loaded _, rfl, rfl⟩
/-- The state an outcome gives; the start where it gives none. -/
def follow (i : Instr) (s : State) : State :=
  match exec i s with
  | .next t => t
  | .fault _ => s
  | .refused _ => s
/-- DecodeThenEncodeRestores: a request (P6), and a response whose reserved byte is not 0 (V47). -/
theorem witness_DecodeThenEncodeRestores :
    (let s := hostLoad 0x23 hdr1 (onStream frm1)
     s.flags.busy = false ∧ s.drv.yields = [] ∧ s.txq = [] ∧ endedWell (follow (.decreq 0) s) = true ∧
     endedWell (follow (.rdframe 0) (follow (.decreq 0) s)) = true ∧
     nextHas (exec (.encreq 0) (follow (.rdframe 0) (follow (.decreq 0) s))) (fun _ => true) = true) ∧
    (let s := hostLoad 0x23 rsp2 (onStream frm1)
     endedWell (follow (.decrsp 0) s) = true ∧ endedWell (follow (.rdframe 0) (follow (.decrsp 0) s)) = true ∧
     nextHas (exec (.encrsp 0) (follow (.rdframe 0) (follow (.decrsp 0) s))) (fun v => hdrBytes v == rsp2.set 5 0x00#8) = true) := by
  decide
/-- TransmitThenReceive, the maximum being exactly the total. -/
theorem witness_TransmitThenReceive : ∃ s r : State, Inv s ∧ s.flags.busy = false ∧ s.flags.dead = false ∧ s.drv.yields = [] ∧
    s.env.sink = .takesAll ∧ r.flags.busy = false ∧ r.flags.dead = false ∧ r.drv.yields = [] ∧ r.txq = [] ∧
    Buffers.total s.buf ≤ r.maxbody.toNat ∧ r.env.rx = packet 0x80#8 s ++ [0x55#8] :=
  ⟨loaded1 .takesAll, (onStream (packet 0x80#8 (loaded1 .takesAll) ++ [0x55#8])).setMaxbody 14, witness_inv_loaded _, rfl, rfl, rfl, rfl,
    rfl, rfl, rfl, rfl, by decide, rfl⟩
/-- HostReadsRegisters: idle and busy, a register that may be read, one that may not, and a number of none. -/
theorem witness_HostReadsRegisters : State.reset.flags.busy = false ∧ waiting10.flags.busy = true ∧
    0x09 ∉ [0x00, 0x01, 0x02, 0x03, 0x12, 0x13] ∧ (hostRegister 0x05 State.reset).isNone = true := by decide
/-- HostWritesFiveRegisters: a number outside the five. -/
theorem witness_HostWritesFiveRegisters : State.reset.flags.busy = false ∧ 0x0A ∉ [0x09, 0x0C, 0x0D, 0x0F, 0x10] := by decide
/-- HostLoadsBuffers: within and beyond every `VALCAP`. -/
theorem witness_HostLoadsBuffers : State.reset.flags.busy = false ∧ val1.length ≤ Config.valcap ∧
    Config.valcap < (List.replicate 4294901506 (0#8)).length := by
  refine ⟨rfl, Nat.le_trans (by decide) Config.valcapMin_le, ?_⟩
  rw [List.length_replicate]
  exact Nat.lt_of_le_of_lt Config.valcap_le_max (by decide)
/-- HostDumpsBuffers: `HL` set and clear. -/
theorem witness_HostDumpsBuffers : (withHeader hdr1).flags.busy = false ∧ (withHeader hdr1).flags.hl = true ∧
    State.reset.flags.hl = false := by decide
/-- RefusedAccessChangesNothing: a refusal of each access. -/
theorem witness_RefusedAccessChangesNothing : ∀ i ∈ [Input.hrd 0x09, .hwr 0x09 1, .bld 0x21 [], .brd 0x21],
    (move i waiting10).drv.answer = some .refused := by decide
/-- LoadThenDumpReturnsBytes, for each buffer. -/
theorem witness_LoadThenDumpReturnsBytes : ∀ e ∈ [(0x20, ext1), (0x21, key1), (0x22, val1), (0x23, hdr1)],
    (hostLoad e.1 e.2 State.reset).drv.answer = some .ok := by decide
/-- InterleavingDoesNotChangeOutcome, TurnEndsCommandOrWaits: a command in flight that has something to do. -/
theorem witness_TurnEndsCommandOrWaits : ∃ s : State, Inv s ∧ s.drv.yields = [] ∧ s.flags.busy = true ∧ s.env.rxEnded = true ∧
    s.env.sink = .takesAll ∧ (microStep s).isSome = true :=
  ⟨accept Code.rdframe .check decoded1,
    witness_inv_decoded1.accept_inv rfl (.inr (.inr (.inl ⟨rfl, rfl⟩))) rfl (fun _ => rfl), rfl, rfl, rfl, rfl, by decide⟩
/-- DirectionIsNamedByCommand: a request header under each of the two decode commands. -/
theorem witness_DirectionIsNamedByCommand : ∀ code ∈ [Code.decreq, Code.decrsp], Inv (accept code .decode decoded1) ∧
    (accept code .decode decoded1).seq.phase = .decode ∧ (microStep (accept code .decode decoded1)).isSome = true ∧
    byteOf (hdrBytes (accept code .decode decoded1)) 0 = 0x80#8 := by
  intro code hc
  simp only [List.mem_cons, List.not_mem_nil, or_false] at hc
  rcases hc with rfl | rfl <;>
    exact ⟨witness_inv_decoded1.accept_inv rfl (.inr (.inl ⟨rfl, rfl⟩)) rfl (fun _ => rfl), rfl, by decide, by decide⟩
/-- SplitDeliveryReceivesTheSame: the frame comes in two pieces. -/
theorem witness_SplitDeliveryReceivesTheSame : ∃ s : State, s.flags.busy = false ∧ s.drv.yields = [] ∧ s.env.rxEnded = false ∧
    nextHas (exec (.rxreq 0) (s.setEnv { s.env with rx := hdr1 ++ frm1.take 5 })) (fun t => t.flags.busy) = true :=
  ⟨State.reset, rfl, rfl, rfl, by decide⟩

end Sys2Proof.Tests
end

section
/-! Proofs of the statements about single steps and about the sequencer's turns (R5, R6, R43, R237; assumptions 6, 7). -/

namespace Sys2Proof.Machine

/-! ## One step -/

theorem nextInput_nil {s : State} (h : s.drv.inputs = []) : nextInput s = (.turn, s) := by
  simp only [nextInput, h]

theorem nextInput_cons {s : State} {i : Input} {rest : List Input} (h : s.drv.inputs = i :: rest) :
    nextInput s = (i, popped rest s) := by
  simp only [nextInput, h]
  rfl

/-- A move that is no word needs no decoding. -/
theorem step_of_move {s t : State} {i : Input} (h : nextInput s = (i, t)) (hi : ∀ bytes, i ≠ .word bytes) :
    step s = .next (move i t) := by
  cases i with
  | word bytes => exact absurd rfl (hi bytes)
  | _ => simp only [step, h]

/-- Settles O7: the head of the list is taken off and applied, and an empty list stands for the sequencer's turn. -/
theorem stepTakesEveryOtherMove : Obligations.StepTakesEveryOtherMove :=
  ⟨fun _ _ _ h hi => step_of_move (nextInput_cons h) hi,
   fun _ h => step_of_move (nextInput_nil h) (fun _ h' => by cases h')⟩

/-! ## What a micro-step is, by the kind of its phase (R41) -/

/-- The phases by what their micro-steps do: none, a pull, a push, or one of the four that move no byte of a buffer. -/
theorem Phase.kinds (p : Phase) : p = .idle ∨ (∃ b, p = rxPhase b) ∨ (∃ b, p = txPhase b) ∨
    p = .decode ∨ p = .check ∨ p = .encode ∨ p = .flush := by
  cases p with
  | idle => exact .inl rfl
  | hdrRx => exact .inr (.inl ⟨.hdr, rfl⟩)
  | extRx => exact .inr (.inl ⟨.ext, rfl⟩)
  | keyRx => exact .inr (.inl ⟨.key, rfl⟩)
  | valRx => exact .inr (.inl ⟨.val, rfl⟩)
  | hdrTx => exact .inr (.inr (.inl ⟨.hdr, rfl⟩))
  | extTx => exact .inr (.inr (.inl ⟨.ext, rfl⟩))
  | keyTx => exact .inr (.inr (.inl ⟨.key, rfl⟩))
  | valTx => exact .inr (.inr (.inl ⟨.val, rfl⟩))
  | decode => simp
  | check => simp
  | encode => simp
  | flush => simp

theorem microStep_idle {s : State} (h : s.seq.phase = .idle) : microStep s = none := by simp only [microStep, h]
theorem microStep_decode {s : State} (h : s.seq.phase = .decode) : microStep s = some (decodeStep s) := by
  simp only [microStep, h]
theorem microStep_check {s : State} (h : s.seq.phase = .check) : microStep s = some (checkStep s) := by
  simp only [microStep, h]
theorem microStep_encode {s : State} (h : s.seq.phase = .encode) : microStep s = some (encodeStep s) := by
  simp only [microStep, h]
theorem microStep_flush {s : State} (h : s.seq.phase = .flush) : microStep s = flushStep s := by
  simp only [microStep, h]

/-- Everything a micro-step can be. -/
theorem microStep_cases {s t : State} (h : microStep s = some t) :
    (∃ b, s.seq.phase = rxPhase b ∧ recvStep b s = some t) ∨ (∃ b, s.seq.phase = txPhase b ∧ sendStep b s = some t) ∨
    (s.seq.phase = .decode ∧ t = decodeStep s) ∨ (s.seq.phase = .check ∧ t = checkStep s) ∨
    (s.seq.phase = .encode ∧ t = encodeStep s) ∨ (s.seq.phase = .flush ∧ flushStep s = some t) := by
  rcases Phase.kinds s.seq.phase with hp | ⟨b, hp⟩ | ⟨b, hp⟩ | hp | hp | hp | hp
  · rw [microStep_idle hp] at h; cases h
  · exact .inl ⟨b, hp, microStep_rxPhase b hp ▸ h⟩
  · exact .inr (.inl ⟨b, hp, microStep_txPhase b hp ▸ h⟩)
  · rw [microStep_decode hp, Option.some.injEq] at h; simp [hp, h]
  · rw [microStep_check hp, Option.some.injEq] at h; simp [hp, h]
  · rw [microStep_encode hp, Option.some.injEq] at h; simp [hp, h]
  · rw [microStep_flush hp] at h; simp [hp, h]

/-- A pull brings a byte, or finds the end of the stream (R43). -/
theorem recvStep_cases {b : BufName} {s t : State} (h : recvStep b s = some t) :
    (∃ x rest, s.env.rx = x :: rest ∧ t = received b x (s.setEnv { s.env with rx := rest })) ∨
    t = raise (shortCause b s.seq.cnt) s.seq.cnt s := by
  simp only [recvStep] at h
  split at h
  · next x rest hrx => exact .inl ⟨x, rest, hrx, (Option.some.inj h).symm⟩
  · split at h
    · exact .inr (Option.some.inj h).symm
    · cases h

/-- A push is taken, or fails (R44). -/
theorem sendStep_cases {b : BufName} {s t : State} (h : sendStep b s = some t) :
    (∃ k, s.env.sink.answer = some (true, k) ∧ t = pushed b (s.setEnv { s.env with sink := k })) ∨
    t = raise .writeFail s.seq.cnt s := by
  simp only [sendStep] at h
  split at h
  · next k hk => exact .inl ⟨k, hk, (Option.some.inj h).symm⟩
  · exact .inr (Option.some.inj h).symm
  · cases h

/-- A flush is done, or fails (R44, R69). -/
theorem flushStep_cases {s t : State} (h : flushStep s = some t) :
    (∃ k, s.env.sink.answer = some (true, k) ∧
      t = finish ((s.setTxq []).setEnv { s.env with sink := k, wire := s.env.wire ++ s.txq })) ∨
    t = raise .flushFail 0 s := by
  simp only [flushStep] at h
  split at h
  · next k hk => exact .inl ⟨k, hk, (Option.some.inj h).symm⟩
  · exact .inr (Option.some.inj h).symm
  · cases h

/-- A decode is refused by the header, or goes on, or ends (R131). -/
theorem decodeStep_cases (s : State) : (∃ c i, decodeStep s = raise c i s) ∨
    ∃ h f, decodeStep s = enter .check ((s.setH h).setFlags f) ∨ decodeStep s = finish ((s.setH h).setFlags f) := by
  simp only [decodeStep]
  split
  · exact .inl ⟨_, _, rfl⟩
  · split
    · exact .inl ⟨_, _, rfl⟩
    · refine .inr ⟨decodedRegs (magicOf s.cmdreg) s, { s.flags with hv := true }, ?_⟩
      split
      · exact .inl rfl
      · exact .inr rfl

/-- After a section the next one that is not empty is received, or the frame is complete (R42). -/
theorem nextRecv_cases (l : List BufName) (s : State) :
    nextRecv l s = finish (s.setFlags { s.flags with fok := true }) ∨ ∃ b ∈ l, nextRecv l s = enter (rxPhase b) s := by
  induction l with
  | nil => exact .inl rfl
  | cons b l ih =>
    simp only [nextRecv]
    split
    · exact ih.imp_right fun ⟨c, hc, e⟩ => ⟨c, .tail _ hc, e⟩
    · exact .inr ⟨b, .head _, rfl⟩

/-- After a section the next one that is not empty is sent, or the flush comes (R42). -/
theorem nextSend_cases (l : List BufName) (s : State) :
    nextSend l s = enter .flush s ∨ ∃ b ∈ l, nextSend l s = enter (txPhase b) s := by
  induction l with
  | nil => exact .inl rfl
  | cons b l ih =>
    simp only [nextSend]
    split
    · exact ih.imp_right fun ⟨c, hc, e⟩ => ⟨c, .tail _ hc, e⟩
    · exact .inr ⟨b, .head _, rfl⟩

/-! ## What the shared operations leave of the environment, and where they put `SEQ` -/

@[simp] theorem enter_env (p : Phase) (s : State) : (enter p s).env = s.env := by cases p <;> rfl
@[simp] theorem enter_seq (p : Phase) (s : State) : (enter p s).seq = ⟨p, 0⟩ := by cases p <;> rfl
@[simp] theorem finish_env (s : State) : (finish s).env = s.env := rfl
@[simp] theorem finish_seq (s : State) : (finish s).seq = ⟨.idle, 0⟩ := rfl

@[simp] theorem raise_seq (c : Cause) (i : Word) (s : State) : (raise c i s).seq = ⟨.idle, 0⟩ := by
  obtain ⟨-, -, -, -, -, hseq, -⟩ := raise_fields c i s
  exact hseq

@[simp] theorem nextRecv_env (l : List BufName) (s : State) : (nextRecv l s).env = s.env := by
  rcases nextRecv_cases l s with e | ⟨b, -, e⟩ <;> simp [e]

@[simp] theorem nextSend_env (l : List BufName) (s : State) : (nextSend l s).env = s.env := by
  rcases nextSend_cases l s with e | ⟨b, -, e⟩ <;> simp [e]

@[simp] theorem endRecv_env (b : BufName) (s : State) : (endRecv b s).env = s.env := by
  by_cases hb : b = .hdr
  · subst hb
    simp only [endRecv]
    split <;> simp
  · simp [endRecv_section hb]

@[simp] theorem received_env (b : BufName) (x : Byte) (s : State) : (received b x s).env = s.env := by
  by_cases hn : s.seq.cnt.toNat + 1 = Buffers.len b s.buf
  · simp [received_last hn]
  · simp [received_part hn]

@[simp] theorem pushed_env (b : BufName) (s : State) : (pushed b s).env = s.env := by
  by_cases hn : s.seq.cnt.toNat + 1 = Buffers.len b s.buf
  · simp [pushed_last hn]
  · simp [pushed_part hn]

/-! ## An environment that answers everything (R66, R68) -/

/-- A sink that answers every push and flush: it takes them all, or fails at some time. -/
def Sink.answersAll (k : Sink) : Prop := k = .takesAll ∨ ∃ j, k = .takes j true

/-- An environment that answers every pull, push and flush. -/
def Env.answersAll (e : Env) : Prop := e.rxEnded = true ∧ e.sink.answersAll

/-- Such a sink answers, and stays such a sink. -/
theorem Sink.answersAll.answer {k : Sink} (h : k.answersAll) : ∃ ok k', k.answer = some (ok, k') ∧ k'.answersAll := by
  rcases h with rfl | ⟨_ | j, rfl⟩
  · exact ⟨true, .takesAll, rfl, .inl rfl⟩
  · exact ⟨false, .takes 0 true, rfl, .inr ⟨0, rfl⟩⟩
  · exact ⟨true, .takes j true, rfl, .inr ⟨j, rfl⟩⟩

theorem Sink.answersAll.of_answer {k k' : Sink} {ok : Bool} (h : k.answersAll) (e : k.answer = some (ok, k')) :
    k'.answersAll := by
  obtain ⟨_, _, e', h'⟩ := h.answer
  rw [e, Option.some.injEq, Prod.mk.injEq] at e'
  exact e'.2 ▸ h'

theorem Env.answersAll.raise {s : State} (h : s.env.answersAll) (c : Cause) (i : Word) :
    (Machine.raise c i s).env.answersAll := by
  obtain ⟨-, -, -, -, -, -, -, -, -, hended, hsink, -⟩ := raise_fields c i s
  exact ⟨hended ▸ h.1, hsink ▸ h.2⟩

/-- Such an environment stays one under a micro-step. -/
theorem Env.answersAll.microStep {s t : State} (h : s.env.answersAll) (hm : Machine.microStep s = some t) :
    t.env.answersAll := by
  rcases microStep_cases hm with ⟨b, -, e⟩ | ⟨b, -, e⟩ | ⟨-, rfl⟩ | ⟨-, rfl⟩ | ⟨-, rfl⟩ | ⟨-, e⟩
  · rcases recvStep_cases e with ⟨x, rest, -, rfl⟩ | rfl
    · simpa [Env.answersAll] using h
    · exact h.raise _ _
  · rcases sendStep_cases e with ⟨k, hk, rfl⟩ | rfl
    · simpa [Env.answersAll] using (⟨h.1, h.2.of_answer hk⟩ : s.env.rxEnded = true ∧ k.answersAll)
    · exact h.raise _ _
  · rcases decodeStep_cases s with ⟨c, i, e⟩ | ⟨r, f, e | e⟩
    · exact e ▸ h.raise c i
    · simpa [e] using h
    · simpa [e] using h
  · simp only [checkStep]
    split
    · exact h.raise _ _
    · simpa [allocate] using h
  · simp only [encodeStep]
    split <;> simpa using h
  · rcases flushStep_cases e with ⟨k, hk, rfl⟩ | rfl
    · exact ⟨h.1, h.2.of_answer hk⟩
    · exact h.raise _ _

/-- No micro-step of a command in flight waits for such an environment. -/
theorem Env.answersAll.microStep_ne_none {s : State} (h : s.env.answersAll) (hp : s.seq.phase ≠ .idle) :
    Machine.microStep s ≠ none := by
  obtain ⟨ok, k, hk, -⟩ := h.2.answer
  rcases Phase.kinds s.seq.phase with hp' | ⟨b, hp'⟩ | ⟨b, hp'⟩ | hp' | hp' | hp' | hp'
  · exact absurd hp' hp
  · rw [microStep_rxPhase b hp', recvStep]
    split <;> simp [h.1]
  · rw [microStep_txPhase b hp', sendStep, hk]
    cases ok <;> simp
  · simp [microStep_decode hp']
  · simp [microStep_check hp']
  · simp [microStep_encode hp']
  · rw [microStep_flush hp', flushStep, hk]
    cases ok <;> simp

/-! ## How many micro-steps are left -/

/-- The bytes of a packet from buffer `b` on (R98). -/
def bytesFrom (b : BufName) (B : Buffers) : Nat :=
  ((b :: laterSections b).map (fun c => Buffers.len c B)).sum

/-- The number of micro-steps a command in flight can still take: a receive takes a byte of the stream with each, but for those
of `DECODE` and `CHECK` and an error at the end of the stream; a transmit sends a byte with each, but for `ENCODE` and `FLUSH`. -/
def stepsLeft (s : State) : Nat :=
  match s.seq.phase with
  | .idle => 0
  | .hdrRx => s.env.rx.length + 3
  | .decode => s.env.rx.length + 3
  | .check => s.env.rx.length + 2
  | .extRx => s.env.rx.length + 1
  | .keyRx => s.env.rx.length + 1
  | .valRx => s.env.rx.length + 1
  | .encode => bytesFrom .hdr s.buf + 2
  | .hdrTx => bytesFrom .hdr s.buf - s.seq.cnt.toNat + 1
  | .extTx => bytesFrom .ext s.buf - s.seq.cnt.toNat + 1
  | .keyTx => bytesFrom .key s.buf - s.seq.cnt.toNat + 1
  | .valTx => bytesFrom .val s.buf - s.seq.cnt.toNat + 1
  | .flush => 1

theorem bytesFrom_hdr (B : Buffers) : bytesFrom .hdr B = Config.headerLen + Buffers.total B := by
  simp [bytesFrom, laterSections, Buffers.len, Buffers.total, Nat.add_assoc]

/-- What is left of a packet after a section is more than what is left after a later one. -/
theorem len_add_bytesFrom_le {b c : BufName} (h : c ∈ laterSections b) (B : Buffers) :
    Buffers.len b B + bytesFrom c B ≤ bytesFrom b B := by
  revert h
  cases b <;> cases c <;> simp [bytesFrom, laterSections]
  omega

theorem len_le_bytesFrom (b : BufName) (B : Buffers) : Buffers.len b B ≤ bytesFrom b B := by
  simp [bytesFrom]

theorem stepsLeft_idle {s : State} (h : s.seq.phase = .idle) : stepsLeft s = 0 := by simp only [stepsLeft, h]

theorem stepsLeft_rxPhase {b : BufName} {s : State} (h : s.seq.phase = rxPhase b) :
    stepsLeft s = s.env.rx.length + if b = .hdr then 3 else 1 := by
  cases b <;> simp only [rxPhase] at h <;> simp [stepsLeft, h]

theorem stepsLeft_txPhase {b : BufName} {s : State} (h : s.seq.phase = txPhase b) :
    stepsLeft s = bytesFrom b s.buf - s.seq.cnt.toNat + 1 := by
  cases b <;> simp only [txPhase] at h <;> simp [stepsLeft, h]

@[simp] theorem stepsLeft_finish (s : State) : stepsLeft (finish s) = 0 := stepsLeft_idle rfl
@[simp] theorem stepsLeft_raise (c : Cause) (i : Word) (s : State) : stepsLeft (raise c i s) = 0 := stepsLeft_idle (by simp)

/-- The bound of a turn is enough for every command. -/
theorem stepsLeft_le_stepBound (s : State) : stepsLeft s ≤ stepBound s := by
  simp only [stepBound]
  rcases Phase.kinds s.seq.phase with hp | ⟨b, hp⟩ | ⟨b, hp⟩ | hp | hp | hp | hp
  · rw [stepsLeft_idle hp]; omega
  · rw [stepsLeft_rxPhase hp]; split <;> omega
  · have hb : bytesFrom b s.buf ≤ bytesFrom .hdr s.buf := by
      by_cases h : b = .hdr
      · rw [h]
      · exact (Nat.le_add_left _ _).trans (len_add_bytesFrom_le (b := .hdr) (by cases b <;> simp_all [laterSections]) s.buf)
    rw [stepsLeft_txPhase hp]
    rw [bytesFrom_hdr] at hb
    omega
  · simp only [stepsLeft, hp]; omega
  · simp only [stepsLeft, hp]; omega
  · simp only [stepsLeft, hp, bytesFrom_hdr]; omega
  · simp only [stepsLeft, hp]; omega

theorem hdr_notMem_laterSections (b : BufName) : BufName.hdr ∉ laterSections b := by cases b <;> decide

/-- What is left when sections are still to be received. -/
theorem stepsLeft_nextRecv_le {l : List BufName} (hl : BufName.hdr ∉ l) (s : State) :
    stepsLeft (nextRecv l s) ≤ s.env.rx.length + 1 := by
  rcases nextRecv_cases l s with e | ⟨b, hb, e⟩
  · simp [e]
  · have hne : b ≠ .hdr := fun h => hl (h ▸ hb)
    rw [e, stepsLeft_rxPhase (b := b) (by simp), if_neg hne, enter_env]

theorem stepsLeft_endRecv_le (b : BufName) (s : State) :
    stepsLeft (endRecv b s) ≤ s.env.rx.length + if b = .hdr then 3 else 1 := by
  by_cases hb : b = .hdr
  · subst hb
    simp only [endRecv]
    split
    · simp [stepsLeft]
    · simp
  · rw [endRecv_section hb, if_neg hb]
    exact stepsLeft_nextRecv_le (hdr_notMem_laterSections b) s

/-- What is left when a section has been sent. -/
theorem stepsLeft_nextSend_le (b : BufName) (s : State) :
    stepsLeft (nextSend (laterSections b) s) + Buffers.len b s.buf ≤ bytesFrom b s.buf + 1 := by
  rcases nextSend_cases (laterSections b) s with e | ⟨c, hc, e⟩
  · have := len_le_bytesFrom b s.buf
    rw [e]
    simp only [stepsLeft, enter_seq]
    omega
  · have := len_add_bytesFrom_le hc s.buf
    have hbuf : (enter (txPhase c) s).buf = s.buf := by cases c <;> rfl
    rw [e, stepsLeft_txPhase (b := c) (by simp), hbuf]
    omega

theorem stepsLeft_received_le {b : BufName} {s : State} (hp : s.seq.phase = rxPhase b) (x : Byte) :
    stepsLeft (received b x s) ≤ stepsLeft s := by
  rw [stepsLeft_rxPhase hp]
  by_cases hn : s.seq.cnt.toNat + 1 = Buffers.len b s.buf
  · rw [received_last hn]
    exact stepsLeft_endRecv_le b _
  · rw [received_part hn, stepsLeft_rxPhase (b := b) (by exact hp)]
    rfl

theorem stepsLeft_pushed_lt {b : BufName} {s : State} (hp : s.seq.phase = txPhase b)
    (hc : s.seq.cnt.toNat < Buffers.len b s.buf) : stepsLeft (pushed b s) < stepsLeft s := by
  have hle := len_le_bytesFrom b s.buf
  rw [stepsLeft_txPhase hp]
  by_cases hn : s.seq.cnt.toNat + 1 = Buffers.len b s.buf
  · rw [pushed_last hn]
    refine Nat.lt_of_add_lt_add_right (n := Buffers.len b s.buf)
      ((stepsLeft_nextSend_le b ((s.setTxq _).setSeq _)).trans_lt ?_)
    simp only [State.setSeq_buf, State.setTxq_buf]
    omega
  · have hlen := Buffers.len_lt b s.buf
    have hcnt : (s.seq.cnt + 1).toNat = s.seq.cnt.toNat + 1 := BitVec.toNat_add_of_lt (by simp; omega)
    rw [pushed_part hn, stepsLeft_txPhase (b := b) (by exact hp)]
    simp only [State.setSeq_buf, State.setTxq_buf, State.setSeq_seq, hcnt]
    omega

/-- Every micro-step takes one off what is left. -/
theorem Inv.stepsLeft_microStep_lt {s t : State} (hs : Inv s) (h : microStep s = some t) : stepsLeft t < stepsLeft s := by
  rcases microStep_cases h with ⟨b, hp, e⟩ | ⟨b, hp, e⟩ | ⟨hp, rfl⟩ | ⟨hp, rfl⟩ | ⟨hp, rfl⟩ | ⟨hp, e⟩
  · rcases recvStep_cases e with ⟨x, rest, hrx, rfl⟩ | rfl
    · refine (stepsLeft_received_le (s := s.setEnv { s.env with rx := rest }) hp x).trans_lt ?_
      rw [stepsLeft_rxPhase hp, stepsLeft_rxPhase (b := b) (by exact hp), hrx]
      simp
    · rw [stepsLeft_rxPhase hp, stepsLeft_raise]
      split <;> omega
  · rcases sendStep_cases e with ⟨k, -, rfl⟩ | rfl
    · have hcnt := hs.count
      rw [hp, txPhase_moved] at hcnt
      exact stepsLeft_pushed_lt (s := s.setEnv { s.env with sink := k }) hp hcnt
    · rw [stepsLeft_txPhase hp, stepsLeft_raise]
      omega
  · rcases decodeStep_cases s with ⟨c, i, e⟩ | ⟨r, f, e | e⟩ <;> simp [e, stepsLeft, hp]
  · simp only [checkStep]
    split
    · simp [stepsLeft, hp]
    · refine (stepsLeft_nextRecv_le (by decide) (allocate s)).trans_lt ?_
      simp [stepsLeft, hp, allocate]
  · simp only [encodeStep]
    split
    · rw [stepsLeft_txPhase (b := .hdr) (by simp [txPhase])]
      simp [stepsLeft, hp, bytesFrom_hdr, enter, Buffers.total]
    · simp [stepsLeft, hp]
  · rcases flushStep_cases e with ⟨k, -, rfl⟩ | rfl <;> simp [stepsLeft, hp]

/-! ## The pattern of yields and the micro-steps do not touch each other (assumption 7)

The normal form has `setYields` outermost. -/

/-- The state under another pattern of yields. -/
def State.setYields (ys : List Bool) (s : State) : State := s.setDrv { s.drv with yields := ys }

@[simp] theorem State.setYields_h (ys : List Bool) (s : State) : (s.setYields ys).h = s.h := rfl
@[simp] theorem State.setYields_buf (ys : List Bool) (s : State) : (s.setYields ys).buf = s.buf := rfl
@[simp] theorem State.setYields_maxbody (ys : List Bool) (s : State) : (s.setYields ys).maxbody = s.maxbody := rfl
@[simp] theorem State.setYields_flags (ys : List Bool) (s : State) : (s.setYields ys).flags = s.flags := rfl
@[simp] theorem State.setYields_errs (ys : List Bool) (s : State) : (s.setYields ys).errs = s.errs := rfl
@[simp] theorem State.setYields_seq (ys : List Bool) (s : State) : (s.setYields ys).seq = s.seq := rfl
@[simp] theorem State.setYields_cmdreg (ys : List Bool) (s : State) : (s.setYields ys).cmdreg = s.cmdreg := rfl
@[simp] theorem State.setYields_txq (ys : List Bool) (s : State) : (s.setYields ys).txq = s.txq := rfl
@[simp] theorem State.setYields_env (ys : List Bool) (s : State) : (s.setYields ys).env = s.env := rfl
@[simp] theorem State.setYields_draws (ys : List Bool) (s : State) : (s.setYields ys).drv.draws = s.drv.draws := rfl
@[simp] theorem State.setYields_yields (ys : List Bool) (s : State) : (s.setYields ys).drv.yields = ys := rfl
@[simp] theorem State.setYields_setYields (ys zs : List Bool) (s : State) : (s.setYields ys).setYields zs = s.setYields zs := rfl

theorem State.setYields_eq_self {ys : List Bool} {s : State} (h : s.drv.yields = ys) : s.setYields ys = s := by
  subst h; rfl

@[simp] theorem State.setH_setYields (ys : List Bool) (v : HeaderRegs) (s : State) :
    (s.setYields ys).setH v = (s.setH v).setYields ys := rfl
@[simp] theorem State.setBuf_setYields (ys : List Bool) (v : Buffers) (s : State) :
    (s.setYields ys).setBuf v = (s.setBuf v).setYields ys := rfl
@[simp] theorem State.setFlags_setYields (ys : List Bool) (v : Flags) (s : State) :
    (s.setYields ys).setFlags v = (s.setFlags v).setYields ys := rfl
@[simp] theorem State.setErrs_setYields (ys : List Bool) (v : ErrRegs) (s : State) :
    (s.setYields ys).setErrs v = (s.setErrs v).setYields ys := rfl
@[simp] theorem State.setSeq_setYields (ys : List Bool) (v : Seq) (s : State) :
    (s.setYields ys).setSeq v = (s.setSeq v).setYields ys := rfl
@[simp] theorem State.setTxq_setYields (ys : List Bool) (v : List Byte) (s : State) :
    (s.setYields ys).setTxq v = (s.setTxq v).setYields ys := rfl
@[simp] theorem State.setEnv_setYields (ys : List Bool) (v : Env) (s : State) :
    (s.setYields ys).setEnv v = (s.setEnv v).setYields ys := rfl

@[simp] theorem headerByte_setYields (ys : List Bool) (s : State) (off : Nat) : headerByte (s.setYields ys) off = headerByte s off := rfl
@[simp] theorem declaredTotal_setYields (ys : List Bool) (s : State) : declaredTotal (s.setYields ys) = declaredTotal s := rfl
@[simp] theorem declaredKey_setYields (ys : List Bool) (s : State) : declaredKey (s.setYields ys) = declaredKey s := rfl
@[simp] theorem declaredExtras_setYields (ys : List Bool) (s : State) : declaredExtras (s.setYields ys) = declaredExtras s := rfl
@[simp] theorem decodedRegs_setYields (ys : List Bool) (m : Byte) (s : State) : decodedRegs m (s.setYields ys) = decodedRegs m s := rfl
@[simp] theorem encodedHeader_setYields (ys : List Bool) (m : Byte) (s : State) : encodedHeader m (s.setYields ys) = encodedHeader m s := rfl
@[simp] theorem allocate_setYields (ys : List Bool) (s : State) : allocate (s.setYields ys) = (allocate s).setYields ys := rfl
@[simp] theorem finish_setYields (ys : List Bool) (s : State) : finish (s.setYields ys) = (finish s).setYields ys := rfl

@[simp] theorem enter_setYields (ys : List Bool) (p : Phase) (s : State) : enter p (s.setYields ys) = (enter p s).setYields ys := by
  cases p <;> rfl

@[simp] theorem discardStaged_setYields (ys : List Bool) (s : State) :
    discardStaged (s.setYields ys) = (discardStaged s).setYields ys := by
  obtain ⟨_, _, _, _, _, _, _, q, _, _⟩ := s
  cases q <;> rfl

@[simp] theorem raise_setYields (ys : List Bool) (c : Cause) (i : Word) (s : State) :
    raise c i (s.setYields ys) = (raise c i s).setYields ys := by
  simp only [raise]
  split <;> simp

@[simp] theorem nextRecv_setYields (ys : List Bool) (l : List BufName) (s : State) :
    nextRecv l (s.setYields ys) = (nextRecv l s).setYields ys := by
  induction l with
  | nil => rfl
  | cons b l ih =>
    by_cases h0 : Buffers.len b s.buf = 0 <;> simp [nextRecv, h0, ih]

@[simp] theorem nextSend_setYields (ys : List Bool) (l : List BufName) (s : State) :
    nextSend l (s.setYields ys) = (nextSend l s).setYields ys := by
  induction l with
  | nil => rfl
  | cons b l ih =>
    by_cases h0 : Buffers.len b s.buf = 0 <;> simp [nextSend, h0, ih]

@[simp] theorem endRecv_setYields (ys : List Bool) (b : BufName) (s : State) :
    endRecv b (s.setYields ys) = (endRecv b s).setYields ys := by
  by_cases hb : b = .hdr
  · subst hb
    by_cases hr : isReceive s.cmdreg = true <;> simp [endRecv, hr]
  · simp [endRecv_section hb]

@[simp] theorem received_setYields (ys : List Bool) (b : BufName) (x : Byte) (s : State) :
    received b x (s.setYields ys) = (received b x s).setYields ys := by
  by_cases hn : s.seq.cnt.toNat + 1 = Buffers.len b s.buf <;> simp [received, hn]

@[simp] theorem pushed_setYields (ys : List Bool) (b : BufName) (s : State) :
    pushed b (s.setYields ys) = (pushed b s).setYields ys := by
  by_cases hn : s.seq.cnt.toNat + 1 = Buffers.len b s.buf <;> simp [pushed, hn]

@[simp] theorem decodeStep_setYields (ys : List Bool) (s : State) : decodeStep (s.setYields ys) = (decodeStep s).setYields ys := by
  by_cases hm : headerByte s 0 = magicOf s.cmdreg
  · by_cases hl : declaredTotal s < declaredKey s + declaredExtras s
    · simp [decodeStep, hm, hl]
    · by_cases hr : isReceive s.cmdreg = true <;> simp [decodeStep, hm, hl, hr]
  · simp [decodeStep, hm]

@[simp] theorem checkStep_setYields (ys : List Bool) (s : State) : checkStep (s.setYields ys) = (checkStep s).setYields ys := by
  simp only [checkStep, State.setYields_maxbody, State.setYields_h, raise_setYields, allocate_setYields, nextRecv_setYields]
  exact (apply_ite (State.setYields ys) _ _ _).symm

@[simp] theorem encodeStep_setYields (ys : List Bool) (s : State) : encodeStep (s.setYields ys) = (encodeStep s).setYields ys := by
  by_cases ht : isTransmit s.cmdreg = true <;> simp [encodeStep, ht]

theorem recvStep_setYields (ys : List Bool) (b : BufName) (s : State) :
    recvStep b (s.setYields ys) = (recvStep b s).map (State.setYields ys) := by
  simp only [recvStep, State.setYields_env]
  split
  · simp
  · split <;> simp [*]

theorem sendStep_setYields (ys : List Bool) (b : BufName) (s : State) :
    sendStep b (s.setYields ys) = (sendStep b s).map (State.setYields ys) := by
  simp only [sendStep, State.setYields_env]
  split <;> simp

theorem flushStep_setYields (ys : List Bool) (s : State) :
    flushStep (s.setYields ys) = (flushStep s).map (State.setYields ys) := by
  simp only [flushStep, State.setYields_env]
  split <;> simp

/-- A micro-step does the same whatever yields are to come, and leaves them. -/
theorem microStep_setYields (ys : List Bool) (s : State) :
    microStep (s.setYields ys) = (microStep s).map (State.setYields ys) := by
  rcases Phase.kinds s.seq.phase with hp | ⟨b, hp⟩ | ⟨b, hp⟩ | hp | hp | hp | hp
  · rw [microStep_idle hp, microStep_idle (s := s.setYields ys) hp]; rfl
  · rw [microStep_rxPhase b hp, microStep_rxPhase b (s := s.setYields ys) hp, recvStep_setYields]
  · rw [microStep_txPhase b hp, microStep_txPhase b (s := s.setYields ys) hp, sendStep_setYields]
  · rw [microStep_decode hp, microStep_decode (s := s.setYields ys) hp]; simp
  · rw [microStep_check hp, microStep_check (s := s.setYields ys) hp]; simp
  · rw [microStep_encode hp, microStep_encode (s := s.setYields ys) hp]; simp
  · rw [microStep_flush hp, microStep_flush (s := s.setYields ys) hp, flushStep_setYields]

theorem microStep_yields {s t : State} (h : microStep s = some t) : t.drv.yields = s.drv.yields := by
  have hm := microStep_setYields s.drv.yields s
  rw [State.setYields_eq_self rfl, h, Option.map_some, Option.some.injEq] at hm
  rw [hm, State.setYields_yields]

/-! ## The uninterrupted turn -/

/-- Induction along an uninterrupted turn: it has nothing to do, or waits, or takes a micro-step; and it comes to an end. -/
theorem Inv.turn_induction {motive : ∀ s : State, Inv s → s.drv.yields = [] → Prop}
    (idle : ∀ s hs hy, s.flags.busy = false → motive s hs hy)
    (waits : ∀ s hs hy, s.flags.busy = true → microStep s = none → motive s hs hy)
    (steps : ∀ s hs hy t ht hty, s.flags.busy = true → microStep s = some t → stepsLeft t < stepsLeft s →
      motive t ht hty → motive s hs hy)
    (s : State) (hs : Inv s) (hy : s.drv.yields = []) : motive s hs hy := by
  induction hn : stepsLeft s using Nat.strong_induction_on generalizing s with
  | _ n ih =>
    cases hb : s.flags.busy with
    | false => exact idle s hs hy hb
    | true =>
      cases hm : microStep s with
      | none => exact waits s hs hy hb hm
      | some t =>
        have hlt := hs.stepsLeft_microStep_lt hm
        have ht := hs.microStep_inv hm
        have hty := (microStep_yields hm).trans hy
        exact steps s hs hy t ht hty hb hm hlt (ih _ (hn ▸ hlt) t ht hty rfl)

/-- A bound that covers what is left never cuts a turn short. -/
theorem Inv.runSeq_eq_seqTurn {s : State} (hs : Inv s) (hy : s.drv.yields = []) {n : Nat} (hn : stepsLeft s ≤ n) :
    runSeq n s = seqTurn s := by
  have hbound := stepsLeft_le_stepBound s
  rw [seqTurn]
  generalize stepBound s = m at hbound
  induction s, hs, hy using Inv.turn_induction generalizing n m with
  | idle s hs hy hb => rw [runSeq_idle n hb, runSeq_idle m hb]
  | waits s hs hy hb hm => rw [runSeq_of_wait hb hy hm, runSeq_of_wait hb hy hm]
  | steps s hs hy t ht hty hb hm hlt ih =>
    obtain ⟨n, rfl⟩ := Nat.exists_eq_succ_of_ne_zero (show n ≠ 0 by omega)
    obtain ⟨m, rfl⟩ := Nat.exists_eq_succ_of_ne_zero (show m ≠ 0 by omega)
    rw [runSeq_of_step hb hy hm, runSeq_of_step hb hy hm]
    exact ih (by omega) m (by omega)

theorem seqTurn_of_idle {s : State} (hb : s.flags.busy = false) : seqTurn s = s := runSeq_idle _ hb

theorem seqTurn_of_wait {s : State} (hb : s.flags.busy = true) (hy : s.drv.yields = []) (hm : microStep s = none) :
    seqTurn s = s := runSeq_of_wait hb hy hm

/-- A turn is one micro-step and the turn from there. -/
theorem Inv.seqTurn_of_step {s t : State} (hs : Inv s) (hy : s.drv.yields = []) (hb : s.flags.busy = true)
    (hm : microStep s = some t) : seqTurn s = seqTurn t := by
  rw [← hs.runSeq_eq_seqTurn hy (Nat.le_succ _), runSeq_of_step hb hy hm]
  exact (hs.microStep_inv hm).runSeq_eq_seqTurn ((microStep_yields hm).trans hy) (hs.stepsLeft_microStep_lt hm).le

theorem Inv.seqTurn_ends_or_waits {s : State} (hs : Inv s) (hy : s.drv.yields = []) :
    (seqTurn s).flags.busy = false ∨ microStep (seqTurn s) = none := by
  induction s, hs, hy using Inv.turn_induction with
  | idle s hs hy hb => exact .inl (by rwa [seqTurn_of_idle hb])
  | waits s hs hy hb hm => exact .inr (by rwa [seqTurn_of_wait hb hy hm])
  | steps s hs hy t ht hty hb hm hlt ih => rwa [hs.seqTurn_of_step hy hb hm]

theorem Inv.seqTurn_ends {s : State} (hs : Inv s) (hy : s.drv.yields = []) (he : s.env.answersAll) :
    (seqTurn s).flags.busy = false := by
  induction s, hs, hy using Inv.turn_induction with
  | idle s hs hy hb => rwa [seqTurn_of_idle hb]
  | waits s hs hy hb hm => exact absurd hm (he.microStep_ne_none (hs.busy_iff.mp hb))
  | steps s hs hy t ht hty hb hm hlt ih =>
    rw [hs.seqTurn_of_step hy hb hm]
    exact ih (he.microStep hm)

/-- Settles O58: each micro-step takes one off `stepsLeft`, which the bound of a turn covers, so that a turn goes on to the end
of the command or to a wait; and an environment that answers everything makes no micro-step wait. -/
theorem turnEndsCommandOrWaits : Obligations.TurnEndsCommandOrWaits :=
  fun _ hs hy => ⟨hs.seqTurn_ends_or_waits hy, fun hrx hsink => hs.seqTurn_ends hy ⟨hrx, hsink⟩⟩

/-! ## The interrupted turn -/

theorem State.setDrv_setDrv (d e : Driver) (s : State) : (s.setDrv d).setDrv e = s.setDrv e := rfl

/-- A turn that finds a yield ends there. -/
theorem runSeq_of_yield (n : Nat) {s : State} (hb : s.flags.busy = true) (ys : List Bool) :
    runSeq (n + 1) (s.setYields (true :: ys)) = s.setYields ys := by
  simp [State.setYields, runSeq, hb, State.setDrv_setDrv]

/-- A turn that finds no yield and no answer changes nothing. -/
theorem runSeq_setYields_of_wait (n : Nat) {s : State} (hb : s.flags.busy = true) (hm : microStep s = none)
    {ys : List Bool} (hys : ys.head? ≠ some true) : runSeq (n + 1) (s.setYields ys) = s.setYields ys := by
  have hm' (zs : List Bool) : microStep (s.setDrv { s.drv with yields := zs }) = none :=
    (microStep_setYields zs s).trans (by rw [hm]; rfl)
  rcases ys with _ | ⟨_ | _, ys⟩
  · simp [State.setYields, runSeq, hb, State.setDrv_setDrv, hm']
  · simp [State.setYields, runSeq, hb, State.setDrv_setDrv, hm']
  · exact absurd rfl hys

/-- A turn that finds no yield goes on after its micro-step. -/
theorem runSeq_setYields_of_step (n : Nat) {s t : State} (hb : s.flags.busy = true) (hm : microStep s = some t)
    {ys : List Bool} (hys : ys.head? ≠ some true) : runSeq (n + 1) (s.setYields ys) = runSeq n (t.setYields ys.tail) := by
  have hm' (zs : List Bool) : microStep (s.setDrv { s.drv with yields := zs }) = some (t.setYields zs) :=
    (microStep_setYields zs s).trans (by rw [hm]; rfl)
  rcases ys with _ | ⟨_ | _, ys⟩
  · simp [State.setYields, runSeq, hb, State.setDrv_setDrv, hm']
  · simp [State.setYields, runSeq, hb, State.setDrv_setDrv, hm']
  · exact absurd rfl hys

/-- A turn that may be interrupted goes some way along the uninterrupted one, and either gets to its end or uses up a yield. -/
theorem Inv.runSeq_setYields {s : State} (hs : Inv s) (hy : s.drv.yields = []) {n : Nat} (hn : stepsLeft s ≤ n)
    (ys : List Bool) :
    ∃ t zs, runSeq n (s.setYields ys) = t.setYields zs ∧ Inv t ∧ t.drv.yields = [] ∧ seqTurn t = seqTurn s ∧
      (seqTurn s = t ∨ zs.length < ys.length) := by
  induction s, hs, hy using Inv.turn_induction generalizing n ys with
  | idle s hs hy hb => exact ⟨s, ys, runSeq_idle n hb, hs, hy, rfl, .inl (seqTurn_of_idle hb)⟩
  | waits s hs hy hb hm =>
    have hend := seqTurn_of_wait hb hy hm
    cases n with
    | zero => exact ⟨s, ys, rfl, hs, hy, rfl, .inl hend⟩
    | succ n =>
      by_cases hys : ys.head? = some true
      · obtain ⟨zs, rfl⟩ := List.head?_eq_some_iff.mp hys
        exact ⟨s, zs, runSeq_of_yield n hb zs, hs, hy, rfl, .inl hend⟩
      · exact ⟨s, ys, runSeq_setYields_of_wait n hb hm hys, hs, hy, rfl, .inl hend⟩
  | steps s hs hy t ht hty hb hm hlt ih =>
    obtain ⟨n, rfl⟩ := Nat.exists_eq_succ_of_ne_zero (show n ≠ 0 by omega)
    by_cases hys : ys.head? = some true
    · obtain ⟨zs, rfl⟩ := List.head?_eq_some_iff.mp hys
      exact ⟨s, zs, runSeq_of_yield n hb zs, hs, hy, rfl, .inr (Nat.lt_succ_self _)⟩
    · obtain ⟨u, zs, hu, hinv, huy, hsame, hend⟩ := ih (n := n) (by omega) ys.tail
      rw [hs.seqTurn_of_step hy hb hm]
      refine ⟨u, zs, (runSeq_setYields_of_step n hb hm hys).trans hu, hinv, huy, hsame, hend.imp_right fun h => ?_⟩
      exact h.trans_le (by simp)

/-- Enough turns come to the end of the uninterrupted one, whatever the pattern of yields. -/
theorem Inv.exists_iterate_seqTurn {s : State} (hs : Inv s) (hy : s.drv.yields = []) (ys : List Bool) :
    ∃ k, (seqTurn^[k] (s.setYields ys)).setYields [] = seqTurn s := by
  induction hn : ys.length using Nat.strong_induction_on generalizing s ys with
  | _ n ih =>
    obtain ⟨t, zs, hturn, ht, hty, hsame, hend⟩ := hs.runSeq_setYields hy (stepsLeft_le_stepBound s) ys
    have hfirst : seqTurn (s.setYields ys) = t.setYields zs := hturn
    rcases hend with hend | hlt
    · refine ⟨1, ?_⟩
      rw [Function.iterate_one, hfirst, State.setYields_setYields, State.setYields_eq_self hty, hend]
    · obtain ⟨k, hk⟩ := ih _ (hn ▸ hlt) ht hty zs rfl
      refine ⟨k + 1, ?_⟩
      rw [Function.iterate_succ_apply, hfirst, hk, hsame]

/-- Settles O57: by induction on the length of the pattern, since a turn that does not come to the end of the uninterrupted one
uses up a yield. -/
theorem interleavingDoesNotChangeOutcome : Obligations.InterleavingDoesNotChangeOutcome :=
  fun _ ys hs hy => hs.exists_iterate_seqTurn hy ys

end Sys2Proof.Machine
end

section
/-! Proofs of the statements about the state of the block (10_state.md): what a step can do, the invariants, the records that
only some moves write, `LDHDR`, `RDFRAME`, and the stream in pieces. -/

namespace Sys2Proof.Machine

/-! ## Everything a step can do (R5, R46, R160) -/

/-- How a command with phases starts (R46, R130 to R155): whether it is a stream command, its sequence precondition, and its
first phase. -/
structure CommandRow (code : Byte) (stream ready : Bool) (first : Phase) (s : State) : Prop where
  passes : passesThrough code first = true
  stream_iff : stream = isStream code
  first_ready : first = .hdrRx ∨ (first = .decode ∧ ready = s.flags.hl) ∨ (first = .check ∧ ready = s.flags.hv) ∨
    first = .encode
  refusable : ready = false → canEndWith code .badSequence .idle = true

/-- A `CFGMAX` is dropped, or refused, or sets a maximum up to `VALCAP` (R46 steps 1, 5 and 6). -/
theorem execCfgmax_cases {arg : Word} {s t : State} (h : execCfgmax arg s = .next t) :
    t = s ∨ (s.flags.busy = false ∧ t = notStarted .badOperand Code.cfgmax arg s) ∨
    (s.flags.busy = false ∧ arg.toNat ≤ Config.valcap ∧ t = configure arg s) := by
  obtain rfl := Host.Outcome.next.inj h
  cases hb : s.flags.busy with
  | true => exact .inl rfl
  | false =>
    by_cases hx : Config.valcap < arg.toNat
    · refine .inr (.inl ⟨rfl, ?_⟩)
      simp [exceedsValcap_eq, hx, refuse_eq]
    · refine .inr (.inr ⟨rfl, Nat.le_of_not_lt hx, ?_⟩)
      simp [exceedsValcap_eq, hx]

/-- Everything an instruction can be: `CFGMAX`, a command with phases, or a header to be loaded. -/
theorem exec_cases {i : Instr} {s t : State} (h : exec i s = .next t) :
    (∃ arg, i = .cfgmax arg ∧ execCfgmax arg s = .next t) ∨
    (∃ code arg stream ready first, CommandRow code stream ready first s ∧ t = issue code arg stream ready first s) ∨
    ∃ bs, t = hostLoad 0x23 bs s := by
  cases i with
  | cfgmax arg => exact .inl ⟨arg, rfl, h⟩
  | hdrReq hd => exact .inr (.inr ⟨_, (Host.Outcome.next.inj h).symm⟩)
  | hdrRsp hd => exact .inr (.inr ⟨_, (Host.Outcome.next.inj h).symm⟩)
  | decreq arg | decrsp arg =>
    refine .inr (.inl ⟨_, arg, _, _, _, ?_, (Host.Outcome.next.inj h).symm⟩)
    exact ⟨rfl, rfl, .inr (.inl ⟨rfl, rfl⟩), fun _ => rfl⟩
  | rdframe arg =>
    refine .inr (.inl ⟨_, arg, _, _, _, ?_, (Host.Outcome.next.inj h).symm⟩)
    exact ⟨rfl, rfl, .inr (.inr (.inl ⟨rfl, rfl⟩)), fun _ => rfl⟩
  | ldhdr arg | rxreq arg | rxrsp arg =>
    refine .inr (.inl ⟨_, arg, _, _, _, ?_, (Host.Outcome.next.inj h).symm⟩)
    exact ⟨rfl, rfl, .inl rfl, nofun⟩
  | encreq arg | encrsp arg | txreq arg | txrsp arg =>
    refine .inr (.inl ⟨_, arg, _, _, _, ?_, (Host.Outcome.next.inj h).symm⟩)
    exact ⟨rfl, rfl, .inr (.inr (.inr rfl)), nofun⟩

/-- Each of the eleven codes decodes (R100). -/
theorem decodeCommand_of_mem {code : Byte} (h : code ∈ Code.all) (arg : Word) : ∃ i, decodeCommand code arg = .ok i := by
  simp only [Code.all, List.mem_cons, List.not_mem_nil, or_false] at h
  rcases h with rfl | rfl | rfl | rfl | rfl | rfl | rfl | rfl | rfl | rfl | rfl <;> exact ⟨_, rfl⟩

/-- Every other code is rejected by its name (R103). -/
theorem decodeCommand_of_notMem {code : Byte} (h : code ∉ Code.all) (arg : Word) :
    decodeCommand code arg = .error (.unknownCode code) := by
  simp only [Code.all, List.mem_cons, List.not_mem_nil, or_false, not_or] at h
  simp only [decodeCommand, h, if_false]

/-- A code that the decoder rejects is none of the eleven (R103). -/
theorem notMem_all_of_decode {bytes : List Byte} {code : Byte} (h : decode bytes = .error (.unknownCode code)) :
    code ∉ Code.all := by
  unfold decode at h
  split_ifs at h
  · by_cases hmem : byteOf bytes 0 ∈ Code.all
    · obtain ⟨i, hi⟩ := decodeCommand_of_mem hmem (BitVec.ofNat 32 (fieldAt bytes 1 4))
      cases hi.symm.trans h
    · rw [decodeCommand_of_notMem hmem] at h
      exact DecodeError.unknownCode.inj (Except.error.inj h) ▸ hmem
  · unfold decodeHeader at h
    split_ifs at h
    cases h
  · cases h

/-- Everything a step from `s` can come to, `u` being `s` with its move taken off the list of inputs. -/
inductive StepResult (s u : State) : State → Prop
  /-- A command while one is in flight (R46 step 1). -/
  | dropped : StepResult s u u
  /-- `CFGMAX` (R46 step 6). -/
  | configured {bytes : List Byte} {arg : Word} (word : s.drv.inputs.head? = some (.word bytes))
      (decodes : decode bytes = .ok (.cfgmax arg)) (busy : u.flags.busy = false) (le : arg.toNat ≤ Config.valcap) :
      StepResult s u (configure arg u)
  /-- A refusal or a dead link (R46 steps 2 to 5, R197). -/
  | notStarted {c : Cause} {code : Byte} (info : Word) (busy : u.flags.busy = false) (ne : c ≠ .none)
      (table : canEndWith code c .idle = true) : StepResult s u (notStarted c code info u)
  /-- An accepted command and the sequencer's turn (R46 step 7). -/
  | started {code : Byte} {first : Phase} (busy : u.flags.busy = false) (passes : passesThrough code first = true)
      (ready : first = .hdrRx ∨ (first = .decode ∧ u.flags.hl = true) ∨ (first = .check ∧ u.flags.hv = true) ∨
        first = .encode)
      (alive : isStream code = true → u.flags.dead = false) : StepResult s u (seqTurn (accept code first u))
  /-- A host access, a move of the environment, the sequencer's turn, or a reset, which only the host gives. -/
  | moved (i : Input) (reset : i = .reset → s.drv.inputs.head? = some .reset) : StepResult s u (move i u)

/-- A command with phases is dropped, not started, or started. -/
theorem CommandRow.result {code : Byte} {stream ready : Bool} {first : Phase} {u : State}
    (row : CommandRow code stream ready first u) (s : State) (arg : Word) :
    StepResult s u (issue code arg stream ready first u) := by
  rcases issue_cases code arg stream ready first u with ⟨-, e⟩ | ⟨hb, hst, hd, e⟩ | ⟨hb, hr, e⟩ | ⟨hb, hr, hd, e⟩
  · rw [e]; exact .dropped
  · rw [e, linkDead_eq]
    exact .notStarted 0 hb (by decide) (by simpa [canEndWith] using row.stream_iff ▸ hst)
  · rw [e, refuse_eq]
    exact .notStarted arg hb (by decide) (row.refusable hr)
  · rw [e]
    refine .started hb row.passes ?_ (row.stream_iff ▸ hd)
    subst hr
    simpa only [eq_comm] using row.first_ready

theorem execCfgmax_result {s u t : State} {bytes : List Byte} {arg : Word} (hw : s.drv.inputs.head? = some (.word bytes))
    (hd : decode bytes = .ok (.cfgmax arg)) (h : execCfgmax arg u = .next t) : StepResult s u t := by
  rcases execCfgmax_cases h with rfl | ⟨hb, rfl⟩ | ⟨hb, hle, rfl⟩
  · exact .dropped
  · exact .notStarted arg hb (by decide) rfl
  · exact .configured hw hd hb hle

theorem rejectWord_result {bytes : List Byte} {e : DecodeError} (hd : decode bytes = .error e) (s u : State) :
    StepResult s u (rejectWord e bytes u) := by
  cases e with
  | noHeaderMagic _ => exact .moved (.bld 0x23 bytes) nofun
  | badLength _ => exact .moved (.bld 0x23 bytes) nofun
  | unknownCode code =>
    have hcode := notMem_all_of_decode hd
    simp only [rejectWord, issueUnknown]
    split
    · exact .dropped
    · next hb => exact .notStarted _ (by simpa using hb) (by decide) (by simpa [canEndWith] using hcode)

/-- The move that a step takes is the head of the list, or the sequencer's turn. -/
theorem nextInput_cases (s : State) : nextInput s = (.turn, s) ∨
    ∃ i d, s.drv.inputs.head? = some i ∧ nextInput s = (i, s.setDrv d) := by
  cases h : s.drv.inputs with
  | nil => exact .inl (nextInput_nil h)
  | cons i rest => exact .inr ⟨i, _, rfl, nextInput_cons h⟩

/-- A step takes a move off the list and comes to one of the results. -/
theorem step_result {s t : State} (h : step s = .next t) : ∃ d, StepResult s (s.setDrv d) t := by
  rcases nextInput_cases s with e | ⟨i, d, hi, e⟩
  · obtain rfl := Host.Outcome.next.inj ((step_of_move e nofun).symm.trans h)
    exact ⟨s.drv, .moved .turn nofun⟩
  · refine ⟨d, ?_⟩
    by_cases hw : ∃ bytes, i = .word bytes
    · obtain ⟨bytes, rfl⟩ := hw
      simp only [step, e] at h
      split at h
      · next i hd =>
        rcases exec_cases h with ⟨arg, rfl, hx⟩ | ⟨code, arg, stream, ready, first, row, rfl⟩ | ⟨bs, rfl⟩
        · exact execCfgmax_result hi hd hx
        · exact row.result s arg
        · exact .moved (.bld 0x23 bs) nofun
      · next err hd =>
        obtain rfl := Host.Outcome.next.inj h
        exact rejectWord_result hd s _
    · obtain rfl := Host.Outcome.next.inj ((step_of_move e fun bytes hb => hw ⟨bytes, hb⟩).symm.trans h)
      exact .moved i fun hr => hr ▸ hi

/-- What the sequencer's turn keeps: what each micro-step of a command in flight keeps, and the pattern of yields does not
touch. -/
theorem runSeq_keeps {P : State → Prop} (hdrv : ∀ u d, P u → P (u.setDrv d))
    (hstep : ∀ u v, P u → u.flags.busy = true → microStep u = some v → P v) (n : Nat) {s : State} (h : P s) :
    P (runSeq n s) := by
  induction n generalizing s with
  | zero => exact h
  | succ n ih =>
    simp only [runSeq]
    split
    · next hb =>
      split
      · exact hdrv s _ h
      · split
        · exact h
        · next hm => exact ih (hstep (s.setDrv _) _ (hdrv s _ h) (by exact hb) hm)
    · exact h

/-! ## Everything a host access can do (R160 to R164) -/

theorem hostRead_cases (n : Nat) (s : State) : ∃ a, hostRead n s = answered a s := by
  simp only [hostRead]
  split
  · exact ⟨_, rfl⟩
  · split <;> exact ⟨_, rfl⟩

theorem hostWrite_cases (n v : Nat) (s : State) : hostWrite n v s = answered .refused s ∨
    ∃ h, s.flags.busy = false ∧ writtenRegs n v s.h = some h ∧ hostWrite n v s = answered .ok (s.setH h) := by
  simp only [hostWrite]
  split
  · exact .inl rfl
  · next hb =>
    split
    · exact .inl rfl
    · next h hw => exact .inr ⟨h, by simpa using hb, hw, rfl⟩

theorem hostLoad_cases (n : Nat) (bs : List Byte) (s : State) : hostLoad n bs s = answered .refused s ∨
    ∃ b, s.flags.busy = false ∧ fits b bs.length = true ∧
      hostLoad n bs s = answered .ok ((s.setBuf (Buffers.load b bs s.buf)).setFlags (loadFlags b s.flags)) := by
  simp only [hostLoad]
  split
  · exact .inl rfl
  · next hb =>
    split
    · exact .inl rfl
    · next b _ =>
      split
      · next hf => exact .inr ⟨b, by simpa using hb, hf, rfl⟩
      · exact .inl rfl

theorem hostDump_cases (n : Nat) (s : State) : ∃ d, hostDump n s = s.setDrv d := by
  simp only [hostDump]
  split
  · exact ⟨_, rfl⟩
  · split
    · exact ⟨_, rfl⟩
    · split <;> exact ⟨_, rfl⟩

/-! ## The invariants (O8, O9) -/

theorem Inv.answered_inv {s : State} (hs : Inv s) (a : Answer) : Inv (answered a s) := hs.setDrv _

theorem Inv.hostWrite_inv {s : State} (hs : Inv s) (n v : Nat) : Inv (hostWrite n v s) := by
  rcases hostWrite_cases n v s with e | ⟨h, hb, hw, e⟩
  · exact e ▸ hs.answered_inv _
  · obtain ⟨hmagic, htot, hext, hkey, hval⟩ := writtenRegs_keeps hw
    have hfr : isFrameRx s.seq.phase = false := by rw [(hs.idle_of hb).1]; rfl
    have hedit : Inv (s.setH h) := hs.hostEdit hb h s.buf s.flags hs.valLen_le hs.mem_wf hs.mem_bound hmagic htot hext hkey
      hval hb rfl hs.hl_defined hs.hv_hl hs.fok_complete fun hd => hs.complete hd hfr
    exact e ▸ hedit.answered_inv _

theorem sectionComplete_load_same {b : BufName} {bs : List Byte} (h : fits b bs.length = true) (B : Buffers) :
    sectionComplete b (Buffers.load b bs B) := by
  obtain ⟨-, hlen, hmem, -⟩ := load_facts h B
  rw [sectionComplete, hlen, hmem]
  exact Mem.definedTo_ofBytes le_rfl

theorem sectionComplete_load {b c : BufName} {bs : List Byte} (h : fits b bs.length = true) {B : Buffers}
    (hc : sectionComplete c B) : sectionComplete c (Buffers.load b bs B) := by
  by_cases hcb : c = b
  · exact hcb ▸ sectionComplete_load_same h B
  · obtain ⟨-, -, -, hother⟩ := load_facts h B
    rwa [sectionComplete, (hother c hcb).1, (hother c hcb).2]

theorem wf_load {b : BufName} {bs : List Byte} (h : fits b bs.length = true) {B : Buffers}
    (hB : ∀ c, Mem.wf (Buffers.mem c B)) (c : BufName) : Mem.wf (Buffers.mem c (Buffers.load b bs B)) := by
  obtain ⟨-, -, hmem, hother⟩ := load_facts h B
  by_cases hcb : c = b
  · rw [hcb, hmem]; exact Mem.wf_ofBytes 0 bs
  · rw [(hother c hcb).2]; exact hB c

theorem bound_load {b : BufName} {bs : List Byte} (h : fits b bs.length = true) {B : Buffers}
    (hB : ∀ c, ∀ x ∈ Buffers.mem c B, x.1 < Buffers.len c B) (c : BufName) :
    ∀ x ∈ Buffers.mem c (Buffers.load b bs B), x.1 < Buffers.len c (Buffers.load b bs B) := by
  obtain ⟨-, hlen, hmem, hother⟩ := load_facts h B
  by_cases hcb : c = b
  · rw [hcb, hlen, hmem]
    intro x hx
    have := Mem.mem_ofBytes hx
    omega
  · rw [(hother c hcb).1, (hother c hcb).2]; exact hB c

theorem valLen_load_le {b : BufName} {bs : List Byte} (h : fits b bs.length = true) {B : Buffers}
    (hB : B.valLen.toNat ≤ Config.valcap) : (Buffers.load b bs B).valLen.toNat ≤ Config.valcap := by
  obtain ⟨-, hlen, -, hother⟩ := load_facts h B
  by_cases hb : b = .val
  · subst hb
    have hle : bs.length ≤ Config.valcap := by simpa [fits, exceedsValcap_eq] using h
    exact hlen.trans_le hle
  · exact (hother .val (Ne.symm hb)).1.trans_le hB

theorem Inv.hostLoad_inv {s : State} (hs : Inv s) (n : Nat) (bs : List Byte) : Inv (hostLoad n bs s) := by
  rcases hostLoad_cases n bs s with e | ⟨b, hb, hf, e⟩
  · exact e ▸ hs.answered_inv _
  · have hfr : isFrameRx s.seq.phase = false := by rw [(hs.idle_of hb).1]; rfl
    have hdefined : (loadFlags b s.flags).hl = true → Mem.definedTo Config.headerLen (Buffers.load b bs s.buf).hdr := by
      by_cases hh : b = .hdr
      · subst hh; exact fun _ => sectionComplete_load_same hf s.buf
      · rw [(load_facts hf s.buf).1, if_neg hh]
        cases b with
        | hdr => exact absurd rfl hh
        | ext | key | val => exact hs.hl_defined
    have hedit : Inv ((s.setBuf (Buffers.load b bs s.buf)).setFlags (loadFlags b s.flags)) := by
      refine hs.hostEdit hb s.h _ _ (valLen_load_le hf hs.valLen_le) (wf_load hf hs.mem_wf) (bound_load hf hs.mem_bound)
        rfl rfl rfl rfl rfl ?busy ?dead hdefined ?hv ?fok ?complete
      case busy => cases b <;> exact hb
      case dead => cases b <;> rfl
      case hv =>
        cases b with
        | hdr => intro h; cases h
        | ext | key | val => exact hs.hv_hl
      case fok =>
        intro h c hc
        cases b with
        | hdr => exact sectionComplete_load hf (hs.fok_complete h c hc)
        | ext | key | val => cases h
      case complete =>
        intro h c hc
        exact sectionComplete_load hf (hs.complete (by cases b <;> exact h) hfr c hc)
    exact e ▸ hedit.answered_inv _

theorem Inv.sinkDrain_inv {s : State} (hs : Inv s) (n : Nat) : Inv (sinkDrain n s) :=
  Inv.setEnv (s := s.setTxq (s.txq.drop n))
    { hs with staged := fun h => by simp [hs.staged h] } _

/-- Settles O9: the reset state is idle, has recorded nothing, and its buffers are empty. -/
theorem resetMeetsInvariant : Obligations.ResetMeetsInvariant := by
  have hcomplete (b : BufName) (hb : b ≠ .hdr) : sectionComplete b State.reset.buf := by
    cases b with
    | hdr => exact absurd rfl hb
    | ext | key | val => exact sectionComplete_zero rfl
  have hempty (b : BufName) : Buffers.mem b State.reset.buf = [] := by cases b <;> rfl
  exact Inv.ofIdle rfl rfl rfl Config.valcapMin_le (Nat.zero_le _) reset_mem_wf (fun b => by simp [hempty]) (.inl rfl) rfl
    rfl (fun _ => rfl) rfl rfl rfl (fun h => by cases h) (fun h => by cases h) (fun h => by cases h) (fun h => by cases h)
    fun _ => hcomplete

theorem Inv.resetBlock_inv (s : State) : Inv (resetBlock s) := (resetMeetsInvariant.setEnv _).setDrv _

theorem Inv.runSeq_inv {s : State} (hs : Inv s) (n : Nat) : Inv (runSeq n s) :=
  runSeq_keeps (fun _ d h => h.setDrv d) (fun _ _ h _ hm => h.microStep_inv hm) n hs

theorem Inv.move_inv {s : State} (hs : Inv s) (i : Input) : Inv (move i s) := by
  cases i with
  | word bytes => exact hs
  | hrd n =>
    obtain ⟨a, e⟩ := hostRead_cases n s
    exact (e ▸ hs.answered_inv a : Inv (hostRead n s))
  | hwr n v => exact hs.hostWrite_inv n v
  | bld n bytes => exact hs.hostLoad_inv n bytes
  | brd n =>
    obtain ⟨d, e⟩ := hostDump_cases n s
    exact (e ▸ hs.setDrv d : Inv (hostDump n s))
  | reset => exact Inv.resetBlock_inv s
  | rxSend bytes =>
    simp only [move, peerSends]
    split
    · exact hs
    · exact hs.setEnv _
  | rxEnd => exact hs.setEnv _
  | sinkTakes n => exact hs.setEnv _
  | sinkFails => exact hs.setEnv _
  | sinkWaits => exact hs.setEnv _
  | sinkDrains n => exact hs.sinkDrain_inv n
  | turn => exact hs.runSeq_inv _

theorem Inv.configure_inv {s : State} (hs : Inv s) (hb : s.flags.busy = false) {arg : Word}
    (hle : arg.toNat ≤ Config.valcap) : Inv (configure arg s) := by
  obtain ⟨hseq, hq⟩ := hs.idle_of hb
  have hfr : isFrameRx s.seq.phase = false := by rw [hseq]; rfl
  exact Inv.ofIdle hseq hb hq hle hs.valLen_le hs.mem_wf hs.mem_bound hs.magic hs.lengths rfl (fun _ => rfl) rfl
    (BitVec.and_zero) hs.sticky_zero hs.dead_sticky hs.hl_defined hs.hv_hl hs.fok_complete fun h => hs.complete h hfr

theorem Inv.result_inv {s u t : State} (hu : Inv u) (h : StepResult s u t) : Inv t := by
  cases h with
  | dropped => exact hu
  | configured word decodes busy le => exact hu.configure_inv busy le
  | notStarted info busy ne table => exact hu.notStarted busy _ _ info ne table rfl
  | @started code first busy passes ready alive =>
    refine (hu.accept_inv busy ?_ passes alive).runSeq_inv _
    exact ready.imp_right (.imp_right (.imp_left (.imp_right hu.hv_hl)))
  | moved i reset => exact hu.move_inv i

/-- Settles O8: whatever a step comes to, the invariants hold there; a turn keeps them since each micro-step does. -/
theorem stepKeepsInvariant : Obligations.StepKeepsInvariant := fun _ _ hs h =>
  have ⟨d, hr⟩ := step_result h
  (hs.setDrv d).result_inv hr

/-! ## What the flow of the phases leaves alone (R21, R35, R36, R39) -/

/-- The header field registers, `MAXBODY`, the error registers and `DEAD` are the same. -/
structure SameRecords (s t : State) : Prop where
  h : t.h = s.h
  maxbody : t.maxbody = s.maxbody
  errs : t.errs = s.errs
  dead : t.flags.dead = s.flags.dead

/-- Other components may have changed before. -/
theorem SameRecords.after {s u t : State} (same : SameRecords u t) (h : u.h = s.h := by rfl)
    (maxbody : u.maxbody = s.maxbody := by rfl) (errs : u.errs = s.errs := by rfl)
    (dead : u.flags.dead = s.flags.dead := by rfl) : SameRecords s t :=
  ⟨same.h.trans h, same.maxbody.trans maxbody, same.errs.trans errs, same.dead.trans dead⟩

theorem enter_sameRecords (p : Phase) (s : State) : SameRecords s (enter p s) := by cases p <;> exact ⟨rfl, rfl, rfl, rfl⟩

theorem finish_sameRecords (s : State) : SameRecords s (finish s) := ⟨rfl, rfl, rfl, rfl⟩

theorem nextRecv_sameRecords (l : List BufName) (s : State) : SameRecords s (nextRecv l s) := by
  rcases nextRecv_cases l s with e | ⟨b, -, e⟩
  · exact e ▸ (finish_sameRecords (s.setFlags _)).after
  · exact e ▸ enter_sameRecords _ s

theorem nextSend_sameRecords (l : List BufName) (s : State) : SameRecords s (nextSend l s) := by
  rcases nextSend_cases l s with e | ⟨b, -, e⟩
  · exact e ▸ enter_sameRecords _ s
  · exact e ▸ enter_sameRecords _ s

theorem endRecv_sameRecords (b : BufName) (s : State) : SameRecords s (endRecv b s) := by
  by_cases hb : b = .hdr
  · subst hb
    simp only [endRecv]
    split
    · exact (enter_sameRecords _ (s.setFlags _)).after
    · exact (finish_sameRecords (s.setFlags _)).after
  · exact endRecv_section hb s ▸ nextRecv_sameRecords _ s

theorem received_sameRecords (b : BufName) (x : Byte) (s : State) : SameRecords s (received b x s) := by
  by_cases hn : s.seq.cnt.toNat + 1 = Buffers.len b s.buf
  · exact received_last hn ▸ (endRecv_sameRecords b ((s.setBuf _).setSeq _)).after
  · exact received_part hn ▸ ⟨rfl, rfl, rfl, rfl⟩

theorem pushed_sameRecords (b : BufName) (s : State) : SameRecords s (pushed b s) := by
  by_cases hn : s.seq.cnt.toNat + 1 = Buffers.len b s.buf
  · exact pushed_last hn ▸ (nextSend_sameRecords _ ((s.setTxq _).setSeq _)).after
  · exact pushed_part hn ▸ ⟨rfl, rfl, rfl, rfl⟩

/-- A successful decode writes the header field registers, and no other record (R131). -/
theorem decodeStep_records (s : State) : (∃ c i, decodeStep s = raise c i s) ∨
    SameRecords (s.setH (regsFrom (magicOf s.cmdreg) (hdrBytes s) s.h)) (decodeStep s) := by
  rw [decodeStep_eq]
  split
  · exact .inl ⟨_, _, rfl⟩
  · split
    · exact .inl ⟨_, _, rfl⟩
    · right
      dsimp only
      split
      · exact (enter_sameRecords _ ((s.setH _).setFlags _)).after
      · exact (finish_sameRecords ((s.setH _).setFlags _)).after

theorem encodeStep_sameRecords (s : State) : SameRecords s (encodeStep s) := by
  simp only [encodeStep]
  generalize encodedHeader (magicOf s.cmdreg) s = m
  split
  · exact (enter_sameRecords _ ((s.setBuf _).setFlags _)).after
  · exact (finish_sameRecords ((s.setBuf _).setFlags _)).after

/-- A micro-step raises an error, or leaves the records, but for the registers that a decode writes. -/
theorem microStep_records {s t : State} (hm : microStep s = some t) :
    (∃ c i, t = raise c i s) ∨ SameRecords s t ∨
    (s.seq.phase = .decode ∧ SameRecords (s.setH (regsFrom (magicOf s.cmdreg) (hdrBytes s) s.h)) t) := by
  rcases microStep_cases hm with ⟨b, -, e⟩ | ⟨b, -, e⟩ | ⟨hp, rfl⟩ | ⟨-, rfl⟩ | ⟨-, rfl⟩ | ⟨-, e⟩
  · rcases recvStep_cases e with ⟨x, rest, -, rfl⟩ | rfl
    · exact .inr (.inl ((received_sameRecords b x (s.setEnv _)).after))
    · exact .inl ⟨_, _, rfl⟩
  · rcases sendStep_cases e with ⟨k, -, rfl⟩ | rfl
    · exact .inr (.inl ((pushed_sameRecords b (s.setEnv _)).after))
    · exact .inl ⟨_, _, rfl⟩
  · exact (decodeStep_records s).imp_right fun h => .inr ⟨hp, h⟩
  · simp only [checkStep]
    split
    · exact .inl ⟨_, _, rfl⟩
    · exact .inr (.inl ((nextRecv_sameRecords _ (allocate s)).after))
  · exact .inr (.inl (encodeStep_sameRecords s))
  · rcases flushStep_cases e with ⟨k, -, rfl⟩ | rfl
    · exact .inr (.inl ((finish_sameRecords ((s.setTxq _).setEnv _)).after))
    · exact .inl ⟨_, _, rfl⟩

/-- The moves of the host and of the environment touch neither `MAXBODY` nor an error record, and of the header field registers
none but the five that the host may write (R162). -/
theorem move_keeps {i : Input} (hturn : i ≠ .turn) (hreset : i ≠ .reset) (s : State) :
    (move i s).maxbody = s.maxbody ∧ (move i s).errs = s.errs ∧ (move i s).flags.dead = s.flags.dead ∧
    ((move i s).h = s.h ∨ ∃ n v, writtenRegs n v s.h = some (move i s).h) := by
  cases i with
  | turn => exact absurd rfl hturn
  | reset => exact absurd rfl hreset
  | hrd n =>
    obtain ⟨a, e⟩ := hostRead_cases n s
    simp only [move, e]
    exact ⟨rfl, rfl, rfl, .inl rfl⟩
  | hwr n v =>
    rcases hostWrite_cases n v s with e | ⟨h, -, hw, e⟩ <;> simp only [move, e]
    · exact ⟨rfl, rfl, rfl, .inl rfl⟩
    · exact ⟨rfl, rfl, rfl, .inr ⟨n, v, hw⟩⟩
  | bld n bytes =>
    rcases hostLoad_cases n bytes s with e | ⟨b, -, -, e⟩ <;> simp only [move, e]
    · exact ⟨rfl, rfl, rfl, .inl rfl⟩
    · exact ⟨rfl, rfl, by cases b <;> rfl, .inl rfl⟩
  | brd n =>
    obtain ⟨d, e⟩ := hostDump_cases n s
    simp only [move, e]
    exact ⟨rfl, rfl, rfl, .inl rfl⟩
  | rxSend bytes =>
    simp only [move, peerSends]
    split <;> exact ⟨rfl, rfl, rfl, .inl rfl⟩
  | word _ | rxEnd | sinkTakes _ | sinkFails | sinkWaits | sinkDrains _ => exact ⟨rfl, rfl, rfl, .inl rfl⟩

theorem accept_h (code : Byte) (p : Phase) (s : State) : (accept code p s).h = s.h :=
  (enter_sameRecords p ((beginRecord code s).setFlags _)).h

/-- Settles O14: of the micro-steps only a successful decode leaves other registers, and of the moves only a host write, which
reaches none of the five. -/
theorem onlyDecodeWritesLengthRegisters : Obligations.OnlyDecodeWritesLengthRegisters := by
  refine ⟨fun s t hm => ?_, accept_h, fun i s hturn hreset => ?_⟩
  · rcases microStep_records hm with ⟨c, i, rfl⟩ | same | ⟨hp, same⟩
    · exact .inl (raise_fields c i s).1
    · exact .inl same.h
    · exact .inr ⟨hp, same.h, same.errs⟩
  · obtain ⟨-, -, -, e | ⟨n, v, hw⟩⟩ := move_keeps hturn hreset s
    · simp only [e, and_self]
    · obtain ⟨hmagic, htot, hext, hkey, hval⟩ := writtenRegs_keeps hw
      exact ⟨hmagic, hkey, hext, htot, hval⟩

/-! ## `MAXBODY` (O13) -/

theorem microStep_maxbody {s t : State} (hm : microStep s = some t) : t.maxbody = s.maxbody := by
  rcases microStep_records hm with ⟨c, i, rfl⟩ | same | ⟨-, same⟩
  · obtain ⟨-, -, e, -⟩ := raise_fields c i s
    exact e
  · exact same.maxbody
  · exact same.maxbody

theorem seqTurn_maxbody (s : State) : (seqTurn s).maxbody = s.maxbody :=
  runSeq_keeps (P := fun u => u.maxbody = s.maxbody) (fun _ _ h => h) (fun _ _ h _ hm => (microStep_maxbody hm).trans h) _ rfl

theorem accept_maxbody (code : Byte) (p : Phase) (s : State) : (accept code p s).maxbody = s.maxbody :=
  (enter_sameRecords p ((beginRecord code s).setFlags _)).maxbody

/-- Settles O13: of all that a step can come to, only `CFGMAX` and a reset do not leave `MAXBODY` alone. -/
theorem onlyCfgmaxWritesMaxbody : Obligations.OnlyCfgmaxWritesMaxbody := by
  intro s t h hne
  obtain ⟨d, hr⟩ := step_result h
  cases hr with
  | dropped => exact absurd rfl hne
  | notStarted => exact absurd rfl hne
  | started => exact absurd ((seqTurn_maxbody _).trans (accept_maxbody _ _ _)) hne
  | @configured bytes arg word decodes _ le => exact .inr ⟨bytes, arg, word, decodes, rfl, le⟩
  | moved i reset =>
    by_cases hreset : i = .reset
    · exact .inl (reset hreset)
    · by_cases hturn : i = .turn
      · exact absurd (hturn ▸ seqTurn_maxbody (s.setDrv d)) hne
      · exact absurd (move_keeps hturn hreset (s.setDrv d)).1 hne

/-! ## `ERRSTICKY` and `DEAD` (O12) -/

/-- `ERRSTICKY` is as it was, or has the bit of the recorded error besides; and a dead link is still dead. -/
def RecordsPersist (s t : State) : Prop :=
  (t.errs.sticky = s.errs.sticky ∨ t.errs.sticky = s.errs.sticky ||| t.errs.err.cause.stickyBit) ∧
    (s.flags.dead = true → t.flags.dead = true)

/-- The records of a turn that began in `s`: as they were, or with the error that has ended the command. -/
def RecordsInTurn (s u : State) : Prop :=
  (u.errs.sticky = s.errs.sticky ∧ u.flags.dead = s.flags.dead) ∨ (u.flags.busy = false ∧ RecordsPersist s u)

theorem RecordsInTurn.persist {s u : State} (h : RecordsInTurn s u) : RecordsPersist s u := by
  rcases h with ⟨hsticky, hdead⟩ | ⟨-, h⟩
  · exact ⟨.inl hsticky, fun h => hdead.trans h⟩
  · exact h

/-- A turn raises at most one error, since that ends the command. -/
theorem RecordsInTurn.microStep {s u v : State} (h : RecordsInTurn s u) (hb : u.flags.busy = true)
    (hm : Machine.microStep u = some v) : RecordsInTurn s v := by
  rcases h with ⟨hsticky, hdead⟩ | ⟨hidle, -⟩
  · rcases microStep_records hm with ⟨c, i, rfl⟩ | same | ⟨-, same⟩
    · obtain ⟨-, -, -, hflags, herrs, -⟩ := raise_fields c i u
      refine .inr ⟨raise_busy c i u, .inr ?_, fun h => ?_⟩
      · rw [herrs, hsticky]
      · simp [hflags, hdead, h]
    · exact .inl ⟨by rw [same.errs, hsticky], same.dead.trans hdead⟩
    · exact .inl ⟨by rw [same.errs]; exact hsticky, same.dead.trans hdead⟩
  · rw [hb] at hidle; cases hidle

theorem runSeq_recordsPersist (n : Nat) (s : State) : RecordsPersist s (runSeq n s) :=
  (runSeq_keeps (P := RecordsInTurn s) (fun _ _ h => h) (fun _ _ h hb hm => h.microStep hb hm) n (.inl ⟨rfl, rfl⟩)).persist

theorem accept_errs (code : Byte) (p : Phase) (s : State) :
    (accept code p s).errs = ⟨⟨.none, .idle, code⟩, 0, s.errs.sticky⟩ :=
  (enter_sameRecords p ((beginRecord code s).setFlags _)).errs

theorem accept_dead (code : Byte) (p : Phase) (s : State) : (accept code p s).flags.dead = s.flags.dead :=
  (enter_sameRecords p ((beginRecord code s).setFlags _)).dead

theorem seqTurn_accept_recordsPersist (code : Byte) (p : Phase) (s : State) :
    RecordsPersist s (seqTurn (accept code p s)) := by
  have h := runSeq_recordsPersist (stepBound (accept code p s)) (accept code p s)
  rwa [RecordsPersist, accept_errs, accept_dead] at h

/-- Settles O12: what a step comes to sets at most one bit, that of the error it records. -/
theorem errorRecordsPersist : Obligations.ErrorRecordsPersist := by
  intro s t hnr h
  change RecordsPersist s t
  obtain ⟨d, hr⟩ := step_result h
  cases hr with
  | dropped => exact ⟨.inl rfl, id⟩
  | configured => exact ⟨.inl rfl, id⟩
  | notStarted => exact ⟨.inr rfl, id⟩
  | started => exact seqTurn_accept_recordsPersist _ _ (s.setDrv d)
  | moved i reset =>
    have hreset : i ≠ .reset := fun e => hnr (reset e)
    by_cases hturn : i = .turn
    · exact hturn ▸ runSeq_recordsPersist _ (s.setDrv d)
    · obtain ⟨-, herrs, hdead, -⟩ := move_keeps hturn hreset (s.setDrv d)
      exact ⟨.inl (by rw [herrs]; rfl), fun h => hdead.trans h⟩

/-! ## The words of the status registers (O15) -/

/-- Fields side by side: the lower one fills the low bits (R36, R37). -/
theorem toNat_append_eq {n m : Nat} (x : BitVec n) (y : BitVec m) : (x ++ y).toNat = 2 ^ m * x.toNat + y.toNat := by
  rw [BitVec.toNat_append, Nat.shiftLeft_eq, Nat.mul_comm, Nat.two_pow_add_eq_or_of_lt y.isLt]

theorem csrWord_toNat (f : Flags) : (csrWord f).toNat = f.busy.toNat + 2 * f.done.toNat + 4 * f.hl.toNat +
    8 * f.hv.toNat + 16 * f.fok.toNat + 32 * f.dead.toNat := by
  simp only [csrWord, toNat_append_eq, BitVec.toNat_ofBool, BitVec.toNat_ofNat]
  omega

theorem errWord_toNat (e : ErrReg) : (errWord e).toNat = e.cause.kind.toNat + 16 * e.cause.sub.toNat +
    256 * e.phase.code.toNat + 65536 * e.cmd.toNat := by
  simp only [errWord, toNat_append_eq, BitVec.toNat_ofNat]
  omega

/-- Settles O15: the words by their fields, the numbers by the tables. -/
theorem statusRegisterLayout : Obligations.StatusRegisterLayout := ⟨csrWord_toNat, errWord_toNat, rfl, rfl⟩

/-! ## Values after reset (O10), commands while busy (O16), `CFGMAX` (O23) -/

/-- Settles O10: the reset state row by row. -/
theorem resetStateValues : Obligations.ResetStateValues := by
  have hread (b : BufName) (a : Nat) : Mem.read (Buffers.mem b State.reset.buf) a = none := by cases b <;> rfl
  exact ⟨rfl, rfl, rfl, rfl, rfl, hread, rfl, rfl, rfl, rfl, rfl, rfl, rfl, rfl⟩

theorem hostLoad_of_busy {s : State} (hb : s.flags.busy = true) (n : Nat) (bs : List Byte) :
    hostLoad n bs s = answered .refused s := if_pos hb

/-- Settles O16: every command looks at `BUSY` first, and so does a load. -/
theorem commandsWhileBusyAreDropped : Obligations.CommandsWhileBusyAreDropped := by
  intro s a hb
  have hissue (code : Byte) (st rd : Bool) (p : Phase) :
      (.next (issue code a st rd p s) : Host.Outcome State Fault Refusal) = .next s := congrArg _ (issue_busy hb)
  have hload (bs : List Byte) :
      (.next (hostLoad 0x23 bs s) : Host.Outcome State Fault Refusal) = .next (answered .refused s) :=
    congrArg _ (hostLoad_of_busy hb 0x23 bs)
  exact ⟨congrArg _ (if_pos hb), hissue _ _ _ _, hissue _ _ _ _, hissue _ _ _ _, hissue _ _ _ _, hissue _ _ _ _,
    hissue _ _ _ _, hissue _ _ _ _, hissue _ _ _ _, hissue _ _ _ _, hissue _ _ _ _, fun _ => if_pos hb,
    fun hd => hload _, fun hd => hload _⟩

theorem execCfgmax_accepted {arg : Word} {s : State} (hb : s.flags.busy = false) (hle : arg.toNat ≤ Config.valcap) :
    execCfgmax arg s = .next (configure arg s) := by
  have hx : exceedsValcap arg.toNat = false := by simpa [exceedsValcap_eq] using hle
  simp [execCfgmax, hb, hx]

/-- Settles O23: the acceptance step is the whole command. -/
theorem cfgmaxSetsMaximum : Obligations.CfgmaxSetsMaximum := fun _ _ hb hle => execCfgmax_accepted hb hle

/-! ## The bytes of a packet (O41) -/

/-- Defined bytes are read without a free value. -/
theorem Mem.bytes_of_definedTo {m : Mem} {n : Nat} (h : Mem.definedTo n m) (d d' : Nat) :
    Mem.bytes d m 0 n = Mem.bytes d' m 0 n := by
  apply List.ext_getElem?
  intro i
  rw [Mem.bytes_getElem?, Mem.bytes_getElem?]
  split
  · next hi =>
    obtain ⟨x, hx⟩ := Option.isSome_iff_exists.mp (h i hi)
    simp [Mem.byteAt, hx]
  · rfl

theorem bufferBytes_of_sectionComplete {b : BufName} {s : State} (h : sectionComplete b s.buf) (d : Nat) :
    bufferBytes b (s.setDrv { s.drv with draws := d }) = bufferBytes b s :=
  Mem.bytes_of_definedTo h d s.drv.draws

/-- Settles O41: the header comes from registers, and on a live link the sections are complete. -/
theorem transmittedBytesAreDefined : Obligations.TransmittedBytesAreDefined := by
  intro s magic d hs hb hd
  have hfr : isFrameRx s.seq.phase = false := by rw [(hs.idle_of hb).1]; rfl
  have hbytes (b : BufName) (hne : b ≠ .hdr) := bufferBytes_of_sectionComplete (hs.complete hd hfr b hne) d
  have hheader : headerBytes magic (s.setDrv { s.drv with draws := d }) = headerBytes magic s := rfl
  simp only [packet, hheader, hbytes .ext (by decide), hbytes .key (by decide), hbytes .val (by decide)]

/-! ## `LDHDR` (O24) -/

/-- The state in which an accepted command that reads a header has recorded its start (R46 step 7, R36). -/
def headerBegun (code : Byte) (s : State) : State :=
  (beginRecord code s).setFlags { s.flags with busy := true, done := false, hl := false, hv := false }

theorem accept_hdrRx (code : Byte) (s : State) : accept code .hdrRx s = receiving .hdr [] s.env.rx (headerBegun code s) := rfl

/-- A receive phase that finds fewer bytes than it needs takes them and waits, or finds the end of the stream (R43). -/
theorem runSeq_receiving_short (b : BufName) (bs : List Byte) {n : Nat} {u : State} (hbusy : u.flags.busy = true)
    (hy : u.drv.yields = []) (hlen : bs.length < Buffers.len b u.buf) (hn : bs.length < n) :
    runSeq n (receiving b [] bs u) =
      if u.env.rxEnded then
        raise (shortCause b (BitVec.ofNat 32 bs.length)) (BitVec.ofNat 32 bs.length) (receiving b bs [] u)
      else receiving b bs [] u := by
  obtain ⟨k, rfl⟩ : ∃ k, n = (k + 1) + bs.length := ⟨n - bs.length - 1, by omega⟩
  have hpart := runSeq_receiving_part b bs (k + 1) [] [] u hbusy hy (by simpa using hlen)
  rw [List.append_nil, List.nil_append] at hpart
  rw [hpart]
  split
  · next he => rw [runSeq_of_step (by exact hbusy) (by exact hy) (microStep_receiving_end b bs he), runSeq_idle _ (raise_busy _ _ _)]
  · next he => exact runSeq_of_wait (by exact hbusy) (by exact hy) (microStep_receiving_wait b bs (by simpa using he))

/-- The header phase of a stream that has the 24 bytes takes them and ends (R130). -/
theorem runSeq_receiving_header (bs : List Byte) (n : Nat) {u : State} (hbusy : u.flags.busy = true)
    (hy : u.drv.yields = []) (hlen : Config.headerLen ≤ bs.length) :
    runSeq (n + Config.headerLen) (receiving .hdr [] bs u) =
      runSeq n (endRecv .hdr (receiving .hdr (bs.take Config.headerLen) (bs.drop Config.headerLen) u)) := by
  have htake : (bs.take Config.headerLen).length = Config.headerLen := List.length_take_of_le hlen
  have hne : bs.take Config.headerLen ≠ [] := List.ne_nil_of_length_eq_add_one htake
  have hall := runSeq_receiving_all .hdr _ n (bs.drop Config.headerLen) u hbusy hy htake hne
  rwa [List.take_append_drop, htake] at hall

/-- The sub-cause of a header that breaks off, by the number of its bytes (R193). -/
theorem shortCause_hdr {n : Nat} (h : n < 2 ^ 32) :
    shortCause .hdr (BitVec.ofNat 32 n) = if n = 0 then .eosAtBoundary else .shortHeader := by
  have hzero : BitVec.ofNat 32 n = 0 ↔ n = 0 := by
    rw [BitVec.toNat_eq, BitVec.toNat_ofNat, Nat.mod_eq_of_lt h]; rfl
  simp only [shortCause, hzero]

theorem seqTurn_accept_ldhdr {s : State} (hy : s.drv.yields = []) (hq : s.txq = []) :
    seqTurn (accept Code.ldhdr .hdrRx s) = ldhdrState s := by
  set u := headerBegun Code.ldhdr s with hu
  have hbusy : u.flags.busy = true := rfl
  have hbound : s.env.rx.length + Config.headerLen < stepBound (accept Code.ldhdr .hdrRx s) := by
    simp only [stepBound, accept_hdrRx]
    show _ < s.env.rx.length + _ + _ + _
    omega
  rw [seqTurn]
  generalize stepBound _ = n at hbound ⊢
  rw [accept_hdrRx, ldhdrState]
  by_cases hlen : Config.headerLen ≤ s.env.rx.length
  · obtain ⟨k, rfl⟩ : ∃ k, n = k + Config.headerLen := ⟨n - Config.headerLen, by omega⟩
    rw [runSeq_receiving_header _ k hbusy hy hlen, if_pos hlen]
    exact runSeq_idle k rfl
  · have hlt : s.env.rx.length < 24 := Nat.lt_of_not_le hlen
    have htake : s.env.rx.take Config.headerLen = s.env.rx := List.take_of_length_le hlt.le
    have hdrop : s.env.rx.drop Config.headerLen = [] := List.drop_eq_nil_of_le hlt.le
    rw [runSeq_receiving_short .hdr _ hbusy hy hlt (by omega), if_neg hlen, shortCause_hdr (by omega)]
    have hended : u.env.rxEnded = s.env.rxEnded := rfl
    rw [hended]
    split
    · rw [raise_eq]
      · simp only [consumed, headerLoaded, htake, hdrop]
        rfl
      · exact hq
    · simp only [consumed, headerLoaded, htake, hdrop]
      rfl

/-- Settles O24: the header phase takes the bytes that are there, and its end is the end of the command. -/
theorem ldhdrLoadsHeader : Obligations.LdhdrLoadsHeader := fun _ _ hb hd hy hq =>
  congrArg Host.Outcome.next ((issue_accepted hb fun _ => hd).trans (seqTurn_accept_ldhdr hy hq))

/-! ## `RDFRAME` (O27) -/

/-- A frame is there whole, or breaks off where the stream has ended, or is still to come (R145). -/
theorem frameOutcome_cases (x k total : Nat) (bs : List Byte) (ended : Bool) :
    frameOutcome x k total bs ended = .ok ∨
    (bs.length < total ∧ ended = true ∧ ∃ p n, frameOutcome x k total bs ended = .transport .incompleteFrame p n) ∨
    (bs.length < total ∧ ended = false ∧ ∃ p n, frameOutcome x k total bs ended = .waiting p n) := by
  simp only [frameOutcome]
  split
  · exact .inl rfl
  · next h =>
    cases ended
    · exact .inr (.inr ⟨Nat.lt_of_not_le h, rfl, _, _, rfl⟩)
    · exact .inr (.inl ⟨Nat.lt_of_not_le h, rfl, _, _, rfl⟩)

theorem seqTurn_accept_rdframe {s : State} (hy : s.drv.yields = []) (hq : s.txq = [])
    (hsum : s.h.totLen.toNat = s.h.extLen.toNat + s.h.keyLen.toNat + s.h.valLen.toNat) :
    seqTurn (accept Code.rdframe .check s) = rdframeState s := by
  set u := accept Code.rdframe .check s with hu
  have hqu : u.txq = [] := hq
  have hcheck := runSeq_check (stepBound u) u rfl rfl hy (by simp only [stepBound]; omega)
  rw [seqTurn, hcheck, rdframeState]
  by_cases hmax : s.maxbody < s.h.totLen
  · rw [if_pos (show u.maxbody < u.h.totLen from hmax), if_pos hmax]
    exact raise_eq _ _ u hqu
  · rw [if_neg (show ¬ u.maxbody < u.h.totLen from hmax), if_neg hmax]
    have hout : frameOutcome u.h.extLen.toNat u.h.keyLen.toNat (u.h.extLen.toNat + u.h.keyLen.toNat + u.h.valLen.toNat)
        u.env.rx u.env.rxEnded =
        frameOutcome s.h.extLen.toNat s.h.keyLen.toNat s.h.totLen.toNat s.env.rx s.env.rxEnded := by rw [hsum]; rfl
    have hdrop : (frameRead false 0 s).env.rx.drop s.env.rx.length = [] := List.drop_length
    rw [hout]
    rcases frameOutcome_cases s.h.extLen.toNat s.h.keyLen.toNat s.h.totLen.toNat s.env.rx s.env.rxEnded with
      e | ⟨-, -, p, n, e⟩ | ⟨-, -, p, n, e⟩
    · have htotal : Buffers.total (allocate u).buf = s.h.totLen.toNat := hsum.symm
      simp only [e, frameEnd, htotal]
      rfl
    · simp only [e, frameEnd]
      rw [raise_eq]
      · simp only [consumed, hdrop]
        rfl
      · exact hqu
    · simp only [e, frameEnd, consumed, hdrop]
      rfl

/-- Settles O27: the check, and then the sections one after the other, are `rdframeState` outcome by outcome. -/
theorem rdframeReadsFrame : Obligations.RdframeReadsFrame := by
  intro s a hb hd hv hy hq hsum
  have haccepted : issue Code.rdframe a true s.flags.hv .check s = seqTurn (accept Code.rdframe .check s) := by
    rw [hv]; exact issue_accepted hb fun _ => hd
  exact congrArg Host.Outcome.next (haccepted.trans (seqTurn_accept_rdframe hy hq hsum))

/-! ## A stream in pieces (O59)

What `RxPeer` sends while a receive is in flight does not change the micro-steps it has taken: none of them looks beyond the
byte it takes. -/

/-- The phases of a receive, and `IDLE` after it (R41, R42). -/
def Phase.receives (p : Phase) : Prop := p = .idle ∨ (∃ b, p = rxPhase b) ∨ p = .decode ∨ p = .check

theorem receives_rxPhase (b : BufName) : (rxPhase b).receives := .inr (.inl ⟨b, rfl⟩)

theorem nextRecv_receives (l : List BufName) (s : State) : (nextRecv l s).seq.phase.receives := by
  rcases nextRecv_cases l s with e | ⟨b, -, e⟩
  · exact .inl (by simp [e])
  · simpa [e] using receives_rxPhase b

theorem endRecv_receives (b : BufName) (s : State) : (endRecv b s).seq.phase.receives := by
  by_cases hb : b = .hdr
  · subst hb
    simp only [endRecv]
    split
    · simp [Phase.receives]
    · simp [Phase.receives]
  · rw [endRecv_section hb]
    exact nextRecv_receives _ s

theorem received_receives {b : BufName} {s : State} (hp : s.seq.phase = rxPhase b) (x : Byte) :
    (received b x s).seq.phase.receives := by
  by_cases hn : s.seq.cnt.toNat + 1 = Buffers.len b s.buf
  · rw [received_last hn]
    exact endRecv_receives b _
  · rw [received_part hn]
    exact .inr (.inl ⟨b, hp⟩)

/-- Everything a micro-step of a receive can be. -/
theorem Phase.receives.microStep_cases {s t : State} (hr : s.seq.phase.receives) (h : microStep s = some t) :
    (∃ b x rest, s.seq.phase = rxPhase b ∧ s.env.rx = x :: rest ∧ t = received b x (s.setEnv { s.env with rx := rest })) ∨
    (∃ b, s.seq.phase = rxPhase b ∧ s.env.rx = [] ∧ s.env.rxEnded = true ∧ t = raise (shortCause b s.seq.cnt) s.seq.cnt s) ∨
    (s.seq.phase = .decode ∧ t = decodeStep s) ∨ (s.seq.phase = .check ∧ t = checkStep s) := by
  rcases hr with hp | ⟨b, hp⟩ | hp | hp
  · rw [microStep_idle hp] at h; cases h
  · rw [microStep_rxPhase b hp, recvStep] at h
    split at h
    · next x rest hrx => exact .inl ⟨b, x, rest, hp, hrx, (Option.some.inj h).symm⟩
    · next hrx =>
      split at h
      · next he => exact .inr (.inl ⟨b, hp, hrx, he, (Option.some.inj h).symm⟩)
      · cases h
  · rw [microStep_decode hp] at h
    exact .inr (.inr (.inl ⟨hp, (Option.some.inj h).symm⟩))
  · rw [microStep_check hp] at h
    exact .inr (.inr (.inr ⟨hp, (Option.some.inj h).symm⟩))

/-- A receive goes on to the phases of a receive. -/
theorem Phase.receives.microStep {s t : State} (hr : s.seq.phase.receives) (h : microStep s = some t) :
    t.seq.phase.receives := by
  rcases hr.microStep_cases h with ⟨b, x, rest, hp, -, rfl⟩ | ⟨b, -, -, -, rfl⟩ | ⟨-, rfl⟩ | ⟨-, rfl⟩
  · exact received_receives (s := s.setEnv { s.env with rx := rest }) hp x
  · exact .inl (by simp)
  · rcases decodeStep_cases s with ⟨c, i, e⟩ | ⟨h, f, e | e⟩ <;> simp [e, Phase.receives]
  · simp only [checkStep]
    split
    · exact .inl (by simp)
    · exact nextRecv_receives _ _

/-- Every micro-step of a receive takes one off what is left, in any state. -/
theorem Phase.receives.stepsLeft_lt {s t : State} (hr : s.seq.phase.receives) (h : Machine.microStep s = some t) :
    stepsLeft t < stepsLeft s := by
  rcases hr.microStep_cases h with ⟨b, x, rest, hp, hrx, rfl⟩ | ⟨b, hp, -, -, rfl⟩ | ⟨hp, rfl⟩ | ⟨hp, rfl⟩
  · refine (stepsLeft_received_le (s := s.setEnv { s.env with rx := rest }) hp x).trans_lt ?_
    rw [stepsLeft_rxPhase hp, stepsLeft_rxPhase (b := b) (by exact hp), hrx]
    simp
  · rw [stepsLeft_rxPhase hp, stepsLeft_raise]
    split <;> omega
  · rcases decodeStep_cases s with ⟨c, i, e⟩ | ⟨r, f, e | e⟩ <;> simp [e, stepsLeft, hp]
  · simp only [checkStep]
    split
    · simp [stepsLeft, hp]
    · refine (stepsLeft_nextRecv_le (by decide) (allocate s)).trans_lt ?_
      simp [stepsLeft, hp, allocate]

/-- Induction along the uninterrupted turn of a receive: it has nothing to do, or waits, or takes a micro-step. -/
theorem Phase.receives.turn_induction {motive : ∀ s : State, s.seq.phase.receives → s.drv.yields = [] → Prop}
    (idle : ∀ s hr hy, s.flags.busy = false → motive s hr hy)
    (waits : ∀ s hr hy, s.flags.busy = true → Machine.microStep s = none → motive s hr hy)
    (steps : ∀ s hr hy t htr hty, s.flags.busy = true → Machine.microStep s = some t → stepsLeft t < stepsLeft s →
      motive t htr hty → motive s hr hy)
    (s : State) (hr : s.seq.phase.receives) (hy : s.drv.yields = []) : motive s hr hy := by
  induction hn : stepsLeft s using Nat.strong_induction_on generalizing s with
  | _ n ih =>
    cases hb : s.flags.busy with
    | false => exact idle s hr hy hb
    | true =>
      cases hm : Machine.microStep s with
      | none => exact waits s hr hy hb hm
      | some t =>
        have hlt := hr.stepsLeft_lt hm
        have htr := hr.microStep hm
        have hty := (microStep_yields hm).trans hy
        exact steps s hr hy t htr hty hb hm hlt (ih _ (hn ▸ hlt) t htr hty rfl)

/-- A bound that covers what is left never cuts the turn of a receive short, in any state. -/
theorem Phase.receives.runSeq_eq_seqTurn {s : State} (hr : s.seq.phase.receives) (hy : s.drv.yields = []) {n : Nat}
    (hn : stepsLeft s ≤ n) : runSeq n s = seqTurn s := by
  have hbound := stepsLeft_le_stepBound s
  rw [seqTurn]
  generalize stepBound s = m at hbound
  induction s, hr, hy using Phase.receives.turn_induction generalizing n m with
  | idle s hr hy hb => rw [runSeq_idle n hb, runSeq_idle m hb]
  | waits s hr hy hb hm => rw [runSeq_of_wait hb hy hm, runSeq_of_wait hb hy hm]
  | steps s hr hy t htr hty hb hm hlt ih =>
    obtain ⟨n, rfl⟩ := Nat.exists_eq_succ_of_ne_zero (show n ≠ 0 by omega)
    obtain ⟨m, rfl⟩ := Nat.exists_eq_succ_of_ne_zero (show m ≠ 0 by omega)
    rw [runSeq_of_step hb hy hm, runSeq_of_step hb hy hm]
    exact ih (by omega) m (by omega)

/-- The turn of a receive is one micro-step and the turn from there. -/
theorem Phase.receives.seqTurn_of_step {s t : State} (hr : s.seq.phase.receives) (hy : s.drv.yields = [])
    (hb : s.flags.busy = true) (hm : Machine.microStep s = some t) : seqTurn s = seqTurn t := by
  rw [← hr.runSeq_eq_seqTurn hy (Nat.le_succ _), runSeq_of_step hb hy hm]
  exact (hr.microStep hm).runSeq_eq_seqTurn ((microStep_yields hm).trans hy) (hr.stepsLeft_lt hm).le

/-! The environment is carried along by what a receive does with a byte it has. -/

theorem enter_setEnv (p : Phase) (s : State) (e : Env) : enter p (s.setEnv e) = (enter p s).setEnv e := by
  cases p <;> rfl

theorem nextRecv_setEnv (l : List BufName) (s : State) (e : Env) : nextRecv l (s.setEnv e) = (nextRecv l s).setEnv e := by
  induction l with
  | nil => rfl
  | cons b l ih =>
    by_cases h0 : Buffers.len b s.buf = 0
    · simp [nextRecv, h0, ih]
    · simp [nextRecv, h0, enter_setEnv]

theorem endRecv_setEnv (b : BufName) (s : State) (e : Env) : endRecv b (s.setEnv e) = (endRecv b s).setEnv e := by
  by_cases hb : b = .hdr
  · subst hb
    by_cases hr : isReceive s.cmdreg = true
    · simp only [endRecv, State.setEnv_cmdreg, hr, if_true]
      exact enter_setEnv _ (s.setFlags _) e
    · simp only [endRecv, State.setEnv_cmdreg, hr]
      rfl
  · rw [endRecv_section hb, endRecv_section hb, nextRecv_setEnv]

theorem received_setEnv (b : BufName) (x : Byte) (s : State) (e : Env) :
    received b x (s.setEnv e) = (received b x s).setEnv e := by
  by_cases hn : s.seq.cnt.toNat + 1 = Buffers.len b s.buf
  · rw [received_last (s := s.setEnv e) hn, received_last hn]
    exact endRecv_setEnv b ((s.setBuf _).setSeq _) e
  · rw [received_part (s := s.setEnv e) hn, received_part hn]
    rfl

/-- An error that is none of the transport's leaves the environment alone (R200). -/
theorem raise_setEnv {c : Cause} (hc : c.isTransport = false) (i : Word) (s : State) (e : Env) :
    raise c i (s.setEnv e) = (raise c i s).setEnv e := by
  simp only [raise, hc]
  rfl

theorem decodeStep_setEnv (s : State) (e : Env) : decodeStep (s.setEnv e) = (decodeStep s).setEnv e := by
  rw [decodeStep_eq, decodeStep_eq]
  have hbytes : hdrBytes (s.setEnv e) = hdrBytes s := rfl
  rw [hbytes, State.setEnv_cmdreg]
  split
  · exact raise_setEnv rfl _ s e
  · split
    · exact raise_setEnv rfl _ s e
    · dsimp only
      split
      · exact enter_setEnv _ ((s.setH _).setFlags _) e
      · rfl

theorem checkStep_setEnv (s : State) (e : Env) : checkStep (s.setEnv e) = (checkStep s).setEnv e := by
  by_cases hmax : s.maxbody < s.h.totLen
  · rw [checkStep, checkStep, if_pos hmax, if_pos (by exact hmax)]
    exact raise_setEnv rfl _ s e
  · rw [checkStep, checkStep, if_neg hmax, if_neg (by exact hmax)]
    exact nextRecv_setEnv _ (allocate s) e

/-- More bytes at the end of the stream. -/
def State.moreRx (cs : List Byte) (s : State) : State := s.setEnv { s.env with rx := s.env.rx ++ cs }

theorem peerSends_of_open {s : State} (h : s.env.rxEnded = false) (cs : List Byte) : peerSends cs s = s.moreRx cs := by
  simp [peerSends, h, State.moreRx]

theorem decodeStep_env (s : State) : (decodeStep s).env = s.env :=
  (congrArg State.env (decodeStep_setEnv s s.env)).trans rfl

theorem checkStep_env (s : State) : (checkStep s).env = s.env :=
  (congrArg State.env (checkStep_setEnv s s.env)).trans rfl

theorem recvStep_cons {b : BufName} {x : Byte} {rest : List Byte} {s : State} (h : s.env.rx = x :: rest) :
    recvStep b s = some (received b x (s.setEnv { s.env with rx := rest })) := by
  simp only [recvStep, h]

/-- A micro-step of a receive does not look beyond the byte it takes. -/
theorem Phase.receives.microStep_moreRx {s t : State} (hr : s.seq.phase.receives) (hopen : s.env.rxEnded = false)
    (h : Machine.microStep s = some t) (cs : List Byte) :
    t.env.rxEnded = false ∧ Machine.microStep (s.moreRx cs) = some (t.moreRx cs) := by
  rcases hr.microStep_cases h with ⟨b, x, rest, hp, hrx, rfl⟩ | ⟨b, -, -, he, -⟩ | ⟨hp, rfl⟩ | ⟨hp, rfl⟩
  · refine ⟨by simpa using hopen, ?_⟩
    have hmore : (s.moreRx cs).env.rx = x :: (rest ++ cs) := congrArg (· ++ cs) hrx
    rw [microStep_rxPhase (s := s.moreRx cs) b hp, recvStep_cons hmore]
    simp only [State.moreRx, received_setEnv]
    rfl
  · rw [hopen] at he; cases he
  · refine ⟨by rw [decodeStep_env, hopen], ?_⟩
    rw [microStep_decode (s := s.moreRx cs) hp, State.moreRx, State.moreRx, decodeStep_setEnv, decodeStep_env]
  · refine ⟨by rw [checkStep_env, hopen], ?_⟩
    rw [microStep_check (s := s.moreRx cs) hp, State.moreRx, State.moreRx, checkStep_setEnv, checkStep_env]

/-- What comes after the turn of a receive might as well have been there before. -/
theorem Phase.receives.seqTurn_moreRx (cs : List Byte) {s : State} (hr : s.seq.phase.receives) (hy : s.drv.yields = [])
    (hopen : s.env.rxEnded = false) : seqTurn (s.moreRx cs) = seqTurn (peerSends cs (seqTurn s)) := by
  induction s, hr, hy using Phase.receives.turn_induction with
  | idle s hr hy hb => rw [seqTurn_of_idle hb, peerSends_of_open hopen]
  | waits s hr hy hb hm => rw [seqTurn_of_wait hb hy hm, peerSends_of_open hopen]
  | steps s hr hy t htr hty hb hm hlt ih =>
    obtain ⟨hopen', hm'⟩ := hr.microStep_moreRx hopen hm cs
    rw [hr.seqTurn_of_step hy hb hm, ← ih hopen']
    exact Phase.receives.seqTurn_of_step (s := s.moreRx cs) hr hy hb hm'

theorem accept_setEnv (code : Byte) (p : Phase) (s : State) (e : Env) :
    accept code p (s.setEnv e) = (accept code p s).setEnv e :=
  enter_setEnv p ((beginRecord code s).setFlags _) e

theorem accept_env (code : Byte) (p : Phase) (s : State) : (accept code p s).env = s.env := enter_env p _

theorem accept_receives {p : Phase} (hp : p.receives) (code : Byte) (s : State) : (accept code p s).seq.phase.receives := by
  rw [accept, enter_seq]; exact hp

theorem accept_drv (code : Byte) (p : Phase) (s : State) : (accept code p s).drv = s.drv := by cases p <;> rfl

/-- A receive that is given on a part of the stream, or on more of it. -/
theorem issue_moreRx (code : Byte) (arg : Word) (rd : Bool) {p : Phase} (hp : p.receives) {s : State}
    (hb : s.flags.busy = false) (hy : s.drv.yields = []) (hopen : s.env.rxEnded = false) (cs : List Byte) :
    issue code arg true rd p (s.moreRx cs) = seqTurn (peerSends cs (issue code arg true rd p s)) := by
  have hnot (c : Cause) (info : Word) :
      notStarted c code info (s.moreRx cs) = seqTurn (peerSends cs (notStarted c code info s)) := by
    rw [peerSends_of_open (s := notStarted c code info s) hopen, seqTurn_of_idle (by exact hb)]
    rfl
  rcases issue_cases code arg true rd p s with ⟨h, -⟩ | ⟨-, -, hd, e⟩ | ⟨-, rfl, e⟩ | ⟨-, rfl, hd, e⟩
  · rw [hb] at h; cases h
  · rw [e, issue_dead (s := s.moreRx cs) hb hd, linkDead_eq, linkDead_eq, hnot]
  · cases hd : s.flags.dead with
    | true => rw [issue_dead (s := s.moreRx cs) hb hd, issue_dead hb hd, linkDead_eq, linkDead_eq, hnot]
    | false => rw [e, issue_refused (s := s.moreRx cs) hb fun _ => hd, refuse_eq, refuse_eq, hnot]
  · rw [e, issue_accepted (s := s.moreRx cs) hb hd]
    have hmore : accept code p (s.moreRx cs) = (accept code p s).moreRx cs := by
      rw [State.moreRx, State.moreRx, accept_setEnv, accept_env]
    rw [hmore]
    exact (accept_receives hp code s).seqTurn_moreRx cs (by rw [accept_drv, hy]) (by rw [accept_env, hopen])

/-- Settles O59: the four commands differ in their rows only. -/
theorem splitDeliveryReceivesTheSame : Obligations.SplitDeliveryReceivesTheSame := by
  intro s t a bs cs hb hy hopen i hi h
  have hissue (code : Byte) (rd : Bool) {p : Phase} (hp : p.receives) :=
    issue_moreRx code a rd hp (s := s.setEnv { s.env with rx := bs }) hb hy hopen cs
  have hhdr : Phase.hdrRx.receives := receives_rxPhase .hdr
  have hcheck : Phase.check.receives := .inr (.inr (.inr rfl))
  simp only [List.mem_cons, List.not_mem_nil, or_false] at hi
  rcases hi with rfl | rfl | rfl | rfl
  all_goals obtain rfl := Host.Outcome.next.inj h
  · exact congrArg _ (hissue _ _ hhdr)
  · exact congrArg _ (hissue _ s.flags.hv hcheck)
  · exact congrArg _ (hissue _ _ hhdr)
  · exact congrArg _ (hissue _ _ hhdr)

end Sys2Proof.Machine
end

section
/-! Proofs of the statements about the memories and the streams (20_memory.md): words from the host, the transmits as a whole,
what every command leaves alone, and the wire. -/

namespace Sys2Proof.Machine

/-! ## A word the host gives (O5, O6) -/

theorem step_of_word {s t : State} {bytes : List Byte} {i : Instr} (h : nextInput s = (.word bytes, t))
    (hd : decode bytes = .ok i) : step s = exec i t := by
  simp only [step, h, hd]

/-- Settles O5: the word is the head of the list, and what it decodes to is executed in the rest. -/
theorem stepExecutesDecodedWord : Obligations.StepExecutesDecodedWord :=
  fun _ _ _ _ h hd => step_of_word (nextInput_cons h) hd

theorem decode_of_decodeTableWord {nbits w : Nat} {i : Instr} (h : decodeTableWord nbits w = some i) :
    decode (tableWordBytes nbits w) = .ok i := by
  rw [decodeTableWord] at h
  cases hd : decode (tableWordBytes nbits w) with
  | ok j => rw [hd] at h; exact congrArg _ (Option.some.inj h)
  | error e => rw [hd] at h; cases h

/-- Settles O6: a placed word is the head of the list, and taking it off gives back the state before. -/
theorem placedTableWordRuns : Obligations.PlacedTableWordRuns := fun s nbits w _ h =>
  step_of_word (nextInput_cons (s := s.withFetchWord nbits w) rfl) (decode_of_decodeTableWord h)

/-! ## A transmit as a whole (R153 to R156; O38) -/

/-- After `ENCODE` a transmit is in flight with its header built, and goes on to the sections of the packet. -/
theorem encodeStep_accept_transmit {code : Byte} (hc : isTransmit code = true) (s : State) :
    encodeStep (accept code .encode s) =
      nextSend [.hdr, .ext, .key, .val] (inFlight .encode 0 code (headerBuilt (magicOf code) s)) := by
  have hheader : encodedHeader (magicOf code) (accept code .encode s) = Mem.ofBytes 0 (headerBytes (magicOf code) s) :=
    encodedHeader_eq _ (accept code .encode s) (magicOf_cases _)
  have hcmd : (accept code .encode s).cmdreg = code := rfl
  simp only [encodeStep, hcmd, hc, if_true, hheader]
  rfl

/-- A transport error of a command in flight: the staged bytes are thrown away (R200). -/
theorem raise_inFlight {c : Cause} (hc : c.isTransport = true) (i : Word) (p : Phase) (n : Nat) (code : Byte) (u : State) :
    raise c i (inFlight p n code u) = endedError c p code i (discardStaged u) := by
  rw [raise_transport hc]
  obtain ⟨_, _, _, _, _, _, _, q, _, _⟩ := u
  cases q <;> rfl

/-- The uninterrupted turn of a transmit is `txState`, for every sink. -/
theorem seqTurn_accept_transmit {code : Byte} (hc : isTransmit code = true) {s : State} (hy : s.drv.yields = [])
    (hq : s.txq = []) : seqTurn (accept code .encode s) = txState code (magicOf code) s := by
  set w := inFlight .encode 0 code (headerBuilt (magicOf code) s)
  have hpacket : bufferBytes .hdr w ++ bufferBytes .ext w ++ bufferBytes .key w ++ bufferBytes .val w =
      packet (magicOf code) s := by
    have hheader : bufferBytes .hdr w = headerBytes (magicOf code) s := hdrBytes_headerBuilt _ s
    rw [hheader]; rfl
  have hbound : 24 + Buffers.total w.buf + 2 ≤ stepBound (accept code .encode s) := by
    show 24 + Buffers.total s.buf + 2 ≤ s.env.rx.length + 24 + Buffers.total s.buf + 8
    omega
  obtain ⟨n, hn⟩ : ∃ n, stepBound (accept code .encode s) = n + 1 := ⟨_, rfl⟩
  rw [seqTurn, hn, runSeq_of_step (s := accept code .encode s) rfl hy (microStep_encode rfl),
    encodeStep_accept_transmit hc, runSeq_send n w rfl hy (by omega), sendResult_eq w hq, hpacket, txState]
  cases hs : s.env.sink with
  | takesAll =>
    have hsink : w.env.sink = .takesAll := hs
    simp only [hsink]
    rfl
  | takes j fails =>
    have hsink : w.env.sink = .takes j fails := hs
    simp only [hsink]
    by_cases hlt : (packet (magicOf code) s).length < j
    · rw [if_pos hlt, if_pos hlt]
      rfl
    · rw [if_neg hlt, if_neg hlt]
      cases fails with
      | false => rfl
      | true =>
        rw [if_pos rfl, if_pos rfl]
        exact raise_inFlight (by split <;> rfl) _ _ _ code (staged (magicOf code) j true s)

theorem exec_transmits {s : State} (a : Word) (hb : s.flags.busy = false) (hd : s.flags.dead = false)
    (hy : s.drv.yields = []) (hq : s.txq = []) :
    exec (.txreq a) s = .next (txState Code.txreq Config.reqMagic s) ∧
    exec (.txrsp a) s = .next (txState Code.txrsp Config.rspMagic s) :=
  ⟨congrArg _ ((issue_accepted hb fun _ => hd).trans (seqTurn_accept_transmit rfl hy hq)),
   congrArg _ ((issue_accepted hb fun _ => hd).trans (seqTurn_accept_transmit rfl hy hq))⟩

theorem packet_length (magic : Byte) (s : State) : (packet magic s).length = 24 + Buffers.total s.buf := by
  simp [packet, headerBytes_length, bufferBytes, Buffers.len, Buffers.total, Nat.add_assoc]

theorem txState_takesAll {s : State} (h : s.env.sink = .takesAll) (code magic : Byte) :
    txState code magic s = endedOk code (sent magic .takesAll s) := by
  simp only [txState, h]

/-- The sink answers each byte of the packet and the flush. -/
theorem txState_takes {s : State} {j : Nat} {f : Bool} (h : s.env.sink = .takes j f) (hj : 25 + Buffers.total s.buf ≤ j)
    (code magic : Byte) :
    txState code magic s = endedOk code (sent magic (.takes (j - (25 + Buffers.total s.buf)) f) s) := by
  have hlt : 24 + Buffers.total s.buf < j := by omega
  have hsub : 24 + Buffers.total s.buf + 1 = 25 + Buffers.total s.buf := by omega
  simp only [txState, h, packet_length, hlt, if_true, hsub]

/-- Settles O38: the transmits are `txState`, whose sink here has an answer `Ok` for every byte and the flush. -/
theorem transmitsComplete : Obligations.TransmitsComplete := by
  intro s a hb hd hy hq
  obtain ⟨hreq, hrsp⟩ := exec_transmits a hb hd hy hq
  refine ⟨fun hk => ?_, fun j f hk hj => ?_⟩
  · rw [hreq, hrsp, txState_takesAll hk, txState_takesAll hk]
    exact ⟨rfl, rfl⟩
  · rw [hreq, hrsp, txState_takes hk hj, txState_takes hk hj]
    exact ⟨rfl, rfl⟩

/-- A transmit ends ok with the packet sent, or in an error with some of it staged, or waits with some of it staged (R156). -/
theorem txState_cases (code magic : Byte) (s : State) :
    (∃ k, txState code magic s = endedOk code (sent magic k s)) ∨
    (∃ c p i j, c.isTransport = true ∧ txState code magic s = endedError c p code i (discardStaged (staged magic j true s))) ∨
    ∃ p n j, txState code magic s = inFlight p n code (staged magic j false s) := by
  simp only [txState]
  split
  · exact .inl ⟨_, rfl⟩
  · next j fails _ =>
    split
    · exact .inl ⟨_, rfl⟩
    · cases fails with
      | false => exact .inr (.inr ⟨_, _, j, rfl⟩)
      | true => exact .inr (.inl ⟨_, _, _, j, by split <;> rfl, rfl⟩)

/-- The wire laws of a transmit that has ended (R70 (a), (b)). -/
theorem txState_wire {code magic : Byte} {s t : State} (hq : s.txq = []) (h : t = txState code magic s)
    (hb : t.flags.busy = false) :
    (t.errs.err.cause = .none → t.env.wire = s.env.wire ++ packet magic s ∧ t.txq = []) ∧
    (t.errs.err.cause ≠ .none → t.flags.dead = true ∧ t.txq = [] ∧
      ∃ k, t.env.wire = s.env.wire ++ (packet magic s).take k) := by
  rcases txState_cases code magic s with ⟨k, e⟩ | ⟨c, p, i, j, hc, e⟩ | ⟨p, n, j, e⟩ <;> rw [e] at h <;> subst h
  · exact ⟨fun _ => ⟨rfl, hq⟩, fun hne => absurd rfl hne⟩
  · obtain ⟨k, n, hdiscard⟩ := discardStaged_spec (staged magic j true s)
    rw [hdiscard]
    refine ⟨fun hnone => ?_, fun _ => ⟨?_, rfl, min k j, ?_⟩⟩
    · rw [show c = .none from hnone] at hc
      cases hc
    · simp [endedError, hc]
    · exact congrArg _ List.take_take
  · cases hb

/-! ## The phases of one command (R41, R42) -/

theorem passes_frameRx {code : Byte} {p : Phase} (h : passesThrough code .check = true)
    (hp : p = .idle ∨ isFrameRx p = true) : passesThrough code p = true := by
  rcases hp with rfl | hp
  · rfl
  · cases p with
    | extRx | keyRx | valRx => exact h
    | _ => cases hp

theorem passes_tx {code : Byte} {p : Phase} (h : isTransmit code = true) (hp : isTx p = true) :
    passesThrough code p = true := by
  cases p with
  | hdrTx | extTx | keyTx | valTx | flush => exact h
  | _ => cases hp

theorem passes_flush {code : Byte} {p : Phase} (h : passesThrough code p = true) (hp : isTx p = true) :
    passesThrough code .flush = true := by
  cases p with
  | hdrTx | extTx | keyTx | valTx | flush => exact h
  | _ => cases hp

theorem passes_of_isReceive {code : Byte} (h : isReceive code = true) :
    passesThrough code .decode = true ∧ passesThrough code .check = true := by
  simp only [isReceive, decide_eq_true_eq] at h
  rcases h with rfl | rfl <;> exact ⟨rfl, rfl⟩

theorem not_passes_of_isTransmit {code : Byte} (h : isTransmit code = true) :
    passesThrough code .hdrRx = false ∧ passesThrough code .decode = false ∧ passesThrough code .check = false := by
  simp only [isTransmit, decide_eq_true_eq] at h
  rcases h with rfl | rfl <;> exact ⟨rfl, rfl, rfl⟩

theorem isStream_of_passes_rx {code : Byte} {b : BufName} (h : passesThrough code (rxPhase b) = true) :
    isStream code = true := by
  by_cases hb : b = .hdr
  · subst hb
    simp only [rxPhase, passesThrough, isStream, decide_eq_true_eq] at *
    tauto
  · exact passes_check_stream (passes_section hb code ▸ h)

theorem isStream_of_passes_flush {code : Byte} (h : passesThrough code .flush = true) : isStream code = true := by
  simp only [passesThrough, isStream, decide_eq_true_eq] at *
  tauto

/-- A command that is no stream command passes through none of the phases that use the streams. -/
theorem not_passes_of_not_isStream {code : Byte} (h : isStream code = false) :
    passesThrough code .hdrRx = false ∧ passesThrough code .check = false ∧ passesThrough code .flush = false := by
  refine ⟨?_, ?_, ?_⟩ <;> by_contra hp <;> rw [Bool.not_eq_false] at hp
  · exact nomatch (isStream_of_passes_rx (b := .hdr) hp).symm.trans h
  · exact nomatch (passes_check_stream hp).symm.trans h
  · exact nomatch (isStream_of_passes_flush hp).symm.trans h

/-! ## Everything a micro-step can come to (R43, R44)

Going on to another phase changes only the flags and `SEQ`. -/

theorem nextRecv_flow {l : List BufName} (hl : BufName.hdr ∉ l) (s : State) :
    ∃ f q, nextRecv l s = (s.setFlags f).setSeq q ∧ f.hl = s.flags.hl ∧ (q.phase = .idle ∨ isFrameRx q.phase = true) := by
  rcases nextRecv_cases l s with e | ⟨b, hb, e⟩
  · exact ⟨_, _, e, rfl, .inl rfl⟩
  · cases b with
    | hdr => exact absurd hb hl
    | ext | key | val => exact ⟨_, _, e, rfl, .inr rfl⟩

theorem nextSend_flow (l : List BufName) (s : State) : ∃ q, nextSend l s = s.setSeq q ∧ isTx q.phase = true := by
  rcases nextSend_cases l s with e | ⟨b, -, e⟩
  · exact ⟨_, e, rfl⟩
  · exact ⟨⟨txPhase b, 0⟩, by rw [e]; cases b <;> rfl, by cases b <;> rfl⟩

theorem endRecv_flow (b : BufName) (s : State) :
    ∃ f q, endRecv b s = (s.setFlags f).setSeq q ∧ (b ≠ .hdr → f.hl = s.flags.hl) ∧ (b = .hdr → f.fok = s.flags.fok) ∧
      (passesThrough s.cmdreg (rxPhase b) = true → passesThrough s.cmdreg q.phase = true) := by
  by_cases hb : b = .hdr
  · subst hb
    simp only [endRecv]
    split
    · next hrec => exact ⟨_, _, rfl, fun h => absurd rfl h, fun _ => rfl, fun _ => (passes_of_isReceive hrec).1⟩
    · exact ⟨_, _, rfl, fun h => absurd rfl h, fun _ => rfl, fun _ => rfl⟩
  · obtain ⟨f, q, e, hhl, hq⟩ := nextRecv_flow (hdr_notMem_laterSections b) s
    exact ⟨f, q, (endRecv_section hb s).trans e, fun _ => hhl, fun h => absurd h hb,
      fun h => passes_frameRx (passes_section hb _ ▸ h) hq⟩

theorem received_flow {b : BufName} {s : State} (hp : s.seq.phase = rxPhase b) (x : Byte) :
    ∃ f q, received b x s = ((s.setBuf (Buffers.store b s.seq.cnt.toNat x s.buf)).setFlags f).setSeq q ∧
      (b ≠ .hdr → f.hl = s.flags.hl) ∧ (b = .hdr → f.fok = s.flags.fok) ∧
      (passesThrough s.cmdreg s.seq.phase = true → passesThrough s.cmdreg q.phase = true) := by
  by_cases hn : s.seq.cnt.toNat + 1 = Buffers.len b s.buf
  · obtain ⟨f, q, e, hhl, hfok, hpass⟩ :=
      endRecv_flow b ((s.setBuf (Buffers.store b s.seq.cnt.toNat x s.buf)).setSeq ⟨s.seq.phase, s.seq.cnt + 1⟩)
    exact ⟨f, q, (received_last hn).trans e, hhl, hfok, fun h => hpass (hp ▸ h)⟩
  · exact ⟨s.flags, _, received_part hn, fun _ => rfl, fun _ => rfl, id⟩

theorem pushed_flow {b : BufName} {s : State} (hp : s.seq.phase = txPhase b) :
    ∃ out q, pushed b s = (s.setTxq out).setSeq q ∧ isTx q.phase = true := by
  by_cases hn : s.seq.cnt.toNat + 1 = Buffers.len b s.buf
  · obtain ⟨q, e, hq⟩ := nextSend_flow (laterSections b) ((s.setTxq _).setSeq ⟨s.seq.phase, s.seq.cnt + 1⟩)
    exact ⟨_, q, (pushed_last hn).trans e, hq⟩
  · exact ⟨_, _, pushed_part hn, by rw [hp]; cases b <;> rfl⟩

/-- Everything a micro-step in `s` can come to, each by what it writes; `passes` says that the next phase is one of the same
command. -/
inductive MicroStepResult (s : State) : State → Prop
  /-- A transport error (R200): a pull finds the end of the stream, or a push or the flush fails. -/
  | failed {c : Cause} {n : Nat} (info : Word) (k : Nat)
      (phase : (∃ b, s.seq.phase = rxPhase b) ∨ isTx s.seq.phase = true) (draws : s.txq = [] → n = s.drv.draws) :
      MicroStepResult s (endedError c s.seq.phase s.cmdreg info
        { s with txq := [], env := { s.env with wire := s.env.wire ++ s.txq.take k }, drv := { s.drv with draws := n } })
  /-- `DECODE` or `CHECK` finds fault with the header (R131, R140). -/
  | rejected {c : Cause} (info : Word) (phase : s.seq.phase = .decode ∨ s.seq.phase = .check)
      (kind : c.isTransport = false) : MicroStepResult s (endedError c s.seq.phase s.cmdreg info s)
  /-- A byte of the stream has come for a buffer (R43). -/
  | pulled {b : BufName} {x : Byte} {rest : List Byte} {f : Flags} {q : Seq} (phase : s.seq.phase = rxPhase b)
      (rx : s.env.rx = x :: rest) (hl : b ≠ .hdr → f.hl = s.flags.hl) (fok : b = .hdr → f.fok = s.flags.fok)
      (passes : passesThrough s.cmdreg s.seq.phase = true → passesThrough s.cmdreg q.phase = true) :
      MicroStepResult s ((((s.setEnv { s.env with rx := rest }).setBuf
        (Buffers.store b s.seq.cnt.toNat x s.buf)).setFlags f).setSeq q)
  /-- The header field registers are decoded (R131). -/
  | decoded {f : Flags} {q : Seq} (phase : s.seq.phase = .decode) (hl : f.hl = s.flags.hl) (dead : f.dead = s.flags.dead)
      (fok : isReceive s.cmdreg = false → f.fok = s.flags.fok) (passes : passesThrough s.cmdreg q.phase = true) :
      MicroStepResult s (((s.setH (regsFrom (magicOf s.cmdreg) (hdrBytes s) s.h)).setFlags f).setSeq q)
  /-- The section buffers are allocated (R34, R140). -/
  | allocated {f : Flags} {q : Seq} (phase : s.seq.phase = .check) (hl : f.hl = s.flags.hl)
      (passes : q.phase = .idle ∨ isFrameRx q.phase = true) : MicroStepResult s (((allocate s).setFlags f).setSeq q)
  /-- A header is built in `HDRBUF` (R150). -/
  | encoded {m : Mem} {f : Flags} {q : Seq} (phase : s.seq.phase = .encode) (fok : f.fok = s.flags.fok)
      (dead : f.dead = s.flags.dead) (passes : passesThrough s.cmdreg q.phase = true) :
      MicroStepResult s (((s.setBuf { s.buf with hdr := m }).setFlags f).setSeq q)
  /-- A byte of a buffer is staged (R44). -/
  | pushed {k : Sink} {out : List Byte} {q : Seq} (phase : isTx s.seq.phase = true) (tx : isTx q.phase = true) :
      MicroStepResult s (((s.setEnv { s.env with sink := k }).setTxq out).setSeq q)
  /-- All that was staged is on the wire (R69). -/
  | flushed {k : Sink} (phase : s.seq.phase = .flush) :
      MicroStepResult s (finish ((s.setTxq []).setEnv { s.env with sink := k, wire := s.env.wire ++ s.txq }))

theorem MicroStepResult.of_raise {s : State} {c : Cause} (hc : c.isTransport = true) (info : Word)
    (phase : (∃ b, s.seq.phase = rxPhase b) ∨ isTx s.seq.phase = true) : MicroStepResult s (raise c info s) := by
  obtain ⟨k, n, e⟩ := discardStaged_spec s
  have hdraws : s.txq = [] → n = s.drv.draws := fun hq =>
    congrArg (fun u => u.drv.draws) (e.symm.trans (discardStaged_nil hq))
  rw [raise_transport hc, e]
  exact .failed info k phase hdraws

/-- An error that is none of the transport's discards nothing (R200). -/
theorem raise_of_not_isTransport {c : Cause} (hc : c.isTransport = false) (info : Word) (s : State) :
    raise c info s = endedError c s.seq.phase s.cmdreg info s := by
  simp only [raise, hc, endedError]
  rfl

theorem shortCause_isTransport (b : BufName) (n : Word) : (shortCause b n).isTransport = true := by
  cases b with
  | hdr => simp only [shortCause]; split <;> rfl
  | ext | key | val => rfl

theorem recvStep_result {b : BufName} {s t : State} (hp : s.seq.phase = rxPhase b) (h : recvStep b s = some t) :
    MicroStepResult s t := by
  rcases recvStep_cases h with ⟨x, rest, hrx, rfl⟩ | rfl
  · obtain ⟨f, q, e, hhl, hfok, hpass⟩ := received_flow (s := s.setEnv { s.env with rx := rest }) hp x
    rw [e]
    exact .pulled hp hrx hhl hfok hpass
  · exact .of_raise (shortCause_isTransport b _) _ (.inl ⟨b, hp⟩)

theorem decodeStep_result {s : State} (hp : s.seq.phase = .decode) : MicroStepResult s (decodeStep s) := by
  rw [decodeStep_eq]
  split
  · rw [raise_of_not_isTransport rfl]
    exact .rejected _ (.inl hp) rfl
  · split
    · rw [raise_of_not_isTransport rfl]
      exact .rejected _ (.inl hp) rfl
    · dsimp only
      split
      · next hrec =>
        have hpass := (passes_of_isReceive hrec).2
        exact .decoded (f := { s.flags with hv := false, fok := false }) (q := ⟨.check, 0⟩) hp rfl rfl
          (fun h => nomatch hrec.symm.trans h) hpass
      · exact .decoded (f := { s.flags with hv := true, busy := false, done := true }) (q := ⟨.idle, 0⟩) hp rfl rfl
          (fun _ => rfl) rfl

theorem checkStep_result {s : State} (hp : s.seq.phase = .check) : MicroStepResult s (checkStep s) := by
  simp only [checkStep]
  split
  · rw [raise_of_not_isTransport rfl]
    exact .rejected _ (.inr hp) rfl
  · obtain ⟨f, q, e, hhl, hq⟩ := nextRecv_flow (l := [.ext, .key, .val]) (by decide) (allocate s)
    rw [e]
    exact .allocated hp hhl hq

theorem encodeStep_result {s : State} (hp : s.seq.phase = .encode) : MicroStepResult s (encodeStep s) := by
  simp only [encodeStep]
  generalize encodedHeader (magicOf s.cmdreg) s = m
  split
  · next ht =>
    exact .encoded (m := m) (f := { s.flags with hl := true, hv := false }) (q := ⟨.hdrTx, 0⟩) hp rfl rfl
      (passes_tx ht rfl)
  · exact .encoded (m := m) (f := { s.flags with hl := true, hv := false, busy := false, done := true }) (q := ⟨.idle, 0⟩)
      hp rfl rfl rfl

theorem sendStep_result {b : BufName} {s t : State} (hp : s.seq.phase = txPhase b) (h : sendStep b s = some t) :
    MicroStepResult s t := by
  have htx : isTx s.seq.phase = true := by rw [hp]; cases b <;> rfl
  rcases sendStep_cases h with ⟨k, -, rfl⟩ | rfl
  · obtain ⟨out, q, e, hq⟩ := pushed_flow (s := s.setEnv { s.env with sink := k }) hp
    rw [e]
    exact .pushed htx hq
  · exact .of_raise rfl _ (.inr htx)

theorem flushStep_result {s t : State} (hp : s.seq.phase = .flush) (h : flushStep s = some t) : MicroStepResult s t := by
  rcases flushStep_cases h with ⟨k, -, rfl⟩ | rfl
  · exact .flushed hp
  · exact .of_raise rfl _ (.inr (by rw [hp]; rfl))

theorem microStep_result {s t : State} (h : microStep s = some t) : MicroStepResult s t := by
  rcases microStep_cases h with ⟨b, hp, e⟩ | ⟨b, hp, e⟩ | ⟨hp, rfl⟩ | ⟨hp, rfl⟩ | ⟨hp, rfl⟩ | ⟨hp, e⟩
  · exact recvStep_result hp e
  · exact sendStep_result hp e
  · exact decodeStep_result hp
  · exact checkStep_result hp
  · exact encodeStep_result hp
  · exact flushStep_result hp e

theorem MicroStepResult.cmdreg {u v : State} (hr : MicroStepResult u v) : v.cmdreg = u.cmdreg := by
  cases hr <;> rfl

/-- A micro-step goes on in the phases of its command (R42). -/
theorem MicroStepResult.passes {u v : State} (hr : MicroStepResult u v) (hp : passesThrough u.cmdreg u.seq.phase = true) :
    passesThrough u.cmdreg v.seq.phase = true := by
  cases hr with
  | failed | rejected | flushed => rfl
  | pulled phase rx hl fok passes => exact passes hp
  | decoded phase hl dead fok passes => exact passes
  | encoded phase fok dead passes => exact passes
  | allocated phase hl passes => exact passes_frameRx (phase ▸ hp) passes
  | pushed phase tx => exact passes_tx (passes_flush hp phase) tx

/-! ## What a command leaves alone (R67) -/

/-- What the command `code` leaves of `s`: what no phase writes, and what is written only in phases that the command does not
pass through (R41). -/
structure CommandFrame (code : Byte) (s t : State) : Prop where
  maxbody : t.maxbody = s.maxbody
  inputs : t.drv.inputs = s.drv.inputs
  answer : t.drv.answer = s.drv.answer
  rxEnded : t.env.rxEnded = s.env.rxEnded
  /-- Bytes are only taken off the front of the stream. -/
  rx_suffix : t.env.rx <:+ s.env.rx
  rx : passesThrough code .hdrRx = false → passesThrough code .check = false → t.env.rx = s.env.rx
  h : passesThrough code .decode = false → t.h = s.h
  /-- A decode of a request does not write `H_STATUS` (R131). -/
  status : magicOf code = Config.reqMagic → t.h.status = s.h.status
  /-- A decode of a response does not write `H_VBUCKET` (R131). -/
  vbucket : magicOf code = Config.rspMagic → t.h.vbucket = s.h.vbucket
  header : passesThrough code .hdrRx = false → passesThrough code .encode = false →
    t.buf.hdr = s.buf.hdr ∧ t.flags.hl = s.flags.hl
  sections : passesThrough code .check = false → ∀ b, b ≠ .hdr →
    Buffers.len b t.buf = Buffers.len b s.buf ∧ Buffers.mem b t.buf = Buffers.mem b s.buf
  fok : passesThrough code .check = false → t.flags.fok = s.flags.fok
  dead : isStream code = false → t.flags.dead = s.flags.dead
  /-- A transport error of a receive throws staged bytes away, where there are any (R48, R200). -/
  link : passesThrough code .flush = false → isStream code = false ∨ s.txq = [] →
    t.txq = s.txq ∧ t.env.sink = s.env.sink ∧ t.env.wire = s.env.wire ∧ t.drv.draws = s.drv.draws

theorem CommandFrame.refl (code : Byte) (s : State) : CommandFrame code s s where
  maxbody := rfl
  inputs := rfl
  answer := rfl
  rxEnded := rfl
  rx_suffix := List.suffix_rfl
  rx _ _ := rfl
  h _ := rfl
  status _ := rfl
  vbucket _ := rfl
  header _ _ := ⟨rfl, rfl⟩
  sections _ _ _ := ⟨rfl, rfl⟩
  fok _ := rfl
  dead _ := rfl
  link _ _ := ⟨rfl, rfl, rfl, rfl⟩

/-- `HDRBUF` is none of the sections. -/
theorem CommandFrame.sections_setHdr {code : Byte} {s u : State} (fr : CommandFrame code s u)
    (h : passesThrough code .check = false) (m : Mem) (b : BufName) (hb : b ≠ .hdr) :
    Buffers.len b (Buffers.setMem .hdr m u.buf) = Buffers.len b s.buf ∧
      Buffers.mem b (Buffers.setMem .hdr m u.buf) = Buffers.mem b s.buf :=
  (fr.sections h b hb).imp (Buffers.len_setMem b .hdr m u.buf).trans (Buffers.mem_setMem_other hb m u.buf).trans

theorem regsFrom_status {magic : Byte} (h : magic = Config.reqMagic) (bs : List Byte) (regs : HeaderRegs) :
    (regsFrom magic bs regs).status = regs.status := by
  subst h; rfl

theorem regsFrom_vbucket {magic : Byte} (h : magic = Config.rspMagic) (bs : List Byte) (regs : HeaderRegs) :
    (regsFrom magic bs regs).vbucket = regs.vbucket := by
  subst h; rfl

/-- A micro-step writes only what belongs to its phase, and that phase is one of the command's. -/
theorem CommandFrame.microStep {code : Byte} {s u v : State} (fr : CommandFrame code s u) (hcmd : u.cmdreg = code)
    (hp : passesThrough code u.seq.phase = true) (hr : MicroStepResult u v) : CommandFrame code s v := by
  cases hr with
  | failed info k phase draws =>
    have hstream : isStream code = true := by
      rcases phase with ⟨b, hb⟩ | htx
      · exact isStream_of_passes_rx (hb ▸ hp)
      · exact isStream_of_passes_flush (passes_flush hp htx)
    refine { fr with
      dead := fun h => nomatch hstream.symm.trans h
      link := fun hf hl => ?_ }
    obtain ⟨hout, hsink, hwire, hdraws⟩ := fr.link hf hl
    have hq : s.txq = [] := hl.resolve_left fun h => nomatch hstream.symm.trans h
    have hqu : u.txq = [] := hout.trans hq
    refine ⟨hq.symm, hsink, ?_, (draws hqu).trans hdraws⟩
    simp [endedError, hqu, hwire]
  | rejected info phase kind =>
    exact { fr with dead := fun h => by simp [endedError, kind, fr.dead h] }
  | @pulled b x rest f q phase rx hl fok passes =>
    have hb : passesThrough code (rxPhase b) = true := phase ▸ hp
    have hstream := isStream_of_passes_rx hb
    have hsuffix : rest <:+ s.env.rx := (rx ▸ List.suffix_cons x rest).trans fr.rx_suffix
    by_cases hne : b = .hdr
    · subst hne
      exact { fr with
        rx_suffix := hsuffix
        rx := fun h _ => nomatch hb.symm.trans h
        header := fun h _ => nomatch hb.symm.trans h
        sections := fun h => fr.sections_setHdr h _
        fok := fun h => (fok rfl).trans (fr.fok h)
        dead := fun h => nomatch hstream.symm.trans h }
    · have hcheck : passesThrough code .check = true := passes_section hne code ▸ hb
      exact { fr with
        rx_suffix := hsuffix
        rx := fun _ h => nomatch hcheck.symm.trans h
        header := fun h h' => (fr.header h h').imp (Buffers.mem_store_other (Ne.symm hne) _ x _).trans (hl hne).trans
        sections := fun h => nomatch hcheck.symm.trans h
        fok := fun h => nomatch hcheck.symm.trans h
        dead := fun h => nomatch hstream.symm.trans h }
  | decoded phase hl dead fok passes =>
    rw [phase] at hp
    have hreceive (h : passesThrough code .check = false) : isReceive u.cmdreg = false := by
      by_contra hrec
      obtain ⟨-, hcheck⟩ := passes_of_isReceive (hcmd ▸ eq_true_of_ne_false hrec)
      exact nomatch hcheck.symm.trans h
    exact { fr with
      h := fun h => nomatch hp.symm.trans h
      status := fun h => (regsFrom_status (hcmd ▸ h) _ _).trans (fr.status h)
      vbucket := fun h => (regsFrom_vbucket (hcmd ▸ h) _ _).trans (fr.vbucket h)
      header := fun h h' => (fr.header h h').imp_right hl.trans
      fok := fun h => (fok (hreceive h)).trans (fr.fok h)
      dead := fun h => dead.trans (fr.dead h) }
  | allocated phase hl passes =>
    rw [phase] at hp
    exact { fr with
      header := fun h h' => (fr.header h h').imp_right hl.trans
      sections := fun h => nomatch hp.symm.trans h
      fok := fun h => nomatch hp.symm.trans h
      dead := fun h => nomatch (passes_check_stream hp).symm.trans h }
  | encoded phase fok dead passes =>
    rw [phase] at hp
    exact { fr with
      header := fun _ h => nomatch hp.symm.trans h
      sections := fun h => fr.sections_setHdr h _
      fok := fun h => fok.trans (fr.fok h)
      dead := fun h => dead.trans (fr.dead h) }
  | pushed phase tx =>
    exact { fr with link := fun h => nomatch (passes_flush hp phase).symm.trans h }
  | flushed phase =>
    exact { fr with link := fun h => nomatch (phase ▸ hp).symm.trans h }

/-- Acceptance writes only what belongs to the first phase. -/
theorem CommandFrame.accept {code : Byte} {p : Phase} (hp : passesThrough code p = true) (s : State) :
    CommandFrame code s (Machine.accept code p s) := by
  cases p with
  | hdrRx =>
    exact { CommandFrame.refl code s with
      header := fun h => nomatch hp.symm.trans h
      sections := fun h => (CommandFrame.refl code s).sections_setHdr h [] }
  | check => exact { CommandFrame.refl code s with fok := fun h => nomatch hp.symm.trans h }
  | _ => exact { CommandFrame.refl code s with }

/-- What each micro-step keeps and the pattern of yields does not touch is kept by a turn; unlike `runSeq_keeps` this also
serves facts about the other fields of the driver. -/
theorem runSeq_keeps_driver {P : State → Prop} (hyields : ∀ u ys, P u → P (u.setYields ys))
    (hstep : ∀ u v, P u → microStep u = some v → P v) (n : Nat) {s : State} (h : P s) : P (runSeq n s) := by
  induction n generalizing s with
  | zero => exact h
  | succ n ih =>
    simp only [runSeq]
    split
    · split
      · exact hyields s _ h
      · split
        · exact h
        · next hm => exact ih (hstep _ _ (hyields s _ h) hm)
    · exact h

/-- The command `code`, accepted in `s`, has come to `u`. -/
structure InTurn (code : Byte) (s u : State) : Prop where
  cmdreg : u.cmdreg = code
  passes : passesThrough code u.seq.phase = true
  frame : CommandFrame code s u

theorem InTurn.accept {code : Byte} {p : Phase} (hp : passesThrough code p = true) (s : State) :
    InTurn code s (Machine.accept code p s) where
  cmdreg := by cases p <;> rfl
  passes := by rwa [Machine.accept, enter_seq]
  frame := .accept hp s

theorem InTurn.microStep {code : Byte} {s u v : State} (h : InTurn code s u) (hm : Machine.microStep u = some v) :
    InTurn code s v := by
  have hr := microStep_result hm
  have hpasses := hr.passes (h.cmdreg.symm ▸ h.passes)
  exact ⟨hr.cmdreg.trans h.cmdreg, h.cmdreg ▸ hpasses, h.frame.microStep h.cmdreg h.passes hr⟩

theorem InTurn.seqTurn {code : Byte} {s u : State} (h : InTurn code s u) : InTurn code s (Machine.seqTurn u) :=
  runSeq_keeps_driver (fun _ _ h => ⟨h.cmdreg, h.passes, { h.frame with }⟩) (fun _ _ h hm => h.microStep hm) _ h

/-- Every command with phases leaves what its phases do not write, interrupted or not. -/
theorem CommandFrame.issue {code : Byte} {p : Phase} (hp : passesThrough code p = true) (arg : Word) (st rd : Bool)
    (s : State) : CommandFrame code s (Machine.issue code arg st rd p s) := by
  rcases issue_cases code arg st rd p s with ⟨-, e⟩ | ⟨-, -, -, e⟩ | ⟨-, -, e⟩ | ⟨-, -, -, e⟩ <;> rw [e]
  · exact .refl code s
  · exact { CommandFrame.refl code s with }
  · exact { CommandFrame.refl code s with }
  · exact (InTurn.accept hp s).seqTurn.frame

theorem CommandFrame.len {code : Byte} {s t : State} (fr : CommandFrame code s t)
    (h : passesThrough code .check = false) (b : BufName) : Buffers.len b t.buf = Buffers.len b s.buf := by
  by_cases hb : b = .hdr
  · subst hb; rfl
  · exact (fr.sections h b hb).1

theorem CommandFrame.read_section {code : Byte} {s t : State} (fr : CommandFrame code s t)
    (h : passesThrough code .check = false) (b : BufName) (x : Nat) (hb : b ≠ .hdr) :
    Mem.read (Buffers.mem b t.buf) x = Mem.read (Buffers.mem b s.buf) x := by
  rw [(fr.sections h b hb).2]

theorem CommandFrame.env {code : Byte} {s t : State} (fr : CommandFrame code s t) (hcode : isStream code = false) :
    t.env = s.env := by
  obtain ⟨hhdr, hcheck, hflush⟩ := not_passes_of_not_isStream hcode
  obtain ⟨-, hsink, hwire, -⟩ := fr.link hflush (.inl hcode)
  have hparts : t.env = ⟨t.env.rx, t.env.rxEnded, t.env.sink, t.env.wire⟩ := rfl
  rw [hparts, fr.rx hhdr hcheck, fr.rxEnded, hsink, hwire]

/-! ## The frames of the commands (O44 to O47) -/

/-- `CFGMAX` writes `MAXBODY`, `DONE`, the error registers and `CMDREG` (R120). -/
theorem execCfgmax_frame {arg : Word} {s t : State} (h : execCfgmax arg s = .next t) :
    t = { s with
      maxbody := t.maxbody, flags := { s.flags with done := t.flags.done }, errs := t.errs, cmdreg := t.cmdreg } := by
  rcases execCfgmax_cases h with rfl | ⟨-, rfl⟩ | ⟨-, -, rfl⟩ <;> rfl

/-- What O44 says of the decodes and the encodes alike, before what it says of each. -/
theorem CommandFrame.codec_and {code : Byte} {s t : State} {each : Prop} (fr : CommandFrame code s t)
    (hcode : isStream code = false) (heach : each) :
    t.env = s.env ∧ t.txq = s.txq ∧ t.flags.fok = s.flags.fok ∧ t.flags.dead = s.flags.dead ∧
    (∀ b, Buffers.len b t.buf = Buffers.len b s.buf) ∧
    (∀ b x, b ≠ .hdr → Mem.read (Buffers.mem b t.buf) x = Mem.read (Buffers.mem b s.buf) x) ∧
    t.drv.inputs = s.drv.inputs ∧ t.drv.draws = s.drv.draws ∧ t.drv.answer = s.drv.answer ∧ each := by
  obtain ⟨-, hcheck, hflush⟩ := not_passes_of_not_isStream hcode
  obtain ⟨htxq, -, -, hdraws⟩ := fr.link hflush (.inl hcode)
  exact ⟨fr.env hcode, htxq, fr.fok hcheck, fr.dead hcode, fr.len hcheck, fr.read_section hcheck, fr.inputs, hdraws,
    fr.answer, heach⟩

/-- Settles O44: none of the five uses the streams; the decodes pass through `DECODE` only, the encodes through `ENCODE` only. -/
theorem codecCommandsFrame : Obligations.CodecCommandsFrame := by
  intro s t a i hi h
  simp only [List.mem_cons, List.not_mem_nil, or_false] at hi
  rcases hi with rfl | rfl | rfl | rfl | rfl
  · rw [execCfgmax_frame h]
    exact ⟨rfl, rfl, rfl, rfl, fun _ => rfl, fun _ _ _ => rfl, rfl, rfl, rfl, fun _ => ⟨rfl, rfl, rfl, rfl, rfl⟩, nofun,
      nofun, nofun, nofun, fun hne => absurd rfl hne, fun _ _ _ => rfl⟩
  all_goals obtain rfl := Host.Outcome.next.inj h
  · have fr := CommandFrame.issue (code := Code.decreq) (p := .decode) rfl a false s.flags.hl s
    obtain ⟨hhdr, hhl⟩ := fr.header rfl rfl
    exact fr.codec_and rfl ⟨nofun, fun _ => hhl, fun _ => fr.status rfl, nofun, by simp, fun _ => fr.maxbody,
      fun _ _ x => congrArg (Mem.read · x) hhdr⟩
  · have fr := CommandFrame.issue (code := Code.decrsp) (p := .decode) rfl a false s.flags.hl s
    obtain ⟨hhdr, hhl⟩ := fr.header rfl rfl
    exact fr.codec_and rfl ⟨nofun, fun _ => hhl, nofun, fun _ => fr.vbucket rfl, by simp, fun _ => fr.maxbody,
      fun _ _ x => congrArg (Mem.read · x) hhdr⟩
  · have fr := CommandFrame.issue (code := Code.encreq) (p := .encode) rfl a false true s
    exact fr.codec_and rfl ⟨nofun, by simp, nofun, nofun, fun _ => fr.h rfl, fun _ => fr.maxbody,
      fun hne => absurd rfl hne⟩
  · have fr := CommandFrame.issue (code := Code.encrsp) (p := .encode) rfl a false true s
    exact fr.codec_and rfl ⟨nofun, by simp, nofun, nofun, fun _ => fr.h rfl, fun _ => fr.maxbody,
      fun _ hne => absurd rfl hne⟩

/-- What O45 says of the four receives alike, before what it says of each. -/
theorem CommandFrame.receive_and {code : Byte} {s t : State} {each : Prop} (fr : CommandFrame code s t)
    (hcode : passesThrough code .flush = false) (hq : s.txq = []) (heach : each) :
    t.maxbody = s.maxbody ∧ t.txq = [] ∧ t.env.sink = s.env.sink ∧ t.env.wire = s.env.wire ∧
    t.env.rxEnded = s.env.rxEnded ∧ (∃ n, t.env.rx = s.env.rx.drop n) ∧
    t.drv.inputs = s.drv.inputs ∧ t.drv.draws = s.drv.draws ∧ t.drv.answer = s.drv.answer ∧ each := by
  obtain ⟨htxq, hsink, hwire, hdraws⟩ := fr.link hcode (.inr hq)
  exact ⟨fr.maxbody, htxq.trans hq, hsink, hwire, fr.rxEnded, ⟨_, List.suffix_iff_eq_drop.mp fr.rx_suffix⟩, fr.inputs,
    hdraws, fr.answer, heach⟩

/-- Settles O45: each receive by the phases it does not pass through, and by its direction. -/
theorem receiveCommandsFrame : Obligations.ReceiveCommandsFrame := by
  intro s t a i hi hq h
  simp only [List.mem_cons, List.not_mem_nil, or_false] at hi
  rcases hi with rfl | rfl | rfl | rfl
  all_goals obtain rfl := Host.Outcome.next.inj h
  · have fr := CommandFrame.issue (code := Code.ldhdr) (p := .hdrRx) rfl a true true s
    exact fr.receive_and rfl hq ⟨fun _ => ⟨fr.h rfl, fr.fok rfl, fr.len rfl, fr.read_section rfl⟩, nofun, nofun, nofun⟩
  · have fr := CommandFrame.issue (code := Code.rdframe) (p := .check) rfl a true s.flags.hv s
    obtain ⟨hhdr, hhl⟩ := fr.header rfl rfl
    exact fr.receive_and rfl hq
      ⟨nofun, fun _ => ⟨fr.h rfl, hhl, fun x => congrArg (Mem.read · x) hhdr⟩, nofun, nofun⟩
  · have fr := CommandFrame.issue (code := Code.rxreq) (p := .hdrRx) rfl a true true s
    exact fr.receive_and rfl hq ⟨nofun, nofun, fun _ => fr.status rfl, nofun⟩
  · have fr := CommandFrame.issue (code := Code.rxrsp) (p := .hdrRx) rfl a true true s
    exact fr.receive_and rfl hq ⟨nofun, nofun, nofun, fun _ => fr.vbucket rfl⟩

theorem exec_transmit_frame {a : Word} {i : Instr} {s t : State} (hi : i ∈ [Instr.txreq a, .txrsp a])
    (h : exec i s = .next t) : ∃ code, isTransmit code = true ∧ CommandFrame code s t := by
  simp only [List.mem_cons, List.not_mem_nil, or_false] at hi
  rcases hi with rfl | rfl
  all_goals obtain rfl := Host.Outcome.next.inj h
  · exact ⟨Code.txreq, rfl, .issue (p := .encode) rfl a true true s⟩
  · exact ⟨Code.txrsp, rfl, .issue (p := .encode) rfl a true true s⟩

/-- Settles O46: a transmit passes through no phase of a receive or a decode. -/
theorem transmitCommandsFrame : Obligations.TransmitCommandsFrame := by
  intro s t a i hi h
  obtain ⟨code, hcode, fr⟩ := exec_transmit_frame hi h
  obtain ⟨hhdr, hdecode, hcheck⟩ := not_passes_of_isTransmit hcode
  exact ⟨fr.h hdecode, fr.maxbody, fr.fok hcheck, fr.rx hhdr hcheck, fr.rxEnded, fr.len hcheck, fr.read_section hcheck,
    fr.inputs, fr.answer⟩

theorem hostLoad_env (n : Nat) (bs : List Byte) (s : State) : (hostLoad n bs s).env = s.env := by
  rcases hostLoad_cases n bs s with e | ⟨b, -, -, e⟩ <;> rw [e] <;> rfl

/-- An instruction that is neither a receive nor a transmit leaves the streams alone. -/
theorem exec_env {i : Instr} {s t : State} (hrx : ∀ a, i ∉ [Instr.ldhdr a, .rdframe a, .rxreq a, .rxrsp a])
    (htx : ∀ a, i ∉ [Instr.txreq a, .txrsp a]) (h : exec i s = .next t) : t.env = s.env := by
  cases i with
  | ldhdr a | rdframe a | rxreq a | rxrsp a => exact absurd (by simp) (hrx a)
  | txreq a | txrsp a => exact absurd (by simp) (htx a)
  | hdrReq hd | hdrRsp hd =>
    obtain rfl := Host.Outcome.next.inj h
    exact hostLoad_env _ _ s
  | cfgmax a | decreq a | decrsp a | encreq a | encrsp a =>
    obtain ⟨henv, -⟩ := codecCommandsFrame s t a _ (by simp) h
    exact henv

/-- Settles O47: a transmit by its frame, and the rest leave the streams alone. -/
theorem onlyReceivesConsume : Obligations.OnlyReceivesConsume := by
  intro s t i hrx h
  by_cases htx : ∃ a, i ∈ [Instr.txreq a, .txrsp a]
  · obtain ⟨a, ha⟩ := htx
    obtain ⟨-, -, -, hsame, hended, -⟩ := transmitCommandsFrame s t a i ha h
    exact ⟨hsame, hended⟩
  · have henv := exec_env hrx (not_exists.mp htx) h
    exact ⟨congrArg Env.rx henv, congrArg Env.rxEnded henv⟩

/-! ## The wire (R68 to R70; O39, O40) -/

/-- The wire of `t` is that of `s` and some more bytes. -/
def WireGrows (s t : State) : Prop := ∃ more : List Byte, t.env.wire = s.env.wire ++ more

theorem WireGrows.of_eq {s t : State} (h : t.env.wire = s.env.wire) : WireGrows s t := ⟨[], by simp [h]⟩

theorem WireGrows.trans {s u t : State} (h : WireGrows s u) (h' : WireGrows u t) : WireGrows s t := by
  obtain ⟨first, e⟩ := h
  obtain ⟨more, e'⟩ := h'
  exact ⟨first ++ more, by rw [e', e, List.append_assoc]⟩

theorem MicroStepResult.wireGrows {s t : State} (hr : MicroStepResult s t) : WireGrows s t := by
  cases hr with
  | failed => exact ⟨_, rfl⟩
  | flushed => exact ⟨_, rfl⟩
  | _ => exact .of_eq rfl

theorem runSeq_wireGrows (n : Nat) (s : State) : WireGrows s (runSeq n s) :=
  runSeq_keeps (fun _ _ h => h) (fun _ _ h _ hm => h.trans (microStep_result hm).wireGrows) n (.of_eq rfl)

theorem resetBlock_wireGrows (s : State) : WireGrows s (resetBlock s) := by
  obtain ⟨k, n, e⟩ := discardStaged_spec s
  simp only [resetBlock, e]
  exact ⟨_, rfl⟩

theorem move_wireGrows (i : Input) (s : State) : WireGrows s (move i s) := by
  cases i with
  | reset => exact resetBlock_wireGrows s
  | turn => exact runSeq_wireGrows _ s
  | sinkDrains n => exact ⟨_, rfl⟩
  | hrd n =>
    obtain ⟨a, e⟩ := hostRead_cases n s
    exact .of_eq (by rw [move, e]; rfl)
  | hwr n v => rcases hostWrite_cases n v s with e | ⟨h, -, -, e⟩ <;> exact .of_eq (by rw [move, e]; rfl)
  | bld n bytes => exact .of_eq (by rw [move, hostLoad_env])
  | brd n =>
    obtain ⟨d, e⟩ := hostDump_cases n s
    exact .of_eq (by rw [move, e]; rfl)
  | rxSend bytes =>
    simp only [move, peerSends]
    split <;> exact .of_eq rfl
  | word _ | rxEnd | sinkTakes _ | sinkFails | sinkWaits => exact .of_eq rfl

theorem seqTurn_accept_wireGrows (code : Byte) (p : Phase) (s : State) : WireGrows s (seqTurn (accept code p s)) :=
  (WireGrows.of_eq (congrArg Env.wire (accept_env code p s))).trans (runSeq_wireGrows _ _)

theorem StepResult.wireGrows {s u t : State} (hr : StepResult s u t) : WireGrows u t := by
  cases hr with
  | dropped | configured | notStarted => exact .of_eq rfl
  | started => exact seqTurn_accept_wireGrows _ _ u
  | moved i => exact move_wireGrows i u

/-- Settles O40: whatever a step comes to, it puts bytes at the end of the wire or leaves it. -/
theorem wireOnlyGrows : Obligations.WireOnlyGrows := fun _ _ h =>
  have ⟨_, hr⟩ := step_result h
  hr.wireGrows

/-- A command that is dropped, or that finds the link dead, leaves the streams alone (R70 (c)). -/
theorem exec_env_of_busy_or_dead {i : Instr} {s t : State} (hs : s.flags.busy = true ∨ s.flags.dead = true)
    (h : exec i s = .next t) : t.env = s.env := by
  rcases exec_cases h with ⟨arg, -, h⟩ | ⟨code, arg, stream, ready, first, row, rfl⟩ | ⟨bs, rfl⟩
  · rw [execCfgmax_frame h]
  · rcases issue_cases code arg stream ready first s with ⟨-, e⟩ | ⟨-, -, -, e⟩ | ⟨-, -, e⟩ | ⟨hb, -, halive, -⟩
    · rw [e]
    · rw [e]; rfl
    · rw [e]; rfl
    · have hdead : s.flags.dead = true := hs.resolve_left fun h => nomatch h.symm.trans hb
      have hstream : isStream code = false := by
        rw [← row.stream_iff]
        by_contra hst
        exact nomatch hdead.symm.trans (halive (eq_true_of_ne_false hst))
      exact (CommandFrame.issue row.passes arg stream ready s).env hstream
  · exact hostLoad_env _ _ s

/-- Only a transmit adds to the wire: a receive finds nothing staged (R48, R70 (d)). -/
theorem Inv.exec_wire {i : Instr} {s t : State} (hs : Inv s) (hreq : ∀ a, i ≠ .txreq a) (hrsp : ∀ a, i ≠ .txrsp a)
    (h : exec i s = .next t) : t.env.wire = s.env.wire := by
  by_cases hb : s.flags.busy = true
  · rw [exec_env_of_busy_or_dead (.inl hb) h]
  · by_cases hrx : ∃ a, i ∈ [Instr.ldhdr a, .rdframe a, .rxreq a, .rxrsp a]
    · obtain ⟨a, ha⟩ := hrx
      obtain ⟨-, hq⟩ := hs.idle_of (eq_false_of_ne_true hb)
      obtain ⟨-, -, -, hwire, -⟩ := receiveCommandsFrame s t a i ha hq h
      exact hwire
    · rw [exec_env (not_exists.mp hrx) (fun a => by simp [hreq, hrsp]) h]

/-- Settles O39: a transmit that starts comes to `txState`; nothing else adds to the wire. -/
theorem wireLaws : Obligations.WireLaws := by
  intro s t i hs hy h
  refine ⟨fun a hi hb hd ht => ?_, fun hstop => congrArg Env.wire (exec_env_of_busy_or_dead hstop h),
    fun hreq hrsp => hs.exec_wire hreq hrsp h⟩
  obtain ⟨-, hq⟩ := hs.idle_of hb
  obtain ⟨hreq, hrsp⟩ := exec_transmits a hb hd hy hq
  rcases hi with rfl | rfl
  · rw [if_pos rfl]
    exact txState_wire hq (Host.Outcome.next.inj (h.symm.trans hreq)) ht
  · rw [if_neg nofun]
    exact txState_wire hq (Host.Outcome.next.inj (h.symm.trans hrsp)) ht

end Sys2Proof.Machine
end

section
/-! Proofs of the statements about the encodings (30_encoding.md): words and headers as bytes, decode and encode as whole
commands, the receives as sequences of commands, and what a header's lengths and its direction decide. -/

namespace Sys2Proof.Machine

/-! ## Fields and bytes (R62, R91, R92) -/

/-- A field that fills its width comes back from its bytes. -/
theorem ofNat_ofBe_beBytes (n : Nat) (x : BitVec (8 * n)) : BitVec.ofNat (8 * n) (ofBe (beBytes n x.toNat)) = x := by
  have hlt : x.toNat < 256 ^ n := by simpa [Nat.pow_mul] using x.isLt
  rw [ofBe_beBytes_of_lt hlt, BitVec.ofNat_toNat, BitVec.setWidth_eq]

/-- The bytes of a field come back from its number. -/
theorem beBytes_fieldAt {bs : List Byte} {off n : Nat} (h : off + n ≤ bs.length) :
    beBytes n (fieldAt bs off n) = (bs.drop off).take n := by
  have hlen : ((bs.drop off).take n).length = n := by simp; omega
  have hback := beBytes_ofBe ((bs.drop off).take n)
  rwa [hlen] at hback

/-- A field's number fits its width. -/
theorem toNat_ofNat_fieldAt (bs : List Byte) (off n : Nat) :
    (BitVec.ofNat (8 * n) (fieldAt bs off n)).toNat = fieldAt bs off n := by
  rw [BitVec.toNat_ofNat, Nat.mod_eq_of_lt]
  simpa [Nat.pow_mul] using fieldAt_lt bs off n

/-- A byte and what comes after it. -/
theorem byteOf_cons_drop {bs : List Byte} {off : Nat} (h : off < bs.length) :
    byteOf bs off :: bs.drop (off + 1) = bs.drop off := by
  rw [byteOf, List.getD_eq_getElem _ _ h, List.getElem_cons_drop]

/-- A field's bytes and what comes after them. -/
theorem beBytes_fieldAt_append_drop {bs : List Byte} {off n : Nat} (h : off + n ≤ bs.length) :
    beBytes n (fieldAt bs off n) ++ bs.drop (off + n) = bs.drop off := by
  rw [beBytes_fieldAt h, ← List.drop_drop, List.take_append_drop]

/-! ## Command words (R91, R100; O3, O4) -/

theorem decode_of_length_five {bs : List Byte} (h : bs.length = 5) :
    decode bs = decodeCommand (byteOf bs 0) (BitVec.ofNat 32 (fieldAt bs 1 4)) := if_pos h

theorem decode_of_length_header {bs : List Byte} (h : bs.length = 24) : decode bs = decodeHeader bs := by
  rw [decode, h]; rfl

/-- The operand comes back from a command word's bytes. -/
theorem arg_encodeCommand (code : Byte) (arg : Word) : BitVec.ofNat 32 (fieldAt (encodeCommand code arg) 1 4) = arg :=
  ofNat_ofBe_beBytes 4 arg

theorem decode_encodeCommand (code : Byte) (arg : Word) : decode (encodeCommand code arg) = decodeCommand code arg := by
  rw [decode_of_length_five rfl, arg_encodeCommand]
  rfl

/-- Five bytes are the command word of their code and operand. -/
theorem encodeCommand_of_length_five {bs : List Byte} (h : bs.length = 5) :
    encodeCommand (byteOf bs 0) (BitVec.ofNat 32 (fieldAt bs 1 4)) = bs := by
  have hdrop : bs.drop (1 + 4) = [] := List.drop_eq_nil_of_le (by omega)
  have harg := beBytes_fieldAt_append_drop (bs := bs) (off := 1) (n := 4) (by omega)
  rw [hdrop, List.append_nil] at harg
  rw [encodeCommand, toNat_ofNat_fieldAt bs 1 4, harg]
  exact byteOf_cons_drop (by omega)

/-- A command that decodes has the code it is decoded from (R100). -/
theorem encode_of_decodeCommand {code : Byte} {arg : Word} {i : Instr} (h : decodeCommand code arg = .ok i) :
    encode i = encodeCommand code arg := by
  by_cases hmem : code ∈ Code.all
  · simp only [Code.all, List.mem_cons, List.not_mem_nil, or_false] at hmem
    rcases hmem with rfl | rfl | rfl | rfl | rfl | rfl | rfl | rfl | rfl | rfl | rfl <;> cases h <;> rfl
  · cases (decodeCommand_of_notMem hmem arg).symm.trans h

/-- Settles O3: each word is evaluated. -/
theorem tableWordsDecode : Obligations.TableWordsDecode := by
  unfold Obligations.TableWordsDecode
  decide

/-- Settles O4: the decoder names the code, and an idle block refuses it by that name. -/
theorem unknownCodesAreRefused : Obligations.UnknownCodesAreRefused := by
  refine ⟨rfl, by decide +kernel, fun code arg hcode => ?_⟩
  have hdecode : decode (encodeCommand code arg) = .error (.unknownCode code) :=
    (decode_encodeCommand code arg).trans (decodeCommand_of_notMem hcode arg)
  refine ⟨hdecode, fun s rest hin hb => ?_⟩
  have hidle : (popped rest s).flags.busy = false := hb
  simp only [step, nextInput_cons hin, hdecode, rejectWord, issueUnknown, hidle, arg_encodeCommand, refuse_eq]
  rfl

/-! ## Headers as bytes (R92 to R94; O1, O2) -/

theorem encodeReqHeader_length (h : ReqHeader) : (encodeReqHeader h).length = 24 := rfl
theorem encodeRspHeader_length (h : RspHeader) : (encodeRspHeader h).length = 24 := rfl

theorem reqHeaderOf_encodeReqHeader (h : ReqHeader) : reqHeaderOf (encodeReqHeader h) = h := by
  obtain ⟨opcode, keyLen, extLen, reserved, vbucket, totLen, opq, cas⟩ := h
  rw [reqHeaderOf, ReqHeader.mk.injEq]
  exact ⟨rfl, ofNat_ofBe_beBytes 2 keyLen, rfl, rfl, ofNat_ofBe_beBytes 2 vbucket, ofNat_ofBe_beBytes 4 totLen,
    ofNat_ofBe_beBytes 4 opq, ofNat_ofBe_beBytes 8 cas⟩

theorem rspHeaderOf_encodeRspHeader (h : RspHeader) : rspHeaderOf (encodeRspHeader h) = h := by
  obtain ⟨opcode, keyLen, extLen, reserved, status, totLen, opq, cas⟩ := h
  rw [rspHeaderOf, RspHeader.mk.injEq]
  exact ⟨rfl, ofNat_ofBe_beBytes 2 keyLen, rfl, rfl, ofNat_ofBe_beBytes 2 status, ofNat_ofBe_beBytes 4 totLen,
    ofNat_ofBe_beBytes 4 opq, ofNat_ofBe_beBytes 8 cas⟩

/-- 24 bytes are their fields in the order of R92, whatever the direction calls bytes 6 and 7. -/
theorem header_fields_append {bs : List Byte} (h : bs.length = 24) :
    [byteOf bs 0, byteOf bs 1] ++ beBytes 2 (fieldAt bs 2 2) ++ [byteOf bs 4, byteOf bs 5] ++ beBytes 2 (fieldAt bs 6 2) ++
      beBytes 4 (fieldAt bs 8 4) ++ beBytes 4 (fieldAt bs 12 4) ++ beBytes 8 (fieldAt bs 16 8) = bs := by
  have hbyte (off : Nat) (hoff : off < 24) := byteOf_cons_drop (bs := bs) (off := off) (h ▸ hoff)
  have hfield (off n : Nat) (hoff : off + n ≤ 24) := beBytes_fieldAt_append_drop (bs := bs) (off := off) (n := n) (h ▸ hoff)
  have hend : bs.drop (16 + 8) = [] := List.drop_eq_nil_of_le h.le
  have hcas := hfield 16 8 (by decide)
  rw [hend, List.append_nil] at hcas
  simp only [List.append_assoc, List.cons_append, List.nil_append, hcas]
  rw [hfield 12 4 (by decide), hfield 8 4 (by decide), hfield 6 2 (by decide), hbyte 5 (by decide), hbyte 4 (by decide),
    hfield 2 2 (by decide), hbyte 1 (by decide), hbyte 0 (by decide), List.drop_zero]

theorem encodeReqHeader_reqHeaderOf {bs : List Byte} (h : bs.length = 24) (hm : byteOf bs 0 = Config.reqMagic) :
    encodeReqHeader (reqHeaderOf bs) = bs := by
  have hfields := header_fields_append h
  rw [hm] at hfields
  simpa only [encodeReqHeader, reqHeaderOf, toNat_ofNat_fieldAt bs 2 2, toNat_ofNat_fieldAt bs 6 2,
    toNat_ofNat_fieldAt bs 8 4, toNat_ofNat_fieldAt bs 12 4, toNat_ofNat_fieldAt bs 16 8] using hfields

theorem encodeRspHeader_rspHeaderOf {bs : List Byte} (h : bs.length = 24) (hm : byteOf bs 0 = Config.rspMagic) :
    encodeRspHeader (rspHeaderOf bs) = bs := by
  have hfields := header_fields_append h
  rw [hm] at hfields
  simpa only [encodeRspHeader, rspHeaderOf, toNat_ofNat_fieldAt bs 2 2, toNat_ofNat_fieldAt bs 6 2,
    toNat_ofNat_fieldAt bs 8 4, toNat_ofNat_fieldAt bs 12 4, toNat_ofNat_fieldAt bs 16 8] using hfields

/-- A response magic is no request magic (R4). -/
theorem rspMagic_ne_reqMagic : Config.rspMagic ≠ Config.reqMagic := by decide

/-- Everything 24 bytes can be: a header of either direction, or none (R92, R112). -/
theorem decodeHeader_cases (bs : List Byte) :
    (byteOf bs 0 = Config.reqMagic ∧ decodeHeader bs = .ok (.hdrReq (reqHeaderOf bs))) ∨
    (byteOf bs 0 = Config.rspMagic ∧ decodeHeader bs = .ok (.hdrRsp (rspHeaderOf bs))) ∨
    decodeHeader bs = .error (.noHeaderMagic (byteOf bs 0)) := by
  unfold decodeHeader
  split_ifs with hreq hrsp
  · exact .inl ⟨hreq, rfl⟩
  · exact .inr (.inl ⟨hrsp, rfl⟩)
  · exact .inr (.inr rfl)

theorem decodeHeader_encodeReqHeader (h : ReqHeader) : decodeHeader (encodeReqHeader h) = .ok (.hdrReq h) :=
  (if_pos rfl).trans (by rw [reqHeaderOf_encodeReqHeader])

theorem decodeHeader_encodeRspHeader (h : RspHeader) : decodeHeader (encodeRspHeader h) = .ok (.hdrRsp h) :=
  (if_neg rspMagic_ne_reqMagic).trans ((if_pos rfl).trans (by rw [rspHeaderOf_encodeRspHeader]))

/-- Settles O1: a header by its fields, a command by its code and its operand. -/
theorem decodeInvertsEncode : Obligations.DecodeInvertsEncode := by
  intro i
  cases i with
  | hdrReq h => exact (decode_of_length_header (encodeReqHeader_length h)).trans (decodeHeader_encodeReqHeader h)
  | hdrRsp h => exact (decode_of_length_header (encodeRspHeader_length h)).trans (decodeHeader_encodeRspHeader h)
  | _ arg => exact (decode_encodeCommand _ arg).trans rfl

/-- Settles O2: what decodes is a command word or a header of a known magic, and either is put together from its fields. -/
theorem encodeInvertsDecode : Obligations.EncodeInvertsDecode := by
  intro bs i h
  by_cases hword : bs.length = 5
  · rw [decode_of_length_five hword] at h
    rw [encode_of_decodeCommand h, encodeCommand_of_length_five hword]
  · by_cases hheader : bs.length = 24
    · rw [decode_of_length_header hheader] at h
      rcases decodeHeader_cases bs with ⟨hm, e⟩ | ⟨hm, e⟩ | e <;> cases e.symm.trans h
      · exact encodeReqHeader_reqHeaderOf hheader hm
      · exact encodeRspHeader_rspHeaderOf hheader hm
    · have hnone : decode bs = .error (.badLength bs.length) := (if_neg hword).trans (if_neg hheader)
      cases hnone.symm.trans h

/-! ## The lengths a header declares (R97) -/

theorem reqHeaderOf_keyLen (bs : List Byte) : (reqHeaderOf bs).keyLen.toNat = fieldAt bs 2 2 := toNat_ofNat_fieldAt bs 2 2
theorem reqHeaderOf_totLen (bs : List Byte) : (reqHeaderOf bs).totLen.toNat = fieldAt bs 8 4 := toNat_ofNat_fieldAt bs 8 4

theorem keyLen_encodeReqHeader (h : ReqHeader) : fieldAt (encodeReqHeader h) 2 2 = h.keyLen.toNat := by
  rw [← reqHeaderOf_keyLen, reqHeaderOf_encodeReqHeader]

theorem totLen_encodeReqHeader (h : ReqHeader) : fieldAt (encodeReqHeader h) 8 4 = h.totLen.toNat := by
  rw [← reqHeaderOf_totLen, reqHeaderOf_encodeReqHeader]

/-- The response format has its lengths where the request format has them (R92). -/
theorem keyLen_encodeRspHeader (h : RspHeader) : fieldAt (encodeRspHeader h) 2 2 = h.keyLen.toNat :=
  keyLen_encodeReqHeader ⟨h.opcode, h.keyLen, h.extLen, h.reserved, h.status, h.totLen, h.opq, h.cas⟩

theorem totLen_encodeRspHeader (h : RspHeader) : fieldAt (encodeRspHeader h) 8 4 = h.totLen.toNat :=
  totLen_encodeReqHeader ⟨h.opcode, h.keyLen, h.extLen, h.reserved, h.status, h.totLen, h.opq, h.cas⟩

/-! ## Decode as a whole command (R131 to R133; O25, O26) -/

/-- A turn whose first micro-step ends the command. -/
theorem seqTurn_of_last_step {s t : State} (hb : s.flags.busy = true) (hy : s.drv.yields = [])
    (hm : microStep s = some t) (ht : t.flags.busy = false) : seqTurn s = t := by
  rw [seqTurn, stepBound, runSeq_of_step hb hy hm, runSeq_idle _ ht]

/-- The micro-step of a decode that is no part of a receive is the whole command. -/
theorem decodeStep_accept {code : Byte} (hc : isReceive code = false) (s : State) :
    decodeStep (accept code .decode s) = decodeState code (magicOf code) s := by
  have hbytes : hdrBytes (accept code .decode s) = hdrBytes s := rfl
  have hcmd : (accept code .decode s).cmdreg = code := rfl
  rw [decodeStep_eq, hbytes, hcmd, decodeState]
  split_ifs with hmagic hlen hrec
  · exact raise_of_not_isTransport rfl _ _
  · exact raise_of_not_isTransport rfl _ _
  · cases hc.symm.trans hrec
  · rfl

theorem decodeState_busy (code magic : Byte) (s : State) : (decodeState code magic s).flags.busy = false := by
  simp only [decodeState]
  split_ifs <;> rfl

/-- A decode that is accepted, uninterrupted. -/
theorem issue_decode {code : Byte} (hc : isReceive code = false) (arg : Word) {s : State} (hb : s.flags.busy = false)
    (hl : s.flags.hl = true) (hy : s.drv.yields = []) :
    issue code arg false s.flags.hl .decode s = decodeState code (magicOf code) s := by
  have hstep : microStep (accept code .decode s) = some (decodeState code (magicOf code) s) := by
    rw [microStep_decode rfl, decodeStep_accept hc]
  rw [hl, issue_accepted (st := false) hb nofun]
  exact seqTurn_of_last_step rfl hy hstep (decodeState_busy _ _ s)

/-- Settles O25: acceptance and one micro-step. -/
theorem decodeReadsHeader : Obligations.DecodeReadsHeader := fun _ a hb hl hy =>
  ⟨congrArg _ (issue_decode (code := Code.decreq) rfl a hb hl hy), congrArg _ (issue_decode (code := Code.decrsp) rfl a hb hl hy)⟩

/-- A header of the other direction, or of none (R131). -/
theorem decodeState_mismatch (code : Byte) {magic : Byte} {s : State} (hm : byteOf (hdrBytes s) 0 ≠ magic) :
    decodeState code magic s = endedError .magicMismatch .decode code ((byteOf (hdrBytes s) 0).setWidth 32)
      { s with flags := { s.flags with hv := false } } := if_pos hm

/-- Impossible lengths (R97, R131). -/
theorem decodeState_malformed (code : Byte) {magic : Byte} {s : State} (hm : byteOf (hdrBytes s) 0 = magic)
    (hl : fieldAt (hdrBytes s) 8 4 < fieldAt (hdrBytes s) 2 2 + (byteOf (hdrBytes s) 4).toNat) :
    decodeState code magic s = endedError .malformedLength .decode code (BitVec.ofNat 32 (fieldAt (hdrBytes s) 8 4))
      { s with flags := { s.flags with hv := false } } := (if_neg (not_not.mpr hm)).trans (if_pos hl)

/-- A legal header of the direction (R131). -/
theorem decodeState_legal (code : Byte) {magic : Byte} {s : State} (hm : byteOf (hdrBytes s) 0 = magic)
    (hl : fieldAt (hdrBytes s) 2 2 + (byteOf (hdrBytes s) 4).toNat ≤ fieldAt (hdrBytes s) 8 4) :
    decodeState code magic s =
      endedOk code { s with h := regsFrom magic (hdrBytes s) s.h, flags := { s.flags with hv := true } } :=
  (if_neg (not_not.mpr hm)).trans (if_neg (Nat.not_lt.mpr hl))

/-- Settles O26: of the outcomes of a decode the header allows only the last. -/
theorem legalHeaderDecodes : Obligations.LegalHeaderDecodes := by
  intro s a hb hl hy hlen
  obtain ⟨hreq, hrsp⟩ := decodeReadsHeader s a hb hl hy
  refine ⟨fun hm => ?_, fun hm => ?_⟩
  · rw [hreq, decodeState_legal _ hm hlen]; rfl
  · rw [hrsp, decodeState_legal _ hm hlen]; rfl

/-! ## Encode as a whole command (R150 to R152; O35, O36) -/

/-- The micro-step of an encode that is no part of a transmit is the whole command. -/
theorem encodeStep_accept {code : Byte} (hc : isTransmit code = false) (s : State) :
    encodeStep (accept code .encode s) = endedOk code (headerBuilt (magicOf code) s) := by
  have hheader : encodedHeader (magicOf code) (accept code .encode s) = Mem.ofBytes 0 (headerBytes (magicOf code) s) :=
    encodedHeader_eq _ (accept code .encode s) (magicOf_cases _)
  have hcmd : (accept code .encode s).cmdreg = code := rfl
  simp only [encodeStep, hcmd, hc, hheader]
  rfl

/-- An encode, uninterrupted. -/
theorem issue_encode {code : Byte} (hc : isTransmit code = false) (arg : Word) {s : State} (hb : s.flags.busy = false)
    (hy : s.drv.yields = []) : issue code arg false true .encode s = endedOk code (headerBuilt (magicOf code) s) := by
  have hstep : microStep (accept code .encode s) = some (endedOk code (headerBuilt (magicOf code) s)) := by
    rw [microStep_encode rfl, encodeStep_accept hc]
  rw [issue_accepted (st := false) hb nofun]
  exact seqTurn_of_last_step rfl hy hstep rfl

/-- Settles O35: acceptance and one micro-step. -/
theorem encodeBuildsHeader : Obligations.EncodeBuildsHeader := fun _ a hb hy =>
  ⟨congrArg _ (issue_encode (code := Code.encreq) rfl a hb hy), congrArg _ (issue_encode (code := Code.encrsp) rfl a hb hy)⟩

/-- The sum of the buffer lengths fits the total's field (R99). -/
theorem total_lt {B : Buffers} (h : B.valLen.toNat ≤ Config.valcap) : Buffers.total B < 2 ^ 32 := by
  have hmax : Config.valcap ≤ 4294901505 := Config.valcap_le_max
  have hext := B.extLen.isLt
  have hkey := B.keyLen.isLt
  rw [Buffers.total]
  omega

/-- The total that an encode writes (R99). -/
theorem totLen_headerBytes (magic : Byte) {s : State} (h : Buffers.total s.buf < 2 ^ 32) :
    fieldAt (headerBytes magic s) 8 4 = Buffers.total s.buf := by
  have htot : (BitVec.ofNat 32 (Buffers.total s.buf)).toNat = Buffers.total s.buf := by
    rw [BitVec.toNat_ofNat, Nat.mod_eq_of_lt h]
  rw [headerBytes]
  split_ifs
  · exact (totLen_encodeReqHeader _).trans htot
  · exact (totLen_encodeRspHeader _).trans htot

/-- Settles O36: the bounds of the three lengths, and the total field of what an encode builds. -/
theorem encodedTotalIsExact : Obligations.EncodedTotalIsExact := by
  intro s a hb hy hval
  have hlt := total_lt hval
  obtain ⟨hreq, hrsp⟩ := encodeBuildsHeader s a hb hy
  have hexact (code : Byte) : fieldAt (hdrBytes (endedOk code (headerBuilt (magicOf code) s))) 8 4 = Buffers.total s.buf :=
    (congrArg (fieldAt · 8 4) (hdrBytes_headerBuilt (magicOf code) s)).trans (totLen_headerBytes (magicOf code) hlt)
  refine ⟨Nat.le_of_lt_succ s.buf.extLen.isLt, Nat.le_of_lt_succ s.buf.keyLen.isLt, Config.valcap_le_max,
    Nat.le_pred_of_lt hlt, fun i hi => ?_⟩
  simp only [List.mem_cons, List.not_mem_nil, or_false] at hi
  rcases hi with rfl | rfl
  · exact ⟨_, hreq, rfl, hexact Code.encreq⟩
  · exact ⟨_, hrsp, rfl, hexact Code.encrsp⟩

/-! ## A header loaded by the host (R93, R94, R163; O43) -/

/-- Any 24 bytes that the host gives are loaded, header or not (R112). -/
theorem step_of_header_word {s : State} {bs : List Byte} {rest : List Input} (hin : s.drv.inputs = .word bs :: rest)
    (hlen : bs.length = 24) : step s = .next (hostLoad 0x23 bs (popped rest s)) := by
  have hdecode := decode_of_length_header hlen
  rcases decodeHeader_cases bs with ⟨hm, e⟩ | ⟨hm, e⟩ | e <;> rw [e] at hdecode
  · rw [step_of_word (nextInput_cons hin) hdecode, exec, execHdrReq, encodeReqHeader_reqHeaderOf hlen hm]
  · rw [step_of_word (nextInput_cons hin) hdecode, exec, execHdrRsp, encodeRspHeader_rspHeaderOf hlen hm]
  · simp only [step, nextInput_cons hin, hdecode, rejectWord]

theorem hostLoad_header {s : State} {bs : List Byte} (hb : s.flags.busy = false) (hlen : bs.length = 24) :
    hostLoad 0x23 bs s = headerGiven bs s := by
  have hfits : fits .hdr bs.length = true := by rw [hlen]; rfl
  simp only [hostLoad, hb, bufferOf, hfits]
  rfl

theorem hdrBytes_headerGiven {bs : List Byte} (hlen : bs.length = 24) (s : State) : hdrBytes (headerGiven bs s) = bs :=
  hdrBytes_of (headerGiven bs s) bs rfl hlen

/-- The outcomes of a decode right after the load of a header, whose start clears nothing more (R131, R163). -/
theorem decodeState_headerGiven (code : Byte) {magic : Byte} {bs : List Byte} (hlen : bs.length = 24) (s : State) :
    (byteOf bs 0 ≠ magic → decodeState code magic (headerGiven bs s) =
      endedError .magicMismatch .decode code ((byteOf bs 0).setWidth 32) (headerGiven bs s)) ∧
    (byteOf bs 0 = magic → fieldAt bs 8 4 < fieldAt bs 2 2 + (byteOf bs 4).toNat →
      decodeState code magic (headerGiven bs s) =
        endedError .malformedLength .decode code (BitVec.ofNat 32 (fieldAt bs 8 4)) (headerGiven bs s)) ∧
    (byteOf bs 0 = magic → fieldAt bs 2 2 + (byteOf bs 4).toNat ≤ fieldAt bs 8 4 →
      decodeState code magic (headerGiven bs s) = endedOk code { headerGiven bs s with
        h := regsFrom magic bs s.h, flags := { s.flags with hl := true, hv := true } }) := by
  have hbytes := hdrBytes_headerGiven hlen s
  refine ⟨fun hm => ?_, fun hm hl => ?_, fun hm hl => ?_⟩
  · rw [decodeState_mismatch code (by rwa [hbytes]), hbytes]
    rfl
  · rw [decodeState_malformed code (by rwa [hbytes]) (by rwa [hbytes]), hbytes]
    rfl
  · rw [decodeState_legal code (by rwa [hbytes]) (by rwa [hbytes]), hbytes]
    rfl

theorem regsFrom_encodeReqHeader (hd : ReqHeader) (h : HeaderRegs) :
    regsFrom Config.reqMagic (encodeReqHeader hd) h = requestRegs hd h :=
  (if_pos rfl).trans (by rw [reqHeaderOf_encodeReqHeader])

theorem regsFrom_encodeRspHeader (hd : RspHeader) (h : HeaderRegs) :
    regsFrom Config.rspMagic (encodeRspHeader hd) h = responseRegs hd h :=
  (if_neg rspMagic_ne_reqMagic).trans (by rw [rspHeaderOf_encodeRspHeader])

/-- Settles O43: the load leaves the header's bytes in `HDRBUF`, and a decode is by its direction and their lengths. -/
theorem headerRowsDecode : Obligations.HeaderRowsDecode := by
  refine ⟨fun s bs rest => step_of_header_word, fun s hb => ⟨fun hd => ?_, fun hd => ?_⟩⟩
  · have hlen := encodeReqHeader_length hd
    refine ⟨congrArg _ (hostLoad_header hb hlen), fun hy a => ?_⟩
    obtain ⟨hreq, hrsp⟩ := decodeReadsHeader (headerGiven (encodeReqHeader hd) s) a hb rfl hy
    obtain ⟨-, hbad, hgood⟩ := decodeState_headerGiven Code.decreq (magic := Config.reqMagic) hlen s
    obtain ⟨hcross, -⟩ := decodeState_headerGiven Code.decrsp (magic := Config.rspMagic) hlen s
    rw [keyLen_encodeReqHeader, totLen_encodeReqHeader, regsFrom_encodeReqHeader] at hgood
    rw [keyLen_encodeReqHeader, totLen_encodeReqHeader, BitVec.ofNat_toNat, BitVec.setWidth_eq] at hbad
    exact ⟨fun hl => hreq.trans (congrArg _ (hgood rfl hl)), fun hl => hreq.trans (congrArg _ (hbad rfl hl)),
      hrsp.trans (congrArg _ (hcross rspMagic_ne_reqMagic.symm))⟩
  · have hlen := encodeRspHeader_length hd
    refine ⟨congrArg _ (hostLoad_header hb hlen), fun hy a => ?_⟩
    obtain ⟨hreq, hrsp⟩ := decodeReadsHeader (headerGiven (encodeRspHeader hd) s) a hb rfl hy
    obtain ⟨-, hbad, hgood⟩ := decodeState_headerGiven Code.decrsp (magic := Config.rspMagic) hlen s
    obtain ⟨hcross, -⟩ := decodeState_headerGiven Code.decreq (magic := Config.reqMagic) hlen s
    rw [keyLen_encodeRspHeader, totLen_encodeRspHeader, regsFrom_encodeRspHeader] at hgood
    rw [keyLen_encodeRspHeader, totLen_encodeRspHeader, BitVec.ofNat_toNat, BitVec.setWidth_eq] at hbad
    exact ⟨fun hl => hrsp.trans (congrArg _ (hgood rfl hl)), fun hl => hrsp.trans (congrArg _ (hbad rfl hl)),
      hreq.trans (congrArg _ (hcross rspMagic_ne_reqMagic))⟩

/-! ## The direction of a decode (R101, R112; O60) -/

/-- The micro-step of `DECODE` finds the wrong magic, or impossible lengths, or leaves the registers of the header (R131). -/
theorem decodeStep_outcomes (s : State) :
    (byteOf (hdrBytes s) 0 ≠ magicOf s.cmdreg ∧
      decodeStep s = raise .magicMismatch ((byteOf (hdrBytes s) 0).setWidth 32) s) ∨
    (byteOf (hdrBytes s) 0 = magicOf s.cmdreg ∧ ∃ info, decodeStep s = raise .malformedLength info s) ∨
    (byteOf (hdrBytes s) 0 = magicOf s.cmdreg ∧
      SameRecords (s.setH (regsFrom (magicOf s.cmdreg) (hdrBytes s) s.h)) (decodeStep s)) := by
  rw [decodeStep_eq]
  split_ifs with hm hl hrec
  · exact .inl ⟨hm, rfl⟩
  · exact .inr (.inl ⟨not_not.mp hm, _, rfl⟩)
  · exact .inr (.inr ⟨not_not.mp hm, (enter_sameRecords _ ((s.setH _).setFlags _)).after⟩)
  · exact .inr (.inr ⟨not_not.mp hm, (finish_sameRecords ((s.setH _).setFlags _)).after⟩)

theorem raise_cause (c : Cause) (info : Word) (s : State) : (raise c info s).errs.err.cause = c := by
  obtain ⟨-, -, -, -, herrs, -⟩ := raise_fields c info s
  rw [herrs]

theorem raise_h (c : Cause) (info : Word) (s : State) : (raise c info s).h = s.h := (raise_fields c info s).1

/-- What `DECODE` records and writes, by the magic that the command in flight names. -/
theorem Inv.decode_direction {s : State} (hs : Inv s) (hp : s.seq.phase = .decode) {magic : Byte}
    (hmagic : magicOf s.cmdreg = magic) :
    ((decodeStep s).errs.err.cause = .magicMismatch ↔ byteOf (hdrBytes s) 0 ≠ magic) ∧
    ((decodeStep s).errs.err.cause = .none → (decodeStep s).h.magic = magic) ∧
    ((decodeStep s).errs.err.cause ≠ .none → (decodeStep s).h = s.h) := by
  subst hmagic
  have hnone : s.errs.err.cause = .none := hs.err_busy (hs.busy_of (by rw [hp]; nofun))
  rcases decodeStep_outcomes s with ⟨hm, e⟩ | ⟨hm, info, e⟩ | ⟨hm, same⟩
  · simp [e, raise_cause, raise_h, hm]
  · simp [e, raise_cause, raise_h, hm]
  · have hcause : (decodeStep s).errs.err.cause = .none := by rw [same.errs]; exact hnone
    refine ⟨by simp [hcause, hm], fun _ => ?_, fun h => absurd hcause h⟩
    rw [same.h]
    exact regsFrom_magic _ (magicOf_cases _) _ _

/-- Settles O60: the commands of the phase are four (R41), and each names its magic. -/
theorem directionIsNamedByCommand : Obligations.DirectionIsNamedByCommand := by
  intro s t hs hp hm
  obtain rfl : decodeStep s = t := Option.some.inj ((microStep_decode hp).symm.trans hm)
  have hcmd := hs.command
  rw [hp] at hcmd
  simp only [passesThrough, decide_eq_true_eq] at hcmd
  refine ⟨by simp only [List.map_cons, List.map_nil, List.mem_cons, List.not_mem_nil, or_false]; tauto, fun e he hcode => ?_⟩
  refine hs.decode_direction hp ?_
  simp only [List.mem_cons, List.not_mem_nil, or_false] at he
  rcases he with rfl | rfl | rfl | rfl <;> rw [hcode] <;> rfl

/-! ## Encode and decode undo each other (R108, R109; O48, O49) -/

@[simp] theorem endedWell_endedOk (code : Byte) (s : State) : endedWell (endedOk code s) = true := rfl

theorem endedWell_notStarted {c : Cause} (hc : c ≠ .none) (code : Byte) (info : Word) (s : State) :
    endedWell (notStarted c code info s) = false := by
  simp [endedWell, notStarted, hc]

theorem byteOf_headerBytes_magic {magic : Byte} (hm : magic = Config.reqMagic ∨ magic = Config.rspMagic) (s : State) :
    byteOf (headerBytes magic s) 0 = magic := by
  rcases hm with rfl | rfl <;> rfl

theorem extLen_headerBytes (magic : Byte) (s : State) : byteOf (headerBytes magic s) 4 = s.buf.extLen := by
  rw [headerBytes]
  split_ifs <;> rfl

theorem keyLen_headerBytes (magic : Byte) (s : State) : fieldAt (headerBytes magic s) 2 2 = s.buf.keyLen.toNat := by
  rw [headerBytes]
  split_ifs
  · exact keyLen_encodeReqHeader _
  · exact keyLen_encodeRspHeader _

/-- What decoding the header of the registers and the buffer lengths makes of the registers (R108): the magic and the lengths
are set, the rest comes back. -/
theorem regsFrom_headerBytes {magic : Byte} (hm : magic = Config.reqMagic ∨ magic = Config.rspMagic) {s : State}
    (ht : Buffers.total s.buf < 2 ^ 32) :
    regsFrom magic (headerBytes magic s) s.h = { s.h with
      magic := magic
      keyLen := s.buf.keyLen
      extLen := s.buf.extLen
      totLen := BitVec.ofNat 32 (Buffers.total s.buf)
      valLen := s.buf.valLen } := by
  have hval : BitVec.ofNat 32 ((BitVec.ofNat 32 (Buffers.total s.buf)).toNat - s.buf.keyLen.toNat - s.buf.extLen.toNat) =
      s.buf.valLen := by
    have hsub : Buffers.total s.buf - s.buf.keyLen.toNat - s.buf.extLen.toNat = s.buf.valLen.toNat := by
      rw [Buffers.total]; omega
    rw [BitVec.toNat_ofNat, Nat.mod_eq_of_lt ht, hsub, BitVec.ofNat_toNat, BitVec.setWidth_eq]
  rcases hm with rfl | rfl
  · refine (regsFrom_encodeReqHeader (requestHeader s) s.h).trans ?_
    simp only [requestRegs, requestHeader, hval]
  · refine (regsFrom_encodeRspHeader (responseHeader s) s.h).trans ?_
    simp only [responseRegs, responseHeader, hval]

/-- A decode after the encode of its direction. -/
theorem decodeState_headerBuilt {magic : Byte} (hm : magic = Config.reqMagic ∨ magic = Config.rspMagic) (ecode dcode : Byte)
    {s : State} (ht : Buffers.total s.buf < 2 ^ 32) :
    decodeState dcode magic (endedOk ecode (headerBuilt magic s)) =
      endedOk dcode { endedOk ecode (headerBuilt magic s) with
        h := regsFrom magic (headerBytes magic s) s.h, flags := { s.flags with hl := true, hv := true } } := by
  have hbytes : hdrBytes (endedOk ecode (headerBuilt magic s)) = headerBytes magic s := hdrBytes_headerBuilt magic s
  have hlegal : s.buf.keyLen.toNat + s.buf.extLen.toNat ≤ Buffers.total s.buf := by rw [Buffers.total]; omega
  rw [decodeState_legal dcode (by rw [hbytes, byteOf_headerBytes_magic hm])
    (by rwa [hbytes, keyLen_headerBytes, extLen_headerBytes, totLen_headerBytes magic ht]), hbytes]
  rfl

/-- A decode after the encode of the other direction. -/
theorem decodeState_headerBuilt_crossed {magic other : Byte} (hm : magic = Config.reqMagic ∨ magic = Config.rspMagic)
    (hne : magic ≠ other) (ecode dcode : Byte) (s : State) :
    (decodeState dcode other (endedOk ecode (headerBuilt magic s))).errs.err.cause = .magicMismatch := by
  have hbytes : hdrBytes (endedOk ecode (headerBuilt magic s)) = headerBytes magic s := hdrBytes_headerBuilt magic s
  rw [decodeState_mismatch dcode (by rwa [hbytes, byteOf_headerBytes_magic hm])]
  rfl

/-- The registers after the encode and the decode of one direction (R108). -/
theorem decodeState_headerBuilt_restores {magic : Byte} (hm : magic = Config.reqMagic ∨ magic = Config.rspMagic)
    (ecode dcode : Byte) {s u : State} (ht : Buffers.total s.buf < 2 ^ 32)
    (hu : u = decodeState dcode magic (endedOk ecode (headerBuilt magic s))) :
    endedWell u = true ∧
    u.h = ⟨magic, s.h.opcode, s.buf.keyLen, s.buf.extLen, s.h.vbucket, s.h.status, u.h.totLen, s.h.opq, s.h.cas,
      s.buf.valLen⟩ ∧
    u.h.totLen.toNat = s.buf.extLen.toNat + s.buf.keyLen.toNat + s.buf.valLen.toNat := by
  rw [decodeState_headerBuilt hm ecode dcode ht, regsFrom_headerBytes hm ht] at hu
  subst hu
  exact ⟨rfl, rfl, Nat.mod_eq_of_lt ht⟩

/-- Settles O48: the encoded header is the one that the registers and the lengths describe, and decodes to them. -/
theorem encodeThenDecodeRestores : Obligations.EncodeThenDecodeRestores := by
  intro s a b hs hb hy
  have ht := total_lt hs.valLen_le
  obtain ⟨hencreq, hencrsp⟩ := encodeBuildsHeader s a hb hy
  constructor
  · obtain ⟨hown, hother⟩ := decodeReadsHeader (endedOk Code.encreq (headerBuilt Config.reqMagic s)) b rfl rfl hy
    obtain ⟨hwell, hregs, htot⟩ := decodeState_headerBuilt_restores (.inl rfl) Code.encreq Code.decreq ht rfl
    exact ⟨_, _, _, hencreq, rfl, hown, hwell, hregs, htot, hother,
      decodeState_headerBuilt_crossed (.inl rfl) rspMagic_ne_reqMagic.symm _ _ s⟩
  · obtain ⟨hother, hown⟩ := decodeReadsHeader (endedOk Code.encrsp (headerBuilt Config.rspMagic s)) b rfl rfl hy
    obtain ⟨hwell, hregs, htot⟩ := decodeState_headerBuilt_restores (.inr rfl) Code.encrsp Code.decrsp ht rfl
    exact ⟨_, _, _, hencrsp, rfl, hown, hwell, hregs, htot, hother,
      decodeState_headerBuilt_crossed (.inr rfl) rspMagic_ne_reqMagic _ _ s⟩

/-- A decode that ends ok found the header loaded, of its direction and legal (R131, R132, R133). -/
theorem decode_of_endedWell {code : Byte} (hc : isReceive code = false) {arg : Word} {s t : State}
    (hb : s.flags.busy = false) (hy : s.drv.yields = []) (h : issue code arg false s.flags.hl .decode s = t)
    (hw : endedWell t = true) :
    byteOf (hdrBytes s) 0 = magicOf code ∧ ¬ fieldAt (hdrBytes s) 8 4 < fieldAt (hdrBytes s) 2 2 + (byteOf (hdrBytes s) 4).toNat ∧
    t = endedOk code { s with h := regsFrom (magicOf code) (hdrBytes s) s.h, flags := { s.flags with hv := true } } := by
  cases hl : s.flags.hl with
  | false =>
    rw [hl, issue_refused (st := false) hb nofun, refuse_eq] at h
    rw [← h, endedWell_notStarted (c := .badSequence) (by decide)] at hw
    cases hw
  | true =>
    rw [issue_decode hc arg hb hl hy, decodeState] at h
    split_ifs at h with hm hlen
    · subst h
      cases hw
    · subst h
      cases hw
    · exact ⟨not_not.mp hm, hlen, h.symm⟩

/-- `RDFRAME` ends ok only with the whole frame read (R141, R200). -/
theorem rdframeState_of_endedWell {s : State} (hw : endedWell (rdframeState s) = true) :
    rdframeState s = endedOk Code.rdframe (consumed s.h.totLen.toNat (frameRead true 0 s)) := by
  rw [rdframeState] at hw ⊢
  split_ifs at hw ⊢ with hmax
  · cases hw
  · rcases frameOutcome_cases s.h.extLen.toNat s.h.keyLen.toNat s.h.totLen.toNat s.env.rx s.env.rxEnded with
      e | ⟨-, -, p, n, e⟩ | ⟨-, -, p, n, e⟩ <;> simp only [e] at hw ⊢
    · cases hw
    · cases hw

theorem rdframe_of_endedWell {arg : Word} {s t : State} (h : issue Code.rdframe arg true s.flags.hv .check s = t)
    (hw : endedWell t = true) (hb : s.flags.busy = false) (hy : s.drv.yields = []) (hq : s.txq = [])
    (hsum : s.h.totLen.toNat = s.h.extLen.toNat + s.h.keyLen.toNat + s.h.valLen.toNat) :
    t = endedOk Code.rdframe (consumed s.h.totLen.toNat (frameRead true 0 s)) := by
  rcases issue_cases Code.rdframe arg true s.flags.hv .check s with ⟨hb', -⟩ | ⟨-, -, -, e⟩ | ⟨-, -, e⟩ | ⟨-, -, -, e⟩
  · cases hb.symm.trans hb'
  · rw [← h, e, linkDead_eq, endedWell_notStarted (c := .linkDead) (by decide)] at hw
    cases hw
  · rw [← h, e, refuse_eq, endedWell_notStarted (c := .badSequence) (by decide)] at hw
    cases hw
  · rw [e, seqTurn_accept_rdframe hy hq hsum] at h
    subst h
    exact rdframeState_of_endedWell hw

/-- The header that is encoded from the registers of a decode and the lengths of its frame is the decoded one, but for its
reserved byte (R109). -/
theorem headerBytes_of_decoded {magic : Byte} (hm : magic = Config.reqMagic ∨ magic = Config.rspMagic) {bs : List Byte}
    {h : HeaderRegs} {u : State} (hlen : bs.length = 24) (hmagic : byteOf bs 0 = magic)
    (hlegal : ¬ fieldAt bs 8 4 < fieldAt bs 2 2 + (byteOf bs 4).toNat) (hregs : u.h = regsFrom magic bs h)
    (hext : u.buf.extLen = u.h.extLen) (hkey : u.buf.keyLen = u.h.keyLen) (hval : u.buf.valLen = u.h.valLen) :
    headerBytes magic u = bs.set 5 0x00#8 := by
  have htot : BitVec.ofNat 32 (Buffers.total u.buf) = u.h.totLen := by
    rw [Buffers.total, hext, hkey, hval, hregs, ← regsFrom_lengths magic bs h hlegal, BitVec.ofNat_toNat, BitVec.setWidth_eq]
  rcases hm with rfl | rfl
  · have hheader : requestHeader u = { reqHeaderOf bs with reserved := 0 } := by
      rw [requestHeader, htot, hext, hkey, hregs]
      rfl
    conv_rhs => rw [← encodeReqHeader_reqHeaderOf hlen hmagic]
    exact congrArg encodeReqHeader hheader
  · have hheader : responseHeader u = { rspHeaderOf bs with reserved := 0 } := by
      rw [responseHeader, htot, hext, hkey, hregs]
      rfl
    conv_rhs => rw [← encodeRspHeader_rspHeaderOf hlen hmagic]
    exact congrArg encodeRspHeader hheader

/-- Decode, read the frame, encode, in one direction (R109). -/
theorem decode_rdframe_encode {dcode ecode : Byte} (hd : isReceive dcode = false) (he : isTransmit ecode = false)
    (hsame : magicOf ecode = magicOf dcode) {a b c : Word} {s t u v : State} (hb : s.flags.busy = false)
    (hy : s.drv.yields = []) (hq : s.txq = []) (ht : issue dcode a false s.flags.hl .decode s = t)
    (htw : endedWell t = true) (hu : issue Code.rdframe b true t.flags.hv .check t = u) (huw : endedWell u = true)
    (hv : issue ecode c false true .encode u = v) : hdrBytes v = (hdrBytes s).set 5 0x00#8 := by
  obtain ⟨hm, hlegal, rfl⟩ := decode_of_endedWell hd hb hy ht htw
  obtain rfl := rdframe_of_endedWell hu huw rfl hy hq (regsFrom_lengths _ _ s.h hlegal)
  obtain rfl := hv.symm.trans (issue_encode he c rfl hy)
  refine (hdrBytes_headerBuilt _ _).trans ?_
  rw [hsame]
  exact headerBytes_of_decoded (magicOf_cases dcode) (Mem.bytes_length _ _ _ _) hm hlegal rfl rfl rfl rfl

/-- Settles O49: the two directions differ in their codes only. -/
theorem decodeThenEncodeRestores : Obligations.DecodeThenEncodeRestores := by
  intro s t u v a b c hb hy hq
  refine ⟨fun ht htw hu huw hv => ?_, fun ht htw hu huw hv => ?_⟩
  · exact decode_rdframe_encode (dcode := Code.decreq) (ecode := Code.encreq) rfl rfl rfl hb hy hq
      (Host.Outcome.next.inj ht) htw (Host.Outcome.next.inj hu) huw (Host.Outcome.next.inj hv)
  · exact decode_rdframe_encode (dcode := Code.decrsp) (ecode := Code.encrsp) rfl rfl rfl hb hy hq
      (Host.Outcome.next.inj ht) htw (Host.Outcome.next.inj hu) huw (Host.Outcome.next.inj hv)

/-! ## Receives as sequences of commands (R106, R143, R144; O30)

A receive does what `LDHDR`, the decode and `RDFRAME` do, under its own code. -/

theorem discardStaged_asCommand (code : Byte) (s : State) :
    discardStaged (asCommand code s) = asCommand code (discardStaged s) := by
  obtain ⟨_, _, _, _, _, _, _, q, _, _⟩ := s
  cases q <;> rfl

/-- An error is recorded with the code of the command in flight (R200). -/
theorem raise_asCommand (c : Cause) (info : Word) (code : Byte) (s : State) :
    raise c info (asCommand code s) = asCommand code (raise c info s) := by
  cases hc : c.isTransport with
  | true =>
    rw [raise_transport hc, raise_transport hc, discardStaged_asCommand]
    rfl
  | false =>
    rw [raise_of_not_isTransport hc, raise_of_not_isTransport hc]
    rfl

theorem frameEnd_asCommand (bs : List Byte) (o : RxOutcome) (code : Byte) (s : State) :
    frameEnd bs (asCommand code s) o = asCommand code (frameEnd bs s o) := by
  cases o with
  | transport c p k =>
    exact raise_asCommand _ _ code (((s.setBuf (filled bs s.buf)).setEnv { s.env with rx := [] }).setSeq ⟨p, BitVec.ofNat 32 k⟩)
  | _ => rfl

/-- From `CHECK` on the code of the command does not matter. -/
theorem seqTurn_check_asCommand (code : Byte) {s : State} (hp : s.seq.phase = .check) (hb : s.flags.busy = true)
    (hy : s.drv.yields = []) : seqTurn (asCommand code s) = asCommand code (seqTurn s) := by
  have hbound : s.env.rx.length + 1 < stepBound s := by rw [stepBound]; omega
  rw [seqTurn, seqTurn, runSeq_check (stepBound (asCommand code s)) (asCommand code s) hp hb hy hbound,
    runSeq_check _ s hp hb hy hbound, apply_ite (asCommand code), ← raise_asCommand, ← frameEnd_asCommand]
  rfl

/-- With less than a header there, a receive comes to what `LDHDR` comes to. -/
theorem seqTurn_accept_hdrRx_short (code : Byte) {s : State} (hy : s.drv.yields = []) (hq : s.txq = [])
    (hlen : s.env.rx.length < 24) : seqTurn (accept code .hdrRx s) = asCommand code (ldhdrState s) := by
  have hturn (c : Byte) := runSeq_receiving_short .hdr s.env.rx (n := stepBound (accept code .hdrRx s)) (u := headerBegun c s) rfl hy hlen
    (by simp only [stepBound, accept_env]; omega)
  rw [← seqTurn_accept_ldhdr hy hq, seqTurn, seqTurn, accept_hdrRx, accept_hdrRx]
  refine (hturn code).trans (Eq.trans ?_ (congrArg (asCommand code) (hturn Code.ldhdr)).symm)
  rw [apply_ite (asCommand code), ← raise_asCommand]
  rfl

/-- With the header there, it goes on to the decode of what `LDHDR` has loaded. -/
theorem seqTurn_accept_hdrRx_full {code : Byte} (hc : isReceive code = true) (dcode : Byte) {s : State}
    (hy : s.drv.yields = []) (hlen : Config.headerLen ≤ s.env.rx.length) :
    seqTurn (accept code .hdrRx s) = seqTurn (asCommand code (accept dcode .decode (ldhdrState s))) := by
  set u := receiving .hdr (s.env.rx.take Config.headerLen) (s.env.rx.drop Config.headerLen) (headerBegun code s)
  have hend : endRecv .hdr u = asCommand code (accept dcode .decode (ldhdrState s)) := by
    rw [ldhdrState, if_pos hlen]
    exact if_pos hc
  have hbound : s.env.rx.length + 27 ≤ stepBound (accept code .hdrRx s) := by
    rw [stepBound, accept_env]
    show _ + 27 ≤ _ + 24 + _ + 8
    omega
  obtain ⟨n, hn⟩ : ∃ n, stepBound (accept code .hdrRx s) = n + Config.headerLen :=
    Nat.exists_eq_add_of_le' ((show 24 ≤ s.env.rx.length + 27 by omega).trans hbound)
  have hleft : stepsLeft (endRecv .hdr u) ≤ n := by
    have hn24 : s.env.rx.length + 27 ≤ n + 24 := hn ▸ hbound
    rw [hend, ldhdrState, if_pos hlen]
    show (s.env.rx.drop Config.headerLen).length + 3 ≤ n
    rw [List.length_drop]
    omega
  have hyields : (endRecv .hdr u).drv.yields = [] := by
    rw [hend, ldhdrState, if_pos hlen]
    exact hy
  rw [seqTurn, hn, accept_hdrRx, runSeq_receiving_header s.env.rx n (u := headerBegun code s) rfl hy hlen, ← hend]
  exact (endRecv_receives .hdr u).runSeq_eq_seqTurn hyields hleft

/-- The decode within a receive: an error is that of the decode command, and success goes on to the start of `RDFRAME`. -/
theorem decodeStep_asCommand {code dcode : Byte} (hc : isReceive code = true) (hm : magicOf code = magicOf dcode) (s : State) :
    decodeStep (asCommand code (accept dcode .decode s)) =
      if endedWell (decodeState dcode (magicOf dcode) s) then
        asCommand code (accept Code.rdframe .check (decodeState dcode (magicOf dcode) s))
      else asCommand code (decodeState dcode (magicOf dcode) s) := by
  set u := asCommand code (accept dcode .decode s)
  have hbytes : hdrBytes u = hdrBytes s := rfl
  have hcmd : u.cmdreg = code := rfl
  rw [decodeStep_eq, hbytes, hcmd, hm, if_pos hc]
  by_cases hmagic : byteOf (hdrBytes s) 0 = magicOf dcode
  · rw [if_neg (not_not.mpr hmagic)]
    by_cases hlen : fieldAt (hdrBytes s) 8 4 < fieldAt (hdrBytes s) 2 2 + (byteOf (hdrBytes s) 4).toNat
    · rw [if_pos hlen, decodeState_malformed dcode hmagic hlen]
      exact (raise_of_not_isTransport rfl _ u).trans (if_neg nofun).symm
    · rw [if_neg hlen, decodeState_legal dcode hmagic (Nat.le_of_not_lt hlen)]
      rfl
  · rw [if_pos hmagic, decodeState_mismatch dcode hmagic]
    exact (raise_of_not_isTransport rfl _ u).trans (if_neg nofun).symm

/-- `LDHDR`, a decode and `RDFRAME`, each if the one before it has ended ok (R106). -/
def receiveSequence (dcode : Byte) (s : State) : State :=
  let loaded := ldhdrState s
  let decoded := decodeState dcode (magicOf dcode) loaded
  if endedWell loaded then if endedWell decoded then rdframeState decoded else decoded else loaded

/-- `LDHDR` ends ok exactly when the stream has the 24 bytes (R130). -/
theorem ldhdrState_cases (s : State) :
    (Config.headerLen ≤ s.env.rx.length ∧ ldhdrState s = endedOk Code.ldhdr (consumed Config.headerLen (headerLoaded true false s))) ∨
    (s.env.rx.length < 24 ∧ endedWell (ldhdrState s) = false) := by
  rw [ldhdrState]
  split_ifs with hlen hend hzero
  · exact .inl ⟨hlen, rfl⟩
  · exact .inr ⟨Nat.lt_of_not_le hlen, rfl⟩
  · exact .inr ⟨Nat.lt_of_not_le hlen, rfl⟩
  · exact .inr ⟨Nat.lt_of_not_le hlen, rfl⟩

/-- A decode that ends ok leaves a valid header, whose lengths add up (R27, R30, R36). -/
theorem decodeState_of_endedWell {code magic : Byte} {s : State} (hw : endedWell (decodeState code magic s) = true) :
    ∃ h, h.totLen.toNat = h.extLen.toNat + h.keyLen.toNat + h.valLen.toNat ∧
      decodeState code magic s = endedOk code { s with h := h, flags := { s.flags with hv := true } } := by
  rw [decodeState] at hw ⊢
  split_ifs at hw ⊢ with hm hlen
  · cases hw
  · cases hw
  · exact ⟨_, regsFrom_lengths magic (hdrBytes s) s.h hlen, rfl⟩

/-- The turn of a receive comes to what the three commands come to. -/
theorem seqTurn_accept_receive_sequence {code dcode : Byte} (hc : isReceive code = true) (hm : magicOf code = magicOf dcode)
    {s : State} (hy : s.drv.yields = []) (hq : s.txq = []) :
    seqTurn (accept code .hdrRx s) = asCommand code (receiveSequence dcode s) := by
  rw [receiveSequence]
  rcases ldhdrState_cases s with ⟨hlen, hload⟩ | ⟨hlen, hw⟩
  · rw [seqTurn_accept_hdrRx_full hc dcode hy hlen, hload, if_pos (endedWell_endedOk _ _)]
    set l := endedOk Code.ldhdr (consumed Config.headerLen (headerLoaded true false s))
    have hdecode := (microStep_decode (s := asCommand code (accept dcode .decode l)) rfl).trans
      (congrArg some (decodeStep_asCommand hc hm l))
    rw [Phase.receives.seqTurn_of_step (s := asCommand code (accept dcode .decode l)) (.inr (.inr (.inl rfl))) hy rfl hdecode]
    split_ifs with hw
    · obtain ⟨h, hsum, e⟩ := decodeState_of_endedWell hw
      rw [e]
      refine (seqTurn_check_asCommand code rfl (by rfl) (by exact hy)).trans (congrArg (asCommand code) ?_)
      exact seqTurn_accept_rdframe (by exact hy) (by exact hq) (by exact hsum)
    · exact seqTurn_of_idle (decodeState_busy dcode _ l)
  · rw [if_neg (by rw [hw]; nofun)]
    exact seqTurn_accept_hdrRx_short code hy hq hlen

/-- The three commands, one after the other, as functions of the state. -/
theorem thenIfOk_commands {dec : Word → Instr} {dcode : Byte} (hd : isReceive dcode = false)
    (hexec : ∀ b t, exec (dec b) t = .next (issue dcode b false t.flags.hl .decode t)) (a b c : Word) {s : State}
    (hb : s.flags.busy = false) (hdead : s.flags.dead = false) (hy : s.drv.yields = []) (hq : s.txq = []) :
    thenIfOk (thenIfOk (exec (.ldhdr a) s) (exec (dec b))) (exec (.rdframe c)) = .next (receiveSequence dcode s) := by
  rw [receiveSequence, ldhdrLoadsHeader s a hb hdead hy hq]
  rcases ldhdrState_cases s with ⟨hlen, hload⟩ | ⟨hlen, hw⟩
  · rw [hload]
    set l := endedOk Code.ldhdr (consumed Config.headerLen (headerLoaded true false s))
    have hdecode : thenIfOk (.next l) (exec (dec b)) = .next (decodeState dcode (magicOf dcode) l) :=
      (hexec b l).trans (congrArg _ (issue_decode hd b rfl rfl hy))
    rw [hdecode, if_pos (endedWell_endedOk _ _), thenIfOk]
    split_ifs with hw
    · obtain ⟨h, hsum, e⟩ := decodeState_of_endedWell hw
      rw [e]
      exact rdframeReadsFrame _ c rfl hdead rfl hy hq hsum
    · rfl
  · simp only [thenIfOk, hw, Bool.false_eq_true, if_false]

/-- Settles O30: both sides come to the three commands as functions of the state, under the code of the receive. -/
theorem receiveIsLoadDecodeFrame : Obligations.ReceiveIsLoadDecodeFrame := by
  intro s a b c d hb hdead hy hq
  rw [thenIfOk_commands (dec := .decreq) (dcode := Code.decreq) rfl (fun _ _ => rfl) a b c hb hdead hy hq,
    thenIfOk_commands (dec := .decrsp) (dcode := Code.decrsp) rfl (fun _ _ => rfl) a b c hb hdead hy hq]
  have hreceive {code dcode : Byte} (hc : isReceive code = true) (hm : magicOf code = magicOf dcode) :
      issue code d true true .hdrRx s = asCommand code (receiveSequence dcode s) :=
    (issue_accepted hb fun _ => hdead).trans (seqTurn_accept_receive_sequence hc hm hy hq)
  exact ⟨congrArg _ (hreceive (code := Code.rxreq) (dcode := Code.decreq) rfl rfl),
    congrArg _ (hreceive (code := Code.rxrsp) (dcode := Code.decrsp) rfl rfl)⟩

/-! ## A receive as one function of the state (R145), and what steers it (R102, R104; O34) -/

theorem regsFrom_totLen (magic : Byte) (bs : List Byte) (h : HeaderRegs) :
    (regsFrom magic bs h).totLen = BitVec.ofNat 32 (fieldAt bs 8 4) := by
  rw [regsFrom]
  split_ifs <;> rfl

theorem regsFrom_keyLen (magic : Byte) (bs : List Byte) (h : HeaderRegs) :
    (regsFrom magic bs h).keyLen = BitVec.ofNat 16 (fieldAt bs 2 2) := by
  rw [regsFrom]
  split_ifs <;> rfl

theorem regsFrom_extLen (magic : Byte) (bs : List Byte) (h : HeaderRegs) :
    (regsFrom magic bs h).extLen = byteOf bs 4 := by
  rw [regsFrom]
  split_ifs <;> rfl

theorem regsFrom_valLen (magic : Byte) (bs : List Byte) (h : HeaderRegs) :
    (regsFrom magic bs h).valLen = BitVec.ofNat 32 (fieldAt bs 8 4 - fieldAt bs 2 2 - (byteOf bs 4).toNat) := by
  rw [← reqHeaderOf_totLen, ← reqHeaderOf_keyLen, regsFrom]
  split_ifs <;> rfl

/-- A frame does not break off in its header (R145). -/
theorem frameBreak_ne_hdrRx (x k n : Nat) : (frameBreak x k n).1 ≠ .hdrRx := by
  rw [frameBreak]
  split_ifs <;> nofun

/-- The state of a stream whose header has been taken and decoded (R145). -/
def headerDecoded (magic : Byte) (s : State) : State :=
  { headerLoaded true false s with h := regsFrom magic s.env.rx s.h }

/-! The rows of `Rx` whose pattern the phase of a break decides. -/

theorem rxState_of_transport {code magic : Byte} {s : State} {c : Cause} {p : Phase} {k : Nat} (hp : p ≠ .hdrRx)
    (h : rxOutcome magic s.maxbody.toNat s.env.rx s.env.rxEnded = .transport c p k) :
    rxState code magic s = endedError c p code (BitVec.ofNat 32 k)
      (consumed s.env.rx.length (frameRead false Config.headerLen (headerDecoded magic s))) := by
  simp only [rxState, h]
  cases p with
  | hdrRx => exact absurd rfl hp
  | _ => rfl

theorem rxState_of_waiting {code magic : Byte} {s : State} {p : Phase} {k : Nat} (hp : p ≠ .hdrRx)
    (h : rxOutcome magic s.maxbody.toNat s.env.rx s.env.rxEnded = .waiting p k) :
    rxState code magic s = inFlight p k code
      (consumed s.env.rx.length (frameRead false Config.headerLen (headerDecoded magic s))) := by
  simp only [rxState, h]
  cases p with
  | hdrRx => exact absurd rfl hp
  | _ => rfl

/-- A stream without a whole header: the rows of `HDR_RX`. -/
theorem rxState_short (code : Byte) (magic : Byte) {s : State} (hlen : ¬ Config.headerLen ≤ s.env.rx.length) :
    asCommand code (ldhdrState s) = rxState code magic s := by
  have hout : rxOutcome magic s.maxbody.toNat s.env.rx s.env.rxEnded = _ := if_pos (Nat.lt_of_not_le hlen)
  simp only [rxState, hout, ldhdrState, if_neg hlen]
  split_ifs <;> rfl

/-- Bytes taken before a frame are taken with it. -/
theorem consumed_frameRead (fok : Bool) (m n : Nat) (s : State) :
    consumed n (frameRead fok 0 (consumed m s)) = consumed (m + n) (frameRead fok m s) := by
  simp only [consumed, frameRead, List.drop_drop, Nat.add_zero]

/-- A frame with its header decoded: the rows of `CHECK` and of the sections. -/
theorem rxState_frame (code dcode : Byte) {magic : Byte} {s : State} (hlen : Config.headerLen ≤ s.env.rx.length)
    (hm : byteOf s.env.rx 0 = magic) (hl : ¬ fieldAt s.env.rx 8 4 < fieldAt s.env.rx 2 2 + (byteOf s.env.rx 4).toNat) :
    asCommand code (rdframeState (endedOk dcode { consumed Config.headerLen (headerDecoded magic s) with
      flags := { s.flags with hl := true, hv := true } })) = rxState code magic s := by
  set d := endedOk dcode { consumed Config.headerLen (headerDecoded magic s) with flags := { s.flags with hl := true, hv := true } }
  have hregs : d.h = regsFrom magic s.env.rx s.h := rfl
  have htot : d.h.totLen.toNat = fieldAt s.env.rx 8 4 := by rw [hregs, regsFrom_totLen]; exact toNat_ofNat_fieldAt _ 8 4
  have hkey : d.h.keyLen.toNat = fieldAt s.env.rx 2 2 := by rw [hregs, regsFrom_keyLen]; exact toNat_ofNat_fieldAt _ 2 2
  have hext : d.h.extLen.toNat = (byteOf s.env.rx 4).toNat := by rw [hregs, regsFrom_extLen]
  have hrx : d.env.rx = s.env.rx.drop Config.headerLen := rfl
  have hsplit : Config.headerLen + d.env.rx.length = s.env.rx.length := by rw [hrx, List.length_drop]; omega
  have hout : rxOutcome magic s.maxbody.toNat s.env.rx s.env.rxEnded =
      if s.maxbody.toNat < d.h.totLen.toNat then .oversized
      else frameOutcome d.h.extLen.toNat d.h.keyLen.toNat d.h.totLen.toNat d.env.rx d.env.rxEnded := by
    rw [rxOutcome, if_neg (Nat.not_lt.mpr hlen), if_neg (not_not.mpr hm), if_neg hl, htot, hkey, hext]
    rfl
  have hread (fok : Bool) (n : Nat) := consumed_frameRead fok Config.headerLen n (headerDecoded magic s)
  rw [rdframeState]
  by_cases hmax : s.maxbody.toNat < d.h.totLen.toNat
  · rw [if_pos hmax] at hout
    rw [if_pos (by exact hmax)]
    simp only [rxState, hout]
    rw [hregs, regsFrom_totLen]
    rfl
  · rw [if_neg hmax, frameOutcome] at hout
    rw [if_neg (by exact hmax), frameOutcome]
    set br := frameBreak d.h.extLen.toNat d.h.keyLen.toNat d.env.rx.length
    split_ifs at hout ⊢ with hle hend
    · simp only [rxState, hout]
      refine (congrArg (endedOk code) (hread true d.h.totLen.toNat)).trans ?_
      rw [htot]
      rfl
    · rw [rxState_of_transport (frameBreak_ne_hdrRx _ _ _) hout, ← hsplit, ← hread]
      rfl
    · rw [rxState_of_waiting (frameBreak_ne_hdrRx _ _ _) hout, ← hsplit, ← hread]
      rfl

/-- The three commands in a row, under the code of the receive, are `Rx` (R143, R145). -/
theorem asCommand_receiveSequence (code dcode : Byte) (s : State) :
    asCommand code (receiveSequence dcode s) = rxState code (magicOf dcode) s := by
  rw [receiveSequence]
  rcases ldhdrState_cases s with ⟨hlen, hload⟩ | ⟨hlen, hw⟩
  · rw [hload, if_pos (endedWell_endedOk _ _)]
    set l := endedOk Code.ldhdr (consumed Config.headerLen (headerLoaded true false s))
    have hbytes : hdrBytes l = s.env.rx.take 24 := hdrBytes_of l _ rfl (List.length_take_of_le hlen)
    have hmagic : byteOf (hdrBytes l) 0 = byteOf s.env.rx 0 := by rw [hbytes, byteOf_take _ (by decide)]
    have hext : byteOf (hdrBytes l) 4 = byteOf s.env.rx 4 := by rw [hbytes, byteOf_take _ (by decide)]
    have hkey : fieldAt (hdrBytes l) 2 2 = fieldAt s.env.rx 2 2 := by rw [hbytes, fieldAt_take _ (by decide)]
    have htot : fieldAt (hdrBytes l) 8 4 = fieldAt s.env.rx 8 4 := by rw [hbytes, fieldAt_take _ (by decide)]
    have hout : rxOutcome (magicOf dcode) s.maxbody.toNat s.env.rx s.env.rxEnded = _ := if_neg (Nat.not_lt.mpr hlen)
    by_cases hm : byteOf s.env.rx 0 = magicOf dcode
    · rw [if_neg (not_not.mpr hm)] at hout
      by_cases hl : fieldAt s.env.rx 8 4 < fieldAt s.env.rx 2 2 + (byteOf s.env.rx 4).toNat
      · rw [decodeState_malformed dcode (hmagic.trans hm) (by rwa [htot, hkey, hext]), if_neg nofun, htot]
        rw [if_pos hl] at hout
        simp only [rxState, hout]
        rfl
      · rw [decodeState_legal dcode (hmagic.trans hm) (by rw [htot, hkey, hext]; exact Nat.le_of_not_lt hl),
          if_pos (endedWell_endedOk _ _), hbytes, regsFrom_take]
        exact rxState_frame code dcode hlen hm hl
    · rw [decodeState_mismatch dcode (by rwa [hmagic]), if_neg nofun, hmagic]
      rw [if_pos hm] at hout
      simp only [rxState, hout]
      rfl
  · rw [if_neg (by rw [hw]; nofun)]
    exact rxState_short code _ (Nat.not_le_of_lt hlen)

/-- The uninterrupted receives are `Rx`, for every stream (R145). -/
theorem exec_receives {s : State} (a : Word) (hb : s.flags.busy = false) (hd : s.flags.dead = false)
    (hy : s.drv.yields = []) (hq : s.txq = []) :
    exec (.rxreq a) s = .next (rxState Code.rxreq Config.reqMagic s) ∧
    exec (.rxrsp a) s = .next (rxState Code.rxrsp Config.rspMagic s) := by
  have hreceive {code dcode : Byte} (hc : isReceive code = true) (hm : magicOf code = magicOf dcode) :
      issue code a true true .hdrRx s = rxState code (magicOf dcode) s :=
    (issue_accepted hb fun _ => hd).trans
      ((seqTurn_accept_receive_sequence hc hm hy hq).trans (asCommand_receiveSequence code dcode s))
  exact ⟨congrArg _ (hreceive (code := Code.rxreq) (dcode := Code.decreq) rfl rfl),
    congrArg _ (hreceive (code := Code.rxrsp) (dcode := Code.decrsp) rfl rfl)⟩

/-- What O34 compares of two states: everything that steers a receive or counts its bytes. -/
structure SameSteering (t u : State) : Prop where
  flags : u.flags = t.flags
  errs : u.errs = t.errs
  seq : u.seq = t.seq
  rx : u.env.rx.length = t.env.rx.length
  magic : u.h.magic = t.h.magic
  keyLen : u.h.keyLen = t.h.keyLen
  extLen : u.h.extLen = t.h.extLen
  totLen : u.h.totLen = t.h.totLen
  valLen : u.h.valLen = t.h.valLen
  bufExt : u.buf.extLen = t.buf.extLen
  bufKey : u.buf.keyLen = t.buf.keyLen
  bufVal : u.buf.valLen = t.buf.valLen

namespace SameSteering
variable {t u : State}

theorem endedOk (h : SameSteering t u) (code : Byte) : SameSteering (Machine.endedOk code t) (Machine.endedOk code u) :=
  { h with
    flags := by simp only [Machine.endedOk, h.flags]
    errs := by simp only [Machine.endedOk, h.errs]
    seq := rfl }

theorem endedError (h : SameSteering t u) (c : Cause) (p : Phase) (code : Byte) (info : Word) :
    SameSteering (Machine.endedError c p code info t) (Machine.endedError c p code info u) :=
  { h with
    flags := by simp only [Machine.endedError, h.flags]
    errs := by simp only [Machine.endedError, h.errs]
    seq := rfl }

theorem inFlight (h : SameSteering t u) (p : Phase) (n : Nat) (code : Byte) :
    SameSteering (Machine.inFlight p n code t) (Machine.inFlight p n code u) :=
  { h with
    flags := by simp only [Machine.inFlight, h.flags]
    errs := by simp only [Machine.inFlight, h.errs]
    seq := rfl }

theorem consumed (h : SameSteering t u) (n : Nat) : SameSteering (Machine.consumed n t) (Machine.consumed n u) :=
  { h with rx := by simp only [Machine.consumed, List.length_drop, h.rx] }

theorem headerLoaded (h : SameSteering t u) (hl hv : Bool) :
    SameSteering (Machine.headerLoaded hl hv t) (Machine.headerLoaded hl hv u) :=
  { h with flags := by simp only [Machine.headerLoaded, h.flags] }

theorem mapFlags (h : SameSteering t u) (f : Flags → Flags) :
    SameSteering (t.setFlags (f t.flags)) (u.setFlags (f u.flags)) :=
  { h with flags := congrArg f h.flags }

/-- The buffers get the lengths of the header, whatever the frame holds (R34). -/
theorem frameRead (h : SameSteering t u) (fok : Bool) (skip : Nat) :
    SameSteering (Machine.frameRead fok skip t) (Machine.frameRead fok skip u) :=
  { h with
    flags := by simp only [Machine.frameRead, h.flags]
    bufExt := h.extLen
    bufKey := h.keyLen
    bufVal := h.valLen }

/-- The comparison as O34 writes it out. -/
theorem fields (h : SameSteering t u) :
    u.flags = t.flags ∧ u.errs = t.errs ∧ u.seq = t.seq ∧ u.env.rx.length = t.env.rx.length ∧ u.h.magic = t.h.magic ∧
    u.h.keyLen = t.h.keyLen ∧ u.h.extLen = t.h.extLen ∧ u.h.totLen = t.h.totLen ∧ u.h.valLen = t.h.valLen ∧
    u.buf.extLen = t.buf.extLen ∧ u.buf.keyLen = t.buf.keyLen ∧ u.buf.valLen = t.buf.valLen :=
  ⟨h.flags, h.errs, h.seq, h.rx, h.magic, h.keyLen, h.extLen, h.totLen, h.valLen, h.bufExt, h.bufKey, h.bufVal⟩

end SameSteering

/-- Two streams of one length whose headers agree in the magic and the lengths (R104). -/
structure SameHeads (r bs : List Byte) : Prop where
  length : r.length = bs.length
  magic : byteOf r 0 = byteOf bs 0
  keyLen : fieldAt r 2 2 = fieldAt bs 2 2
  extLen : byteOf r 4 = byteOf bs 4
  totLen : fieldAt r 8 4 = fieldAt bs 8 4

theorem fieldAt_congr {r bs : List Byte} (hlen : r.length = bs.length) {off n : Nat}
    (h : ∀ i, off ≤ i → i < off + n → byteOf r i = byteOf bs i) : fieldAt r off n = fieldAt bs off n := by
  have hbytes : (r.drop off).take n = (bs.drop off).take n := by
    apply List.ext_getElem (by simp [hlen])
    intro i hi hi'
    simp only [List.length_take, List.length_drop] at hi hi'
    have hb := h (off + i) (by omega) (by omega)
    rw [byteOf, byteOf, List.getD_eq_getElem _ _ (by omega), List.getD_eq_getElem _ _ (by omega)] at hb
    simpa using hb
  rw [fieldAt, fieldAt, hbytes]

theorem SameHeads.of_bytes {r bs : List Byte} (hlen : r.length = bs.length)
    (h : ∀ i ∈ [0, 2, 3, 4, 8, 9, 10, 11], byteOf r i = byteOf bs i) : SameHeads r bs where
  length := hlen
  magic := h 0 (by decide)
  extLen := h 4 (by decide)
  keyLen := fieldAt_congr hlen fun i _ _ => h i (by simp only [List.mem_cons, List.not_mem_nil, or_false]; omega)
  totLen := fieldAt_congr hlen fun i _ _ => h i (by simp only [List.mem_cons, List.not_mem_nil, or_false]; omega)

theorem SameHeads.rxOutcome {r bs : List Byte} (h : SameHeads r bs) (magic : Byte) (maxbody : Nat) (ended : Bool) :
    Machine.rxOutcome magic maxbody r ended = Machine.rxOutcome magic maxbody bs ended := by
  simp only [Machine.rxOutcome, frameOutcome, List.length_drop, h.length, h.magic, h.keyLen, h.extLen, h.totLen]

/-- The decoded registers that O34 compares. -/
theorem SameHeads.decoded {r : List Byte} {s : State} (h : SameHeads r s.env.rx) {magic : Byte}
    (hm : magic = Config.reqMagic ∨ magic = Config.rspMagic) :
    SameSteering (headerDecoded magic s) (headerDecoded magic (s.setEnv { s.env with rx := r })) where
  flags := rfl
  errs := rfl
  seq := rfl
  rx := h.length
  magic := (regsFrom_magic magic hm r s.h).trans (regsFrom_magic magic hm s.env.rx s.h).symm
  keyLen := by simp only [headerDecoded, State.setEnv_env, State.setEnv_h, regsFrom_keyLen, h.keyLen]
  extLen := by simp only [headerDecoded, State.setEnv_env, State.setEnv_h, regsFrom_extLen, h.extLen]
  totLen := by simp only [headerDecoded, State.setEnv_env, State.setEnv_h, regsFrom_totLen, h.totLen]
  valLen := by simp only [headerDecoded, State.setEnv_env, State.setEnv_h, regsFrom_valLen, h.totLen, h.keyLen, h.extLen]
  bufExt := rfl
  bufKey := rfl
  bufVal := rfl

/-- The outcome of a receive depends on what the heads share, and every row of `Rx` keeps the rest alike. -/
theorem SameHeads.rxState {r : List Byte} {s : State} (h : SameHeads r s.env.rx) (code : Byte) {magic : Byte}
    (hm : magic = Config.reqMagic ∨ magic = Config.rspMagic) :
    SameSteering (rxState code magic s) (rxState code magic (s.setEnv { s.env with rx := r })) := by
  have hbefore : SameSteering s (s.setEnv { s.env with rx := r }) :=
    ⟨rfl, rfl, rfl, h.length, rfl, rfl, rfl, rfl, rfl, rfl, rfl, rfl⟩
  have hloaded (hl : Bool) := hbefore.headerLoaded hl false
  have hdecoded := h.decoded hm
  have hout' := h.rxOutcome magic s.maxbody.toNat s.env.rxEnded
  cases hout : Machine.rxOutcome magic s.maxbody.toNat s.env.rx s.env.rxEnded with
  | transport c p k =>
    rw [hout] at hout'
    by_cases hp : p = .hdrRx
    · subst hp
      simp only [Machine.rxState, hout, State.setEnv_env, State.setEnv_maxbody, hout']
      exact ((hloaded false).consumed _).endedError _ _ _ _
    · rw [rxState_of_transport hp hout, rxState_of_transport (s := s.setEnv _) hp hout', State.setEnv_env, h.length]
      exact ((hdecoded.frameRead _ _).consumed _).endedError _ _ _ _
  | waiting p k =>
    rw [hout] at hout'
    by_cases hp : p = .hdrRx
    · subst hp
      simp only [Machine.rxState, hout, State.setEnv_env, State.setEnv_maxbody, hout']
      exact ((hloaded false).consumed _).inFlight _ _ _
    · rw [rxState_of_waiting hp hout, rxState_of_waiting (s := s.setEnv _) hp hout', State.setEnv_env, h.length]
      exact ((hdecoded.frameRead _ _).consumed _).inFlight _ _ _
  | magicMismatch =>
    simp only [Machine.rxState, State.setEnv_env, State.setEnv_maxbody, hout', hout, h.magic]
    exact ((hloaded true).consumed _).endedError _ _ _ _
  | malformed =>
    simp only [Machine.rxState, State.setEnv_env, State.setEnv_maxbody, hout', hout, h.totLen]
    exact ((hloaded true).consumed _).endedError _ _ _ _
  | oversized =>
    simp only [Machine.rxState, State.setEnv_env, State.setEnv_maxbody, hout', hout, h.totLen]
    exact ((hdecoded.mapFlags fun f => { f with fok := false }).consumed _).endedError _ _ _ _
  | ok =>
    simp only [Machine.rxState, State.setEnv_env, State.setEnv_maxbody, hout', hout, h.totLen]
    exact ((hdecoded.frameRead _ _).consumed _).endedOk _

/-- Settles O34: the receives are `Rx`, which reads nothing else of the stream for what is compared. -/
theorem passThroughFieldsDoNotSteerReceive : Obligations.PassThroughFieldsDoNotSteerReceive := by
  intro s r a hb hd hy hq hlen hbytes i hi
  have heads := SameHeads.of_bytes hlen hbytes
  obtain ⟨hreq, hrsp⟩ := exec_receives a hb hd hy hq
  obtain ⟨hreq', hrsp'⟩ := exec_receives (s := s.setEnv { s.env with rx := r }) a hb hd hy hq
  simp only [List.mem_cons, List.not_mem_nil, or_false] at hi
  rcases hi with rfl | rfl
  · exact ⟨_, _, hreq, hreq', (heads.rxState Code.rxreq (.inl rfl)).fields⟩
  · exact ⟨_, _, hrsp, hrsp', (heads.rxState Code.rxrsp (.inr rfl)).fields⟩

/-! ## The lengths after a receive (R110; O31) -/

/-- The buffers have the lengths of the header registers, which add up to its total (R34, R110). -/
def LengthsReceived (s : State) : Prop :=
  s.buf.extLen = s.h.extLen ∧ s.buf.keyLen = s.h.keyLen ∧ s.buf.valLen = s.h.valLen ∧
    Buffers.total s.buf = s.h.totLen.toNat

/-- The registers add up (R27, R30), and so do buffers with their lengths. -/
theorem Inv.lengthsReceived_of_eq {s : State} (hs : Inv s) (hext : s.buf.extLen = s.h.extLen)
    (hkey : s.buf.keyLen = s.h.keyLen) (hval : s.buf.valLen = s.h.valLen) : LengthsReceived s :=
  ⟨hext, hkey, hval, by rw [Buffers.total, hext, hkey, hval, hs.lengths]⟩

/-- The phases of the commands that read a frame (R41). -/
theorem phases_of_passes_check {code : Byte} {p : Phase} (hc : passesThrough code .check = true)
    (hp : passesThrough code p = true) :
    p = .idle ∨ p = .check ∨ (∃ b, b ≠ .hdr ∧ p = rxPhase b) ∨ (isReceive code = true ∧ (p = rxPhase .hdr ∨ p = .decode)) := by
  have hcodes : code = Code.rdframe ∨ code = Code.rxreq ∨ code = Code.rxrsp := by
    simpa only [passesThrough, decide_eq_true_eq] using hc
  cases p with
  | idle => exact .inl rfl
  | check => exact .inr (.inl rfl)
  | extRx => exact .inr (.inr (.inl ⟨.ext, by decide, rfl⟩))
  | keyRx => exact .inr (.inr (.inl ⟨.key, by decide, rfl⟩))
  | valRx => exact .inr (.inr (.inl ⟨.val, by decide, rfl⟩))
  | hdrRx =>
    rcases hcodes with rfl | hrec
    · cases hp
    · exact .inr (.inr (.inr ⟨decide_eq_true hrec, .inl rfl⟩))
  | decode =>
    rcases hcodes with rfl | hrec
    · cases hp
    · exact .inr (.inr (.inr ⟨decide_eq_true hrec, .inr rfl⟩))
  | encode | hdrTx | extTx | keyTx | valTx | flush => rcases hcodes with rfl | rfl | rfl <;> cases hp

theorem shortCause_ne_none (b : BufName) (n : Word) : shortCause b n ≠ .none := by
  intro h
  cases (h ▸ shortCause_isTransport b n : Cause.isTransport .none = true)

/-- The header of a receive is no end of the command (R42). -/
theorem received_header_busy {s : State} (hrec : isReceive s.cmdreg = true) (x : Byte) :
    (received .hdr x s).flags.busy = s.flags.busy := by
  by_cases hn : s.seq.cnt.toNat + 1 = Buffers.len .hdr s.buf
  · rw [received_last hn]
    simp only [endRecv, State.setSeq_cmdreg, State.setBuf_cmdreg, hrec, if_true]
    rfl
  · rw [received_part hn]
    rfl

/-- In the phases of the header a receive goes on, or records an error (R42). -/
theorem microStep_header_of_isReceive {s t : State} (hrec : isReceive s.cmdreg = true)
    (hp : s.seq.phase = rxPhase .hdr ∨ s.seq.phase = .decode) (hm : microStep s = some t) :
    t.flags.busy = s.flags.busy ∨ t.errs.err.cause ≠ .none := by
  rcases hp with hp | hp
  · rw [microStep_rxPhase _ hp] at hm
    rcases recvStep_cases hm with ⟨x, rest, -, rfl⟩ | rfl
    · exact .inl (received_header_busy (s := s.setEnv { s.env with rx := rest }) hrec x)
    · exact .inr (by rw [raise_cause]; exact shortCause_ne_none _ _)
  · obtain rfl := Option.some.inj ((microStep_decode hp).symm.trans hm)
    rw [decodeStep_eq]
    split_ifs
    · exact .inr (by rw [raise_cause]; nofun)
    · exact .inr (by rw [raise_cause]; nofun)
    · exact .inl rfl

theorem isFrameRx_rxPhase {b : BufName} (hb : b ≠ .hdr) : isFrameRx (rxPhase b) = true := by
  cases b
  · exact absurd rfl hb
  all_goals rfl

/-- The micro-step that ends a frame ok leaves the buffers with the lengths that `CHECK` gave them. -/
theorem Inv.lengthsReceived {s t : State} (hs : Inv s) (hc : passesThrough s.cmdreg .check = true)
    (hm : microStep s = some t) (hw : endedWell t = true) : LengthsReceived t := by
  have ht := hs.microStep_inv hm
  obtain ⟨hidle, hnone⟩ : t.flags.busy = false ∧ t.errs.err.cause = .none := by simpa [endedWell] using hw
  rcases phases_of_passes_check hc hs.command with hp | hp | ⟨b, hb, hp⟩ | ⟨hrec, hp⟩
  · cases (microStep_idle hp).symm.trans hm
  · obtain rfl := Option.some.inj ((microStep_check hp).symm.trans hm)
    rw [checkStep] at hnone ht ⊢
    split_ifs at hnone ht ⊢
    · cases (raise_cause _ _ s).symm.trans hnone
    · obtain ⟨f, q, e, -⟩ := nextRecv_flow (l := [.ext, .key, .val]) (by decide) (allocate s)
      rw [e] at ht ⊢
      exact ht.lengthsReceived_of_eq rfl rfl rfl
  · rw [microStep_rxPhase b hp] at hm
    rcases recvStep_cases hm with ⟨x, rest, -, rfl⟩ | rfl
    · obtain ⟨f, q, e, -⟩ := received_flow (s := s.setEnv { s.env with rx := rest }) hp x
      obtain ⟨hext, hkey, hval⟩ := hs.allocated (hp ▸ isFrameRx_rxPhase hb)
      rw [e] at ht ⊢
      exact ht.lengthsReceived_of_eq ((store_extLen b _ x s.buf).trans hext) ((store_keyLen b _ x s.buf).trans hkey)
        ((store_valLen b _ x s.buf).trans hval)
    · exact absurd ((raise_cause _ _ s).symm.trans hnone) (shortCause_ne_none _ _)
  · have hbusy : s.flags.busy = true := hs.busy_of (by rcases hp with hp | hp <;> rw [hp] <;> nofun)
    rcases microStep_header_of_isReceive hrec hp hm with e | e
    · cases hidle.symm.trans (e.trans hbusy)
    · exact absurd hnone e

/-- A command that reads a frame, in flight or ended: if it has ended ok the lengths are those of the header. -/
structure Receiving (s : State) : Prop where
  inv : Inv s
  check : passesThrough s.cmdreg .check = true
  lengths : endedWell s = true → LengthsReceived s

theorem Receiving.microStep {s t : State} (h : Receiving s) (hm : Machine.microStep s = some t) : Receiving t where
  inv := h.inv.microStep_inv hm
  check := by rw [(microStep_result hm).cmdreg]; exact h.check
  lengths := h.inv.lengthsReceived h.check hm

theorem accept_busy (code : Byte) (p : Phase) (s : State) : (accept code p s).flags.busy = true := by cases p <;> rfl

/-- Whatever the pattern of yields, a command that reads a frame and ends ok leaves the lengths received. -/
theorem issue_lengthsReceived {code : Byte} (hc : passesThrough code .check = true) {arg : Word} {rd : Bool} {p : Phase}
    {s : State} (hs : Inv s) (row : CommandRow code true rd p s) (hb : s.flags.busy = false)
    (hw : endedWell (issue code arg true rd p s) = true) : LengthsReceived (issue code arg true rd p s) := by
  rcases issue_cases code arg true rd p s with ⟨hb', -⟩ | ⟨-, -, -, e⟩ | ⟨-, -, e⟩ | ⟨-, rfl, hd, e⟩
  · cases hb.symm.trans hb'
  · rw [e, linkDead_eq, endedWell_notStarted (c := .linkDead) (by decide)] at hw
    cases hw
  · rw [e, refuse_eq, endedWell_notStarted (c := .badSequence) (by decide)] at hw
    cases hw
  · have hready : p = .hdrRx ∨ (p = .decode ∧ s.flags.hl = true) ∨ (p = .check ∧ s.flags.hv = true) ∨ p = .encode := by
      simpa only [eq_comm] using row.first_ready
    have hstart : Receiving (accept code p s) :=
      { inv := hs.accept_inv hb (hready.imp_right (.imp_right (.imp_left (.imp_right hs.hv_hl)))) row.passes fun _ => hd rfl
        check := by rw [(InTurn.accept row.passes s).cmdreg]; exact hc
        lengths := fun h => by simp [endedWell, accept_busy] at h }
    have hend : Receiving (seqTurn (accept code p s)) :=
      runSeq_keeps (fun _ _ h => ⟨h.inv.setDrv _, h.check, h.lengths⟩) (fun _ _ h _ hm => h.microStep hm) _ hstart
    rw [e] at hw ⊢
    exact hend.lengths hw

/-- Settles O31: the lengths are set by `CHECK` and kept to the end, at each micro-step and so along the whole command. -/
theorem receivedLengthsAddUp : Obligations.ReceivedLengthsAddUp := by
  refine ⟨fun s t hs hm hcode hw => ?_, fun s t a i hs hb hi h hw => ?_⟩
  · refine hs.lengthsReceived ?_ hm hw
    simpa only [passesThrough, decide_eq_true_eq, List.mem_cons, List.not_mem_nil, or_false] using hcode
  · simp only [List.mem_cons, List.not_mem_nil, or_false] at hi
    rcases hi with rfl | rfl | rfl
    all_goals obtain rfl := Host.Outcome.next.inj h
    · exact issue_lengthsReceived rfl hs ⟨rfl, rfl, .inr (.inr (.inl ⟨rfl, rfl⟩)), fun _ => rfl⟩ hb hw
    · exact issue_lengthsReceived rfl hs ⟨rfl, rfl, .inl rfl, nofun⟩ hb hw
    · exact issue_lengthsReceived rfl hs ⟨rfl, rfl, .inl rfl, nofun⟩ hb hw

/-! ## Commands that do not look at `MAXBODY` (R111, R121, R131; O42)

Every shared operation but `CHECK` carries `MAXBODY` along. -/

theorem enter_setMaxbody (m : Word) (p : Phase) (s : State) : enter p (s.setMaxbody m) = (enter p s).setMaxbody m := by
  cases p <;> rfl

theorem discardStaged_setMaxbody (m : Word) (s : State) :
    discardStaged (s.setMaxbody m) = (discardStaged s).setMaxbody m := by
  obtain ⟨_, _, _, _, _, _, _, q, _, _⟩ := s
  cases q <;> rfl

theorem raise_setMaxbody (m : Word) (c : Cause) (info : Word) (s : State) :
    raise c info (s.setMaxbody m) = (raise c info s).setMaxbody m := by
  cases hc : c.isTransport with
  | true =>
    rw [raise_transport hc, raise_transport hc, discardStaged_setMaxbody]
    rfl
  | false =>
    rw [raise_of_not_isTransport hc, raise_of_not_isTransport hc]
    rfl

theorem nextRecv_setMaxbody (m : Word) (l : List BufName) (s : State) :
    nextRecv l (s.setMaxbody m) = (nextRecv l s).setMaxbody m := by
  induction l with
  | nil => rfl
  | cons b l ih => by_cases h0 : Buffers.len b s.buf = 0 <;> simp [nextRecv, h0, ih, enter_setMaxbody]

theorem nextSend_setMaxbody (m : Word) (l : List BufName) (s : State) :
    nextSend l (s.setMaxbody m) = (nextSend l s).setMaxbody m := by
  induction l with
  | nil => rfl
  | cons b l ih => by_cases h0 : Buffers.len b s.buf = 0 <;> simp [nextSend, h0, ih, enter_setMaxbody]

theorem endRecv_setMaxbody (m : Word) (b : BufName) (s : State) :
    endRecv b (s.setMaxbody m) = (endRecv b s).setMaxbody m := by
  by_cases hb : b = .hdr
  · subst hb
    by_cases hr : isReceive s.cmdreg = true
    · simp only [endRecv, State.setMaxbody_cmdreg, hr, if_true]
      exact enter_setMaxbody m _ (s.setFlags _)
    · simp only [endRecv, State.setMaxbody_cmdreg, hr]
      rfl
  · rw [endRecv_section hb, endRecv_section hb, nextRecv_setMaxbody]

theorem received_setMaxbody (m : Word) (b : BufName) (x : Byte) (s : State) :
    received b x (s.setMaxbody m) = (received b x s).setMaxbody m := by
  by_cases hn : s.seq.cnt.toNat + 1 = Buffers.len b s.buf
  · rw [received_last (s := s.setMaxbody m) hn, received_last hn]
    exact endRecv_setMaxbody m b ((s.setBuf _).setSeq _)
  · rw [received_part (s := s.setMaxbody m) hn, received_part hn]
    rfl

theorem pushed_setMaxbody (m : Word) (b : BufName) (s : State) :
    pushed b (s.setMaxbody m) = (pushed b s).setMaxbody m := by
  by_cases hn : s.seq.cnt.toNat + 1 = Buffers.len b s.buf
  · rw [pushed_last (s := s.setMaxbody m) hn, pushed_last hn]
    exact nextSend_setMaxbody m _ ((s.setTxq _).setSeq _)
  · rw [pushed_part (s := s.setMaxbody m) hn, pushed_part hn]
    rfl

theorem recvStep_setMaxbody (m : Word) (b : BufName) (s : State) :
    recvStep b (s.setMaxbody m) = (recvStep b s).map (State.setMaxbody m) := by
  cases hrx : s.env.rx with
  | cons x rest =>
    rw [recvStep_cons (s := s.setMaxbody m) hrx, recvStep_cons hrx]
    exact congrArg some (received_setMaxbody m b x (s.setEnv _))
  | nil =>
    cases he : s.env.rxEnded with
    | true =>
      simp only [recvStep, State.setMaxbody_env, hrx, he, if_true]
      exact congrArg some (raise_setMaxbody m _ _ s)
    | false =>
      simp only [recvStep, State.setMaxbody_env, hrx, he]
      rfl

theorem sendStep_setMaxbody (m : Word) (b : BufName) (s : State) :
    sendStep b (s.setMaxbody m) = (sendStep b s).map (State.setMaxbody m) := by
  simp only [sendStep, State.setMaxbody_env]
  split
  · exact congrArg some (pushed_setMaxbody m b (s.setEnv _))
  · exact congrArg some (raise_setMaxbody m _ _ s)
  · rfl

theorem flushStep_setMaxbody (m : Word) (s : State) : flushStep (s.setMaxbody m) = (flushStep s).map (State.setMaxbody m) := by
  simp only [flushStep, State.setMaxbody_env]
  split
  · rfl
  · exact congrArg some (raise_setMaxbody m _ _ s)
  · rfl

theorem decodeStep_setMaxbody (m : Word) (s : State) : decodeStep (s.setMaxbody m) = (decodeStep s).setMaxbody m := by
  have hbytes : hdrBytes (s.setMaxbody m) = hdrBytes s := rfl
  rw [decodeStep_eq, decodeStep_eq, hbytes, State.setMaxbody_cmdreg]
  split_ifs
  · exact raise_setMaxbody m _ _ s
  · exact raise_setMaxbody m _ _ s
  · exact enter_setMaxbody m _ ((s.setH _).setFlags _)
  · rfl

theorem encodeStep_setMaxbody (m : Word) (s : State) : encodeStep (s.setMaxbody m) = (encodeStep s).setMaxbody m := by
  by_cases ht : isTransmit s.cmdreg = true
  · simp only [encodeStep, State.setMaxbody_cmdreg, ht, if_true]
    exact enter_setMaxbody m _ ((s.setBuf _).setFlags _)
  · simp only [encodeStep, State.setMaxbody_cmdreg, ht]
    rfl

/-- Of the micro-steps only that of `CHECK` looks at `MAXBODY` (R140). -/
theorem microStep_setMaxbody (m : Word) {s : State} (hp : s.seq.phase ≠ .check) :
    microStep (s.setMaxbody m) = (microStep s).map (State.setMaxbody m) := by
  rcases Phase.kinds s.seq.phase with h | ⟨b, h⟩ | ⟨b, h⟩ | h | h | h | h
  · rw [microStep_idle h, microStep_idle (s := s.setMaxbody m) h]; rfl
  · rw [microStep_rxPhase b h, microStep_rxPhase b (s := s.setMaxbody m) h, recvStep_setMaxbody]
  · rw [microStep_txPhase b h, microStep_txPhase b (s := s.setMaxbody m) h, sendStep_setMaxbody]
  · rw [microStep_decode h, microStep_decode (s := s.setMaxbody m) h, decodeStep_setMaxbody]; rfl
  · exact absurd h hp
  · rw [microStep_encode h, microStep_encode (s := s.setMaxbody m) h, encodeStep_setMaxbody]; rfl
  · rw [microStep_flush h, microStep_flush (s := s.setMaxbody m) h, flushStep_setMaxbody]

/-- The turn of a command that passes through no `CHECK`, whatever the pattern of yields. -/
theorem runSeq_setMaxbody (m : Word) {code : Byte} (hc : passesThrough code .check = false) (n : Nat) {s : State}
    (hcmd : s.cmdreg = code) (hp : passesThrough code s.seq.phase = true) :
    runSeq n (s.setMaxbody m) = (runSeq n s).setMaxbody m := by
  induction n generalizing s with
  | zero => rfl
  | succ n ih =>
    have hne : s.seq.phase ≠ .check := fun h => by rw [h, hc] at hp; cases hp
    have hstep := microStep_setMaxbody m hne
    cases hb : s.flags.busy with
    | false => rw [runSeq_idle _ hb, runSeq_idle (s := s.setMaxbody m) _ hb]
    | true =>
      by_cases hys : s.drv.yields.head? = some true
      · obtain ⟨zs, hzs⟩ := List.head?_eq_some_iff.mp hys
        have hyield {u : State} (hu : u.drv.yields = true :: zs) (hbu : u.flags.busy = true) :
            runSeq (n + 1) u = u.setYields zs :=
          State.setYields_eq_self hu ▸ runSeq_of_yield n hbu zs
        rw [hyield hzs hb, hyield (u := s.setMaxbody m) hzs hb]
        rfl
      · cases hm : microStep s with
        | none =>
          rw [hm] at hstep
          exact (runSeq_setYields_of_wait n (s := s.setMaxbody m) hb hstep hys).trans
            (congrArg (State.setMaxbody m) (runSeq_setYields_of_wait n hb hm hys)).symm
        | some t =>
          rw [hm] at hstep
          have hr := microStep_result hm
          refine (runSeq_setYields_of_step n (s := s.setMaxbody m) hb hstep hys).trans
            (Eq.trans ?_ (congrArg (State.setMaxbody m) (runSeq_setYields_of_step n hb hm hys)).symm)
          exact ih (s := t.setYields s.drv.yields.tail) (hr.cmdreg.trans hcmd) (hcmd ▸ hr.passes (hcmd.symm ▸ hp))

/-- A command that passes through no `CHECK`. -/
theorem issue_setMaxbody (m : Word) {code : Byte} {p : Phase} (hc : passesThrough code .check = false)
    (hp : passesThrough code p = true) (arg : Word) (st rd : Bool) (s : State) :
    issue code arg st rd p (s.setMaxbody m) = (issue code arg st rd p s).setMaxbody m := by
  have haccept : accept code p (s.setMaxbody m) = (accept code p s).setMaxbody m :=
    enter_setMaxbody m p ((beginRecord code s).setFlags _)
  have hin := InTurn.accept hp s
  simp only [issue, State.setMaxbody_flags, haccept]
  split_ifs
  · rfl
  · rfl
  · rfl
  · exact runSeq_setMaxbody m hc _ hin.cmdreg hin.passes

/-- Settles O42: none of the seven commands passes through `CHECK`. -/
theorem maxbodyLimitsOnlyFrameReads : Obligations.MaxbodyLimitsOnlyFrameReads := by
  intro s m a i hi
  have hissue {code : Byte} {p : Phase} (hc : passesThrough code .check = false) (hp : passesThrough code p = true)
      (st rd : Bool) := issue_setMaxbody m hc hp a st rd s
  simp only [List.mem_cons, List.not_mem_nil, or_false] at hi
  rcases hi with rfl | rfl | rfl | rfl | rfl | rfl | rfl
  · exact congrArg _ (hissue (code := Code.ldhdr) (p := .hdrRx) rfl rfl _ _)
  · exact congrArg _ (hissue (code := Code.decreq) (p := .decode) rfl rfl _ _)
  · exact congrArg _ (hissue (code := Code.decrsp) (p := .decode) rfl rfl _ _)
  · exact congrArg _ (hissue (code := Code.encreq) (p := .encode) rfl rfl _ _)
  · exact congrArg _ (hissue (code := Code.encrsp) (p := .encode) rfl rfl _ _)
  · exact congrArg _ (hissue (code := Code.txreq) (p := .encode) rfl rfl _ _)
  · exact congrArg _ (hissue (code := Code.txrsp) (p := .encode) rfl rfl _ _)

end Sys2Proof.Machine
end

section
/-! Proof of the statement about where the receives end ok (41_decode.md): the rows `ok` of the functions that `LDHDR`, `RDFRAME`,
`RXREQ` and `RXRSP` are. -/

namespace Sys2Proof.Machine

/-! ## Where the receives end ok (R130, R140, R141, R145; O29) -/

/-- The row of `LDHDR` in which the header is there (R130). -/
theorem ldhdrState_ok {s : State} (hlen : Config.headerLen ≤ s.env.rx.length) :
    ldhdrState s = endedOk Code.ldhdr (consumed Config.headerLen (headerLoaded true false s)) :=
  if_pos hlen

/-- A frame whose bytes are all there is read whole (R141). -/
theorem frameOutcome_ok {total : Nat} {bs : List Byte} (hlen : total ≤ bs.length) (extLen keyLen : Nat) (ended : Bool) :
    frameOutcome extLen keyLen total bs ended = .ok :=
  if_pos hlen

/-- The row of `RDFRAME` in which the total is admitted and the frame is there (R140, R141). -/
theorem rdframeState_ok {s : State} (hmax : s.h.totLen.toNat ≤ s.maxbody.toNat) (hlen : s.h.totLen.toNat ≤ s.env.rx.length) :
    rdframeState s = endedOk Code.rdframe (consumed s.h.totLen.toNat (frameRead true 0 s)) := by
  have hcheck : ¬ s.maxbody < s.h.totLen := Nat.not_lt.mpr hmax
  simp only [rdframeState, if_neg hcheck, frameOutcome_ok hlen]

/-- The row `ok` of `Rx`: the four conditions of R145, each the negation of the row before it. -/
theorem rxOutcome_ok {magic : Byte} {maxbody : Nat} {bs : List Byte} (hmagic : byteOf bs 0 = magic)
    (hlegal : fieldAt bs 2 2 + (byteOf bs 4).toNat ≤ fieldAt bs 8 4) (hmax : fieldAt bs 8 4 ≤ maxbody)
    (hlen : Config.headerLen + fieldAt bs 8 4 ≤ bs.length) (ended : Bool) :
    rxOutcome magic maxbody bs ended = .ok := by
  have hheader : ¬ bs.length < Config.headerLen := by omega
  have hframe : fieldAt bs 8 4 ≤ (bs.drop Config.headerLen).length := by rw [List.length_drop]; omega
  rw [rxOutcome, if_neg hheader, if_neg (not_not.mpr hmagic), if_neg (Nat.not_lt.mpr hlegal), if_neg (Nat.not_lt.mpr hmax),
    frameOutcome_ok hframe]

/-- The state that the row `ok` of `Rx` leaves, in either direction. -/
theorem rxState_ok (code : Byte) {magic : Byte} {s : State} (hmagic : byteOf s.env.rx 0 = magic)
    (hlegal : fieldAt s.env.rx 2 2 + (byteOf s.env.rx 4).toNat ≤ fieldAt s.env.rx 8 4)
    (hmax : fieldAt s.env.rx 8 4 ≤ s.maxbody.toNat) (hlen : Config.headerLen + fieldAt s.env.rx 8 4 ≤ s.env.rx.length) :
    rxState code magic s = endedOk code (consumed (Config.headerLen + fieldAt s.env.rx 8 4)
      (frameRead true Config.headerLen (headerDecoded magic s))) := by
  simp only [rxState, rxOutcome_ok hmagic hlegal hmax hlen]
  rfl

/-- Settles O29: the four commands are functions of the state (O24, O27, R145), and the premises pick their rows `ok`. -/
theorem receivesComplete : Obligations.ReceivesComplete := by
  intro s a hb hd hy hq
  obtain ⟨hreq, hrsp⟩ := exec_receives a hb hd hy hq
  refine ⟨fun hlen => ?_, fun hv hsum hmax hlen => ?_, fun hlegal hmax hlen => ⟨fun hmagic => ?_, fun hmagic => ?_⟩⟩
  · exact (ldhdrLoadsHeader s a hb hd hy hq).trans (congrArg _ (ldhdrState_ok hlen))
  · exact (rdframeReadsFrame s a hb hd hv hy hq hsum).trans (congrArg _ (rdframeState_ok hmax hlen))
  · exact hreq.trans (congrArg _ (rxState_ok Code.rxreq hmagic hlegal hmax hlen))
  · exact hrsp.trans (congrArg _ (rxState_ok Code.rxrsp hmagic hlegal hmax hlen))

end Sys2Proof.Machine
end

section
/-! Proofs of the statements about the frame read and the packet receive (42_frame_read.md): the receives as the function `Rx`,
`RDFRAME` as one-shot, and a transmit received by another block (law L5). -/

namespace Sys2Proof.Machine

/-! ## A receive is `Rx` (R143 to R145; O28) -/

/-- Settles O28: a receive is its load, its decode and its frame read in a row, and these are the rows of `Rx`. -/
theorem receiveAgreesWithBigStep : Obligations.ReceiveAgreesWithBigStep :=
  fun _ a hb hd hy hq => exec_receives a hb hd hy hq

/-! ## `HV` outside of a decode (R36, R141; O32)

Only the micro-step of `DECODE` sets `HV`: every other one leaves it clear where it was clear. -/

theorem enter_hv_false (p : Phase) {s : State} (h : s.flags.hv = false) : (enter p s).flags.hv = false := by
  cases p with
  | hdrRx | decode | check => rfl
  | _ => exact h

theorem nextRecv_hv_false (l : List BufName) {s : State} (h : s.flags.hv = false) : (nextRecv l s).flags.hv = false := by
  rcases nextRecv_cases l s with e | ⟨b, -, e⟩ <;> rw [e]
  · exact h
  · exact enter_hv_false _ h

theorem endRecv_hv_false (b : BufName) {s : State} (h : s.flags.hv = false) : (endRecv b s).flags.hv = false := by
  by_cases hb : b = .hdr
  · subst hb
    simp only [endRecv]
    split
    · rfl
    · exact h
  · rw [endRecv_section hb]
    exact nextRecv_hv_false _ h

theorem received_hv_false (b : BufName) (x : Byte) {s : State} (h : s.flags.hv = false) :
    (received b x s).flags.hv = false := by
  by_cases hn : s.seq.cnt.toNat + 1 = Buffers.len b s.buf
  · rw [received_last hn]
    exact endRecv_hv_false b h
  · rw [received_part hn]
    exact h

theorem raise_hv (c : Cause) (info : Word) (s : State) : (raise c info s).flags.hv = s.flags.hv := by
  obtain ⟨-, -, -, hflags, -⟩ := raise_fields c info s
  rw [hflags]

/-- No micro-step but that of `DECODE` sets `HV` (R36). -/
theorem microStep_hv_false {s t : State} (hp : s.seq.phase ≠ .decode) (hm : microStep s = some t)
    (h : s.flags.hv = false) : t.flags.hv = false := by
  rcases microStep_cases hm with ⟨b, -, e⟩ | ⟨b, hb, e⟩ | ⟨hdec, -⟩ | ⟨-, rfl⟩ | ⟨-, rfl⟩ | ⟨-, e⟩
  · rcases recvStep_cases e with ⟨x, rest, -, rfl⟩ | rfl
    · exact received_hv_false b x (s := s.setEnv { s.env with rx := rest }) h
    · rwa [raise_hv]
  · rcases sendStep_cases e with ⟨k, -, rfl⟩ | rfl
    · obtain ⟨out, q, e', -⟩ := pushed_flow (s := s.setEnv { s.env with sink := k }) hb
      rw [e']
      exact h
    · rwa [raise_hv]
  · exact absurd hdec hp
  · rw [checkStep]
    split
    · rwa [raise_hv]
    · exact nextRecv_hv_false _ h
  · rw [encodeStep]
    dsimp only
    split
    · rfl
    · rfl
  · rcases flushStep_cases e with ⟨k, -, rfl⟩ | rfl
    · exact h
    · rwa [raise_hv]

/-- A command that does not pass through `DECODE` and clears `HV` at its start leaves it clear, interrupted or not. -/
theorem seqTurn_accept_hv_false {code : Byte} {p : Phase} (hpass : passesThrough code p = true)
    (hdec : passesThrough code .decode = false) {s : State} (h : (accept code p s).flags.hv = false) :
    (seqTurn (accept code p s)).flags.hv = false := by
  have hkeeps : InTurn code s (seqTurn (accept code p s)) ∧ (seqTurn (accept code p s)).flags.hv = false := by
    refine runSeq_keeps_driver (P := fun u => InTurn code s u ∧ u.flags.hv = false)
      (fun _ _ ⟨turn, hv⟩ => ⟨⟨turn.cmdreg, turn.passes, { turn.frame with }⟩, hv⟩) (fun u _ ⟨turn, hv⟩ hm => ?_) _
      ⟨.accept hpass s, h⟩
    have hne : u.seq.phase ≠ .decode := fun hp => by
      have hpassed := turn.passes
      rw [hp, hdec] at hpassed
      cases hpassed
    exact ⟨turn.microStep hm, microStep_hv_false hne hm hv⟩
  exact hkeeps.2

/-- `RDFRAME` without a decoded header on a live link (R46 step 4). -/
theorem exec_rdframe_refused {s : State} (arg : Word) (hb : s.flags.busy = false) (hd : s.flags.dead = false)
    (hv : s.flags.hv = false) : exec (.rdframe arg) s = .next (notStarted .badSequence Code.rdframe arg s) := by
  refine congrArg Host.Outcome.next ?_
  rw [hv, issue_refused hb fun _ => hd, refuse_eq]

/-- Settles O32: the start of `CHECK` clears `HV`, and no later micro-step of the command sets it. -/
theorem rdframeIsOneShot : Obligations.RdframeIsOneShot := by
  intro s t a b hb hd hv h
  have hrun : exec (.rdframe a) s = .next (seqTurn (accept Code.rdframe .check s)) := by
    refine congrArg Host.Outcome.next ?_
    rw [hv, issue_accepted hb fun _ => hd]
  obtain rfl := Host.Outcome.next.inj (hrun.symm.trans h)
  have hclear := seqTurn_accept_hv_false (code := Code.rdframe) (p := .check) rfl rfl (s := s) rfl
  exact ⟨hclear, fun hb' hd' => exec_rdframe_refused b hb' hd' hclear⟩

/-! ## A packet received (R145, R156; O50) -/

theorem bufferBytes_length (b : BufName) (s : State) : (bufferBytes b s).length = Buffers.len b s.buf :=
  Mem.bytes_length _ _ _ _

/-- A buffer that holds exactly these bytes is read as them. -/
theorem bufferBytes_of_ofBytes {b : BufName} {s : State} {bs : List Byte} (hmem : Buffers.mem b s.buf = Mem.ofBytes 0 bs)
    (hlen : Buffers.len b s.buf = bs.length) : bufferBytes b s = bs := by
  rw [bufferBytes, hmem, hlen, Mem.bytes_ofBytes]

/-- The first 24 bytes of a packet are its header (R72, R98). -/
theorem packet_append_take (magic : Byte) (s : State) (rest : List Byte) :
    (packet magic s ++ rest).take 24 = headerBytes magic s := by
  simp only [packet, List.append_assoc]
  exact List.take_left' (headerBytes_length magic s)

/-- After the header of a packet come its sections (R72, R98). -/
theorem packet_append_drop (magic : Byte) (s : State) (rest : List Byte) :
    (packet magic s ++ rest).drop 24 = bufferBytes .ext s ++ (bufferBytes .key s ++ (bufferBytes .val s ++ rest)) := by
  simp only [packet, List.append_assoc]
  exact List.drop_left' (headerBytes_length magic s)

/-- A frame cut at the lengths of its sections gives the sections (R141). -/
theorem frameBuffers_bytes {h : HeaderRegs} {ext key val rest : List Byte} {B : Buffers} {u : State}
    (hext : h.extLen.toNat = ext.length) (hkey : h.keyLen.toNat = key.length) (hval : h.valLen.toNat = val.length)
    (hu : u.buf = frameBuffers h (ext ++ (key ++ (val ++ rest))) B) :
    bufferBytes .ext u = ext ∧ bufferBytes .key u = key ∧ bufferBytes .val u = val := by
  refine ⟨bufferBytes_of_ofBytes ?_ (hu ▸ hext), bufferBytes_of_ofBytes ?_ (hu ▸ hkey), bufferBytes_of_ofBytes ?_ (hu ▸ hval)⟩
  · simp [hu, Buffers.mem, frameBuffers, hext]
  · simp [hu, Buffers.mem, frameBuffers, hext, hkey]
  · simp [hu, Buffers.mem, frameBuffers, hext, hkey, hval, ← List.drop_drop]

/-- The registers after the header of a packet has been decoded have the lengths of the buffers it was built from (R97, R99). -/
theorem regsFrom_headerBytes_lengths (magic : Byte) {s : State} (ht : Buffers.total s.buf < 2 ^ 32) (h : HeaderRegs) :
    (regsFrom magic (headerBytes magic s) h).extLen = s.buf.extLen ∧
    (regsFrom magic (headerBytes magic s) h).keyLen = s.buf.keyLen ∧
    (regsFrom magic (headerBytes magic s) h).valLen = s.buf.valLen := by
  have hsub : Buffers.total s.buf - s.buf.keyLen.toNat - s.buf.extLen.toNat = s.buf.valLen.toNat := by
    rw [Buffers.total]; omega
  rw [regsFrom_extLen, regsFrom_keyLen, regsFrom_valLen, extLen_headerBytes, keyLen_headerBytes, totLen_headerBytes magic ht,
    hsub]
  exact ⟨rfl, by simp, by simp⟩

/-- A stream that begins with a packet no longer than the maximum is received ok up to the packet's end: the registers are those
of its header and the buffers hold its sections (law L5). -/
theorem rxState_packet (code : Byte) {magic : Byte} (hm : magic = Config.reqMagic ∨ magic = Config.rspMagic) {s r : State}
    {rest : List Byte} (ht : Buffers.total s.buf < 2 ^ 32) (hmax : Buffers.total s.buf ≤ r.maxbody.toNat)
    (hrx : r.env.rx = packet magic s ++ rest) :
    endedWell (rxState code magic r) = true ∧ (rxState code magic r).env.rx = rest ∧
    (rxState code magic r).h = regsFrom magic (headerBytes magic s) r.h ∧
    bufferBytes .ext (rxState code magic r) = bufferBytes .ext s ∧
    bufferBytes .key (rxState code magic r) = bufferBytes .key s ∧
    bufferBytes .val (rxState code magic r) = bufferBytes .val s := by
  have hheader : r.env.rx.take 24 = headerBytes magic s := by rw [hrx, packet_append_take]
  have hmagic : byteOf r.env.rx 0 = magic := by
    rw [← byteOf_take (n := 24) _ (by decide), hheader, byteOf_headerBytes_magic hm]
  have hext : byteOf r.env.rx 4 = s.buf.extLen := by
    rw [← byteOf_take (n := 24) _ (by decide), hheader, extLen_headerBytes]
  have hkey : fieldAt r.env.rx 2 2 = s.buf.keyLen.toNat := by
    rw [← fieldAt_take (n := 24) _ (by decide), hheader, keyLen_headerBytes]
  have htot : fieldAt r.env.rx 8 4 = Buffers.total s.buf := by
    rw [← fieldAt_take (n := 24) _ (by decide), hheader, totLen_headerBytes magic ht]
  have hlegal : fieldAt r.env.rx 2 2 + (byteOf r.env.rx 4).toNat ≤ fieldAt r.env.rx 8 4 := by
    rw [hext, hkey, htot, Buffers.total]; omega
  have hlen : Config.headerLen + fieldAt r.env.rx 8 4 = (packet magic s).length := by rw [htot, packet_length]; rfl
  have hregs : (headerDecoded magic r).h = regsFrom magic (headerBytes magic s) r.h := by
    rw [← hheader, regsFrom_take]; rfl
  obtain ⟨hextLen, hkeyLen, hvalLen⟩ := regsFrom_headerBytes_lengths magic ht r.h
  rw [rxState_ok code hmagic hlegal (htot ▸ hmax) (by rw [hlen, hrx, List.length_append]; omega), hlen]
  refine ⟨rfl, ?_, hregs, frameBuffers_bytes (h := (headerDecoded magic r).h) (rest := rest) (B := (headerDecoded magic r).buf)
    ?_ ?_ ?_ ?_⟩
  · exact (congrArg (List.drop _) hrx).trans List.drop_left
  · rw [hregs, hextLen, bufferBytes_length]; rfl
  · rw [hregs, hkeyLen, bufferBytes_length]; rfl
  · rw [hregs, hvalLen, bufferBytes_length]; rfl
  · rw [← packet_append_drop magic, ← hrx]; rfl

/-- Settles O50: the sender puts the packet on the wire, and a stream that begins with it is received as the packet. -/
theorem transmitThenReceive : Obligations.TransmitThenReceive := by
  intro s r rest a b hs hb hd hy hk hb' hd' hy' hq' hmax
  have ht := total_lt hs.valLen_le
  obtain ⟨-, hq⟩ := hs.idle_of hb
  obtain ⟨htxreq, htxrsp⟩ := (transmitsComplete s a hb hd hy hq).1 hk
  obtain ⟨hrxreq, hrxrsp⟩ := exec_receives b hb' hd' hy' hq'
  refine ⟨fun hrx => ?_, fun hrx => ?_⟩
  · obtain ⟨hwell, hrest, hheader, hsections⟩ := rxState_packet Code.rxreq (.inl rfl) ht hmax hrx
    have hregs := hheader.trans (regsFrom_encodeReqHeader (requestHeader s) r.h)
    refine ⟨_, _, htxreq, rfl, hrxreq, hwell, hrest, ?_⟩
    rw [hregs]
    exact ⟨rfl, rfl, rfl, rfl, hsections⟩
  · obtain ⟨hwell, hrest, hheader, hsections⟩ := rxState_packet Code.rxrsp (.inr rfl) ht hmax hrx
    have hregs := hheader.trans (regsFrom_encodeRspHeader (responseHeader s) r.h)
    refine ⟨_, _, htxrsp, rfl, hrxrsp, hwell, hrest, ?_⟩
    rw [hregs]
    exact ⟨rfl, rfl, rfl, rfl, hsections⟩

end Sys2Proof.Machine
end

section
/-! Proof of the statement about encode and transmit (43_encode_transmit.md): the transmits as the function `Tx` of R156. -/

namespace Sys2Proof.Machine

/-- Settles O37: acceptance goes to `ENCODE`, the section phases stage the packet byte by byte as long as the sink answers, and
what the sink then does is the row of `Tx` (`seqTurn_accept_transmit`, through `runSeq_send` and `sendResult_eq`). -/
theorem transmitAgreesWithBigStep : Obligations.TransmitAgreesWithBigStep := fun _ a hb hd hy hq =>
  exec_transmits a hb hd hy hq

end Sys2Proof.Machine
end

section
/-! Proofs of the statements about host access (44_host_access.md): one rule per outcome of an access, by the number it names. -/

namespace Sys2Proof.Machine

/-! ## Register and buffer numbers (R50) -/

theorem readableWhileBusy_iff (n : Nat) : readableWhileBusy n = true ↔ n ∈ [0x00, 0x01, 0x02, 0x03, 0x12, 0x13] := by
  simp only [readableWhileBusy]
  split <;> simp_all

theorem readableWhileBusy_eq_false {n : Nat} (hn : n ∉ [0x00, 0x01, 0x02, 0x03, 0x12, 0x13]) :
    readableWhileBusy n = false :=
  Bool.eq_false_iff.mpr (mt (readableWhileBusy_iff n).mp hn)

theorem hostRegister_of_bufferNumber {n : Nat} (hn : n ∈ [0x20, 0x21, 0x22, 0x23]) (s : State) : hostRegister n s = none := by
  simp only [List.mem_cons, List.not_mem_nil, or_false] at hn
  rcases hn with rfl | rfl | rfl | rfl <;> rfl

theorem writtenRegs_eq_none {n : Nat} (hn : n ∉ [0x09, 0x0C, 0x0D, 0x0F, 0x10]) (v : Nat) (h : HeaderRegs) :
    writtenRegs n v h = none := by
  simp only [writtenRegs]
  split
  case h_6 => rfl
  all_goals exact absurd (by decide) hn

theorem bufferOf_eq_none {n : Nat} (hn : n ∉ [0x20, 0x21, 0x22, 0x23]) : bufferOf n = none := by
  simp only [bufferOf]
  split
  case h_5 => rfl
  all_goals exact absurd (by decide) hn

/-! ## What a host access answers (R160 to R164) -/

@[simp] theorem answered_answer (a : Answer) (s : State) : (answered a s).drv.answer = some a := rfl

theorem hostRead_of_busy {s : State} (hb : s.flags.busy = true) {n : Nat} (hr : readableWhileBusy n = false) :
    hostRead n s = answered .refused s := by
  simp [hostRead, hb, hr]

theorem hostRead_of_none {n : Nat} {s : State} (hn : hostRegister n s = none) : hostRead n s = answered .refused s := by
  simp only [hostRead, hn, ite_self]

theorem hostRead_of_some {n : Nat} {s : State} {r : Nat × Nat} (hn : hostRegister n s = some r)
    (hr : s.flags.busy = false ∨ readableWhileBusy n = true) : hostRead n s = answered (.reg r.1 r.2) s := by
  have hopen : ¬ (s.flags.busy && !readableWhileBusy n) = true := by rcases hr with h | h <;> simp [h]
  simp only [hostRead, if_neg hopen, hn]

theorem hostWrite_of_busy {s : State} (hb : s.flags.busy = true) (n v : Nat) : hostWrite n v s = answered .refused s :=
  if_pos hb

theorem hostWrite_of_none {n v : Nat} {s : State} (hn : writtenRegs n v s.h = none) :
    hostWrite n v s = answered .refused s := by
  simp only [hostWrite, hn, ite_self]

/-- A register of the five takes the value under the one condition of R162, that it is within the width. -/
theorem hostWrite_of_ite {n v : Nat} {s : State} {fitsWidth : Prop} [Decidable fitsWidth] {h : HeaderRegs}
    (hb : s.flags.busy = false) (hn : writtenRegs n v s.h = if fitsWidth then some h else none) :
    hostWrite n v s = if fitsWidth then answered .ok (s.setH h) else answered .refused s := by
  simp only [hostWrite, hb, hn]
  by_cases hv : fitsWidth <;> simp [hv]

theorem hostLoad_of_none {n : Nat} (hn : bufferOf n = none) (bs : List Byte) (s : State) :
    hostLoad n bs s = answered .refused s := by
  simp only [hostLoad, hn, ite_self]

/-- A buffer takes the sequence under the one condition of R163, on its length. -/
theorem hostLoad_of_some {n : Nat} {b : BufName} {bs : List Byte} {s : State} {fitsLength : Prop} [Decidable fitsLength]
    (hb : s.flags.busy = false) (hn : bufferOf n = some b) (hfits : fits b bs.length = decide fitsLength) :
    hostLoad n bs s =
      if fitsLength then answered .ok ((s.setBuf (Buffers.load b bs s.buf)).setFlags (loadFlags b s.flags))
      else answered .refused s := by
  simp only [hostLoad, hb, hn, hfits, decide_eq_true_eq]
  rfl

theorem hostDump_of_busy {s : State} (hb : s.flags.busy = true) (n : Nat) : hostDump n s = answered .refused s := if_pos hb

theorem hostDump_of_none {n : Nat} (hn : bufferOf n = none) (s : State) : hostDump n s = answered .refused s := by
  simp only [hostDump, hn, ite_self]

theorem hostDump_of_some {n : Nat} {b : BufName} {s : State} (hb : s.flags.busy = false) (hn : bufferOf n = some b)
    (hdefined : b = .hdr → s.flags.hl = true) :
    hostDump n s = answered (.bytes (bufferBytes b s)) (s.setDrv { s.drv with draws := s.drv.draws + 1 }) := by
  have hopen : ¬ (b == .hdr && !s.flags.hl) = true := by simpa using hdefined
  simp only [hostDump, hb, hn, if_neg hopen]
  rfl

theorem hostDump_of_hl_clear {n : Nat} {s : State} (hn : bufferOf n = some .hdr) (hl : s.flags.hl = false) :
    hostDump n s = answered .refused s := by
  simp [hostDump, hn, hl]

/-! ## Registers (R161, R162; O51, O52) -/

/-- Settles O51: the table is the graph of `hostRegister`, and `BUSY` leaves the numbers of R160 (c). -/
theorem hostReadsRegisters : Obligations.HostReadsRegisters := by
  intro s table
  have hsome : ∀ e ∈ table, hostRegister e.1 s = some e.2 := by simp [table, hostRegister]
  have hnone (n : Nat) (hn : ∀ e ∈ table, n ≠ e.1) : hostRegister n s = none := by
    simp only [table, List.forall_mem_cons] at hn
    simp only [hostRegister]
    split <;> simp_all
  exact ⟨fun e he hr => hostRead_of_some (hsome e he) (hr.imp_right (readableWhileBusy_iff e.1).mpr),
    fun n hb hn => hostRead_of_busy hb (readableWhileBusy_eq_false hn), fun n hn => hostRead_of_none (hnone n hn)⟩

/-- Settles O52: each of the five numbers by its row of `writtenRegs`, every other by having none. -/
theorem hostWritesFiveRegisters : Obligations.HostWritesFiveRegisters := fun s v hb =>
  ⟨hostWrite_of_ite hb rfl, hostWrite_of_ite hb rfl, hostWrite_of_ite hb rfl, hostWrite_of_ite hb rfl,
    hostWrite_of_ite hb rfl, fun _ hn => hostWrite_of_none (writtenRegs_eq_none hn v s.h)⟩

/-! ## Buffers (R163, R164; O53, O54, O56) -/

/-- Settles O53: each buffer by the length it takes (R32, R163), the contents by `Mem.read_ofBytes`. -/
theorem hostLoadsBuffers : Obligations.HostLoadsBuffers := by
  intro s bs hb
  have hval := hostLoad_of_some (n := 0x22) (b := .val) (s := s) hb rfl (fits_section (by decide) bs.length)
  refine ⟨hostLoad_of_some (b := .ext) hb rfl rfl, hostLoad_of_some (b := .key) hb rfl rfl, fun hle => hval.trans (if_pos hle),
    fun hlt => hval.trans (if_neg (Nat.not_le.mpr hlt)), hostLoad_of_some (b := .hdr) hb rfl rfl, fun i => ?_⟩
  simp [Mem.read_ofBytes]

theorem bufferBytes_getElem? {b : BufName} {s : State} {i : Nat} (hi : i < Buffers.len b s.buf) :
    (bufferBytes b s)[i]? = some ((Mem.read (Buffers.mem b s.buf) i).getD (Config.freeByte s.drv.draws i)) := by
  rw [bufferBytes, Mem.bytes_getElem?, if_pos hi, Nat.zero_add, Mem.byteAt]

/-- A dump in the form of O54: the bytes of the buffer, those that no rule has defined being free values. -/
theorem hostDump_bytes {n : Nat} {b : BufName} {s : State} (hb : s.flags.busy = false) (hn : bufferOf n = some b)
    (hdefined : b = .hdr → s.flags.hl = true) : ∃ bs : List Byte,
      hostDump n s = answered (.bytes bs) (s.setDrv { s.drv with draws := s.drv.draws + 1 }) ∧
      bs.length = Buffers.len b s.buf ∧
      ∀ i, i < bs.length → bs[i]? = some ((Mem.read (Buffers.mem b s.buf) i).getD (Config.freeByte s.drv.draws i)) := by
  have hlen := bufferBytes_length b s
  exact ⟨_, hostDump_of_some hb hn hdefined, hlen, fun i hi => bufferBytes_getElem? (hlen ▸ hi)⟩

/-- Settles O54: the three sections are always read, `HDRBUF` exactly when `HL` is set. -/
theorem hostDumpsBuffers : Obligations.HostDumpsBuffers := by
  intro s hb
  refine ⟨?_, fun hl => ?_, hostDump_of_hl_clear rfl⟩
  · simp only [List.forall_mem_cons]
    exact ⟨hostDump_bytes hb rfl nofun, hostDump_bytes hb rfl nofun, hostDump_bytes hb rfl nofun, nofun⟩
  · obtain ⟨bs, hdump, hlen, hbytes⟩ := hostDump_bytes (n := 0x23) hb rfl fun _ => hl
    exact ⟨bs, hdump, hlen, fun i hi => hbytes i (hi.trans_eq hlen.symm)⟩

theorem hostLoad_of_ok {n : Nat} {bs : List Byte} {s : State} (hb : s.flags.busy = false)
    (hok : (hostLoad n bs s).drv.answer = some .ok) :
    ∃ b, bufferOf n = some b ∧ fits b bs.length = true ∧
      hostLoad n bs s = answered .ok ((s.setBuf (Buffers.load b bs s.buf)).setFlags (loadFlags b s.flags)) := by
  cases hn : bufferOf n with
  | none => simp [hostLoad_of_none hn] at hok
  | some b =>
    have hload := hostLoad_of_some (bs := bs) hb hn (Bool.decide_eq_true (b := fits b bs.length)).symm
    by_cases hfits : fits b bs.length = true
    · exact ⟨b, rfl, hfits, hload.trans (if_pos hfits)⟩
    · simp [hload, hfits] at hok

theorem loadFlags_busy (b : BufName) (f : Flags) : (loadFlags b f).busy = f.busy := by cases b <;> rfl

/-- Settles O56: the load leaves exactly the bytes in the buffer of that number, and sets `HL` where it is `HDRBUF`. -/
theorem loadThenDumpReturnsBytes : Obligations.LoadThenDumpReturnsBytes := by
  intro s n bs hb hok
  obtain ⟨b, hn, hfits, hload⟩ := hostLoad_of_ok hb hok
  obtain ⟨-, hlen, hmem, -⟩ := load_facts hfits s.buf
  have hbusy : (hostLoad n bs s).flags.busy = false := by rw [hload]; exact (loadFlags_busy b s.flags).trans hb
  have hbytes : bufferBytes b (hostLoad n bs s) = bs := by rw [hload]; exact bufferBytes_of_ofBytes hmem hlen
  have hdefined : b = .hdr → (hostLoad n bs s).flags.hl = true := by rintro rfl; rw [hload]; rfl
  rw [hostDump_of_some hbusy hn hdefined, answered_answer, hbytes]

/-! ## Refused accesses (R160; O55) -/

theorem hostDump_refused_or_bytes (n : Nat) (s : State) : hostDump n s = answered .refused s ∨
    ∃ b, hostDump n s = answered (.bytes (bufferBytes b s)) (s.setDrv { s.drv with draws := s.drv.draws + 1 }) := by
  simp only [hostDump]
  split
  · exact .inl rfl
  · split
    · exact .inl rfl
    · next b _ =>
      split
      · exact .inl rfl
      · exact .inr ⟨b, rfl⟩

/-- Settles O55: a refusal is one of the outcomes of each access, and the only one that answers so; what is refused, by the
numbers. -/
theorem refusedAccessChangesNothing : Obligations.RefusedAccessChangesNothing := by
  refine ⟨fun s n v bs => ?_, fun s n v bs => ⟨fun hb => ?_, fun hn => ?_, fun hn => ?_⟩⟩
  · simp only [List.forall_mem_cons, move]
    refine ⟨fun hr => ?read, fun hr => ?write, fun hr => ?load, fun hr => ?dump, nofun⟩
    case read =>
      obtain ⟨a, e⟩ := hostRead_cases n s
      rw [e, answered_answer] at hr
      exact e.trans (congrArg (answered · s) (Option.some.inj hr))
    case write =>
      rcases hostWrite_cases n v s with e | ⟨_, -, -, e⟩
      · exact e
      · simp [e] at hr
    case load =>
      rcases hostLoad_cases n bs s with e | ⟨_, -, -, e⟩
      · exact e
      · simp [e] at hr
    case dump =>
      rcases hostDump_refused_or_bytes n s with e | ⟨_, e⟩
      · exact e
      · simp [e] at hr
  · exact ⟨hostWrite_of_busy hb n v, hostLoad_of_busy hb n bs, hostDump_of_busy hb n,
      fun hn => hostRead_of_busy hb (readableWhileBusy_eq_false hn)⟩
  · have hnotRegister : n ∉ [0x09, 0x0C, 0x0D, 0x0F, 0x10] := by
      simp only [List.mem_cons, List.not_mem_nil, or_false] at hn ⊢
      omega
    exact ⟨hostRead_of_none (hostRegister_of_bufferNumber hn s),
      hostWrite_of_none (writtenRegs_eq_none hnotRegister v s.h)⟩
  · exact ⟨hostLoad_of_none (bufferOf_eq_none hn) bs s, hostDump_of_none (bufferOf_eq_none hn) s⟩

end Sys2Proof.Machine
end

section
/-! Proofs of the statements about exceptions (60_exceptions.md): what is recorded and what is left by a refusal, by `raise`, and by
each of the three errors that a header can be rejected with. -/

namespace Sys2Proof.Machine

/-! ## What `raise` records (R39, R200; O19) -/

theorem Cause.isTransport_eq_decide (c : Cause) : c.isTransport = decide (c.kind = 3) := rfl

/-- A recorded cause has the bit of its kind (R39). -/
theorem Cause.stickyBit_eq_shiftLeft {c : Cause} (hc : c ≠ .none) : c.stickyBit = 1#8 <<< c.kind.toNat := by
  cases c with
  | none => exact absurd rfl hc
  | _ => rfl

/-- Only a transport error adds to the wire, and no more than some first bytes of what was staged (R70 (b), R200). -/
theorem raise_wire (c : Cause) (info : Word) (s : State) :
    ∃ k, (raise c info s).env.wire = s.env.wire ++ if c.isTransport then s.txq.take k else [] := by
  cases hc : c.isTransport with
  | true =>
    obtain ⟨k, n, e⟩ := discardStaged_spec s
    exact ⟨k, by rw [raise_transport hc, e]; rfl⟩
  | false => exact ⟨0, by rw [raise_of_not_isTransport hc]; exact (List.append_nil _).symm⟩

/-- Settles O19: `raise` field by field, the kinds 1, 2, 3 and 5 being those of a cause. -/
theorem raiseRecordsAndEnds : Obligations.RaiseRecordsAndEnds := by
  intro c info s hkind
  have hcause : c ≠ .none := by
    rintro rfl
    revert hkind
    decide
  obtain ⟨hh, hbuf, hmaxbody, hflags, herrs, hseq, hcmdreg, htxq, hrx, hrxEnded, -⟩ := raise_fields c info s
  obtain ⟨k, hwire⟩ := raise_wire c info s
  rw [Cause.stickyBit_eq_shiftLeft hcause] at herrs
  simp only [Cause.isTransport_eq_decide, decide_eq_true_eq] at hflags htxq hwire
  rw [herrs, hflags]
  exact ⟨rfl, rfl, rfl, rfl, htxq, rfl, rfl, hseq, hh, hbuf, hmaxbody, hcmdreg, rfl, rfl, rfl, hrx, hrxEnded, k, hwire⟩

/-! ## Refusals (R46, R197; O18) -/

theorem issueUnknown_refused {s : State} (hb : s.flags.busy = false) (code : Byte) (arg : Word) :
    issueUnknown code arg s = notStarted .unknownCode code arg s := by
  rw [issueUnknown, hb, refuse_eq]
  rfl

/-- A decode without a loaded header, on a live or a dead link (R46 step 4). -/
theorem issue_decode_refused {s : State} (code : Byte) (arg : Word) (hb : s.flags.busy = false) (hl : s.flags.hl = false) :
    issue code arg false s.flags.hl .decode s = notStarted .badSequence code arg s := by
  rw [hl, issue_refused (st := false) hb nofun, refuse_eq]

/-- `CFGMAX` above `VALCAP` (R46 step 5). -/
theorem execCfgmax_refused {s : State} {arg : Word} (hb : s.flags.busy = false) (hlt : Config.valcap < arg.toNat) :
    execCfgmax arg s = .next (notStarted .badOperand Code.cfgmax arg s) := by
  have hx : exceedsValcap arg.toNat = true := by rw [exceedsValcap_eq, decide_eq_true hlt]
  rw [execCfgmax, hb, hx, refuse_eq]
  rfl

/-- The errors a command in flight can meet: those of the streams and the three of the header (R190, R198). -/
def Cause.raisedInFlight (c : Cause) : Prop :=
  c.isTransport = true ∨ c = .magicMismatch ∨ c = .malformedLength ∨ c = .oversizedBody

theorem Cause.raisedInFlight.kind_ne_refused {c : Cause} (h : c.raisedInFlight) : c.kind ≠ 6 := by
  rcases h with h | rfl | rfl | rfl
  · rw [Cause.isTransport_eq_decide, decide_eq_true_eq] at h
    rw [h]
    decide
  all_goals decide

/-- What a micro-step records: nothing, or one of the errors of a command in flight. -/
theorem microStep_cause {s t : State} (hm : microStep s = some t) : t.errs.err.cause.raisedInFlight ∨ t.errs = s.errs := by
  have hraise {c : Cause} (info : Word) (hc : c.raisedInFlight) :
      (raise c info s).errs.err.cause.raisedInFlight ∨ (raise c info s).errs = s.errs := .inl (by rwa [raise_cause])
  rcases microStep_cases hm with ⟨b, -, e⟩ | ⟨b, -, e⟩ | ⟨-, rfl⟩ | ⟨-, rfl⟩ | ⟨-, rfl⟩ | ⟨-, e⟩
  · rcases recvStep_cases e with ⟨x, rest, -, rfl⟩ | rfl
    · exact .inr (received_sameRecords b x (s.setEnv _)).errs
    · exact hraise _ (.inl (shortCause_isTransport b _))
  · rcases sendStep_cases e with ⟨k, -, rfl⟩ | rfl
    · exact .inr (pushed_sameRecords b (s.setEnv _)).errs
    · exact hraise _ (.inl rfl)
  · rcases decodeStep_outcomes s with ⟨-, e⟩ | ⟨-, info, e⟩ | ⟨-, same⟩
    · exact e ▸ hraise _ (.inr (.inl rfl))
    · exact e ▸ hraise _ (.inr (.inr (.inl rfl)))
    · exact .inr same.errs
  · rw [checkStep]
    split
    · exact hraise _ (.inr (.inr (.inr rfl)))
    · exact .inr (nextRecv_sameRecords _ (allocate s)).errs
  · exact .inr (encodeStep_sameRecords s).errs
  · rcases flushStep_cases e with ⟨k, -, rfl⟩ | rfl
    · exact .inr rfl
    · exact hraise _ (.inl rfl)

/-- Settles O18: each refusal is the failed test of its acceptance step, and no micro-step records one. -/
theorem refusalsAreRecorded : Obligations.RefusalsAreRecorded := by
  refine ⟨fun s arg hb => ⟨fun code => issueUnknown_refused hb code arg, fun hl => ⟨?_, ?_⟩, ?_, execCfgmax_refused hb⟩, ?_⟩
  · exact congrArg _ (issue_decode_refused Code.decreq arg hb hl)
  · exact congrArg _ (issue_decode_refused Code.decrsp arg hb hl)
  · exact exec_rdframe_refused arg hb
  · exact fun s t hm => (microStep_cause hm).imp_left Cause.raisedInFlight.kind_ne_refused

/-! ## A header rejected at a micro-step (R131, R140; O20 to O22) -/

theorem microStep_mismatch {s : State} (hp : s.seq.phase = .decode) (hm : byteOf (hdrBytes s) 0 ≠ magicOf s.cmdreg) :
    microStep s = some (raise .magicMismatch ((byteOf (hdrBytes s) 0).setWidth 32) s) := by
  rw [microStep_decode hp, decodeStep_eq, if_pos hm]

theorem microStep_malformed {s : State} (hp : s.seq.phase = .decode) (hm : byteOf (hdrBytes s) 0 = magicOf s.cmdreg)
    (hl : fieldAt (hdrBytes s) 8 4 < fieldAt (hdrBytes s) 2 2 + (byteOf (hdrBytes s) 4).toNat) :
    microStep s = some (raise .malformedLength (BitVec.ofNat 32 (fieldAt (hdrBytes s) 8 4)) s) := by
  rw [microStep_decode hp, decodeStep_eq, if_neg (not_not.mpr hm), if_pos hl]

theorem microStep_oversized {s : State} (hp : s.seq.phase = .check) (hmax : s.maxbody.toNat < s.h.totLen.toNat) :
    microStep s = some (raise .oversizedBody s.h.totLen s) := by
  have hlt : s.maxbody < s.h.totLen := hmax
  rw [microStep_check hp, checkStep, if_pos hlt]

/-! ## A header rejected within a command (R141, R143, R144; O20 to O22)

The rows of the outcomes `magicMismatch`, `malformed` and `oversized` in R145, here whatever is staged: none of the three errors
is one of the transport's. -/

/-- `RDFRAME` ends with its check (R140, R141). -/
theorem seqTurn_accept_rdframe_oversized {s : State} (hy : s.drv.yields = []) (hmax : s.maxbody.toNat < s.h.totLen.toNat) :
    seqTurn (accept Code.rdframe .check s) = endedError .oversizedBody .check Code.rdframe s.h.totLen
      { s with flags := { s.flags with hv := false, fok := false } } := by
  have hcheck := microStep_oversized (s := accept Code.rdframe .check s) rfl hmax
  refine (seqTurn_of_last_step (s := accept Code.rdframe .check s) rfl hy hcheck (raise_busy _ _ _)).trans ?_
  exact raise_of_not_isTransport (c := .oversizedBody) rfl _ _

/-- The state that `LDHDR` leaves when the stream has a header (R130). -/
def headerTaken (s : State) : State :=
  endedOk Code.ldhdr (consumed Config.headerLen (headerLoaded true false s))

theorem hdrBytes_headerTaken {s : State} (hlen : Config.headerLen ≤ s.env.rx.length) :
    hdrBytes (headerTaken s) = s.env.rx.take 24 :=
  hdrBytes_of (headerTaken s) _ rfl (List.length_take_of_le hlen)

theorem byteOf_headerTaken {s : State} (hlen : Config.headerLen ≤ s.env.rx.length) {i : Nat} (hi : i < 24) :
    byteOf (hdrBytes (headerTaken s)) i = byteOf s.env.rx i := by
  rw [hdrBytes_headerTaken hlen, byteOf_take _ hi]

theorem fieldAt_headerTaken {s : State} (hlen : Config.headerLen ≤ s.env.rx.length) {i n : Nat} (hi : i + n ≤ 24) :
    fieldAt (hdrBytes (headerTaken s)) i n = fieldAt s.env.rx i n := by
  rw [hdrBytes_headerTaken hlen, fieldAt_take _ hi]

section
variable {code dcode : Byte} {s : State} (hc : isReceive code = true) (hm : magicOf code = magicOf dcode)
  (a : Word) (hb : s.flags.busy = false) (hd : s.flags.dead = false) (hy : s.drv.yields = [])
  (hlen : Config.headerLen ≤ s.env.rx.length)
include hc hm hb hd hy hlen

/-- A receive that finds a header is its decode and, if that ends ok, its frame read. -/
theorem issue_receive_header : issue code a true true .hdrRx s =
    if endedWell (decodeState dcode (magicOf dcode) (headerTaken s)) then
      asCommand code (seqTurn (accept Code.rdframe .check (decodeState dcode (magicOf dcode) (headerTaken s))))
    else asCommand code (decodeState dcode (magicOf dcode) (headerTaken s)) := by
  set u := asCommand code (accept dcode .decode (headerTaken s))
  have hdecode := (microStep_decode (s := u) rfl).trans (congrArg some (decodeStep_asCommand hc hm (headerTaken s)))
  rw [issue_accepted hb fun _ => hd, seqTurn_accept_hdrRx_full hc dcode hy hlen, ldhdrState_ok hlen]
  refine (Phase.receives.seqTurn_of_step (s := u) (.inr (.inr (.inl rfl))) hy rfl hdecode).trans ?_
  split_ifs with hw
  · obtain ⟨h, -, e⟩ := decodeState_of_endedWell hw
    rw [e]
    exact seqTurn_check_asCommand code rfl rfl hy
  · exact seqTurn_of_idle (decodeState_busy dcode _ _)

theorem issue_receive_mismatch (hmagic : byteOf s.env.rx 0 ≠ magicOf dcode) :
    issue code a true true .hdrRx s = endedError .magicMismatch .decode code ((byteOf s.env.rx 0).setWidth 32)
      (consumed 24 (headerLoaded true false s)) := by
  have hbyte := byteOf_headerTaken hlen (show 0 < 24 by decide)
  rw [issue_receive_header hc hm a hb hd hy hlen, decodeState_mismatch dcode (by rwa [hbyte]), if_neg nofun, hbyte]
  rfl

variable (hmagic : byteOf s.env.rx 0 = magicOf dcode)
include hmagic

theorem issue_receive_malformed (hl : fieldAt s.env.rx 8 4 < fieldAt s.env.rx 2 2 + (byteOf s.env.rx 4).toNat) :
    issue code a true true .hdrRx s = endedError .malformedLength .decode code (BitVec.ofNat 32 (fieldAt s.env.rx 8 4))
      (consumed 24 (headerLoaded true false s)) := by
  have htot := fieldAt_headerTaken hlen (show 8 + 4 ≤ 24 by decide)
  have hmalformed := decodeState_malformed dcode ((byteOf_headerTaken hlen (by decide)).trans hmagic)
    (by rwa [htot, fieldAt_headerTaken hlen (by decide), byteOf_headerTaken hlen (by decide)])
  rw [issue_receive_header hc hm a hb hd hy hlen, hmalformed, if_neg nofun, htot]
  rfl

theorem issue_receive_oversized (hl : fieldAt s.env.rx 2 2 + (byteOf s.env.rx 4).toNat ≤ fieldAt s.env.rx 8 4)
    (hmax : s.maxbody.toNat < fieldAt s.env.rx 8 4) :
    issue code a true true .hdrRx s = endedError .oversizedBody .check code (BitVec.ofNat 32 (fieldAt s.env.rx 8 4))
      (consumed 24 ((headerDecoded (magicOf dcode) s).setFlags { s.flags with hl := true, hv := false, fok := false })) := by
  have hlegal := decodeState_legal dcode ((byteOf_headerTaken hlen (by decide)).trans hmagic)
    (by rwa [fieldAt_headerTaken hlen (by decide), fieldAt_headerTaken hlen (by decide), byteOf_headerTaken hlen (by decide)])
  rw [hdrBytes_headerTaken hlen, regsFrom_take] at hlegal
  rw [issue_receive_header hc hm a hb hd hy hlen, hlegal, if_pos (endedWell_endedOk _ _)]
  set d := endedOk dcode _
  have htot : d.h.totLen = BitVec.ofNat 32 (fieldAt s.env.rx 8 4) := regsFrom_totLen _ _ _
  have hmaxd : d.maxbody.toNat < d.h.totLen.toNat := by rwa [htot, toNat_ofNat_fieldAt s.env.rx 8 4]
  rw [seqTurn_accept_rdframe_oversized (s := d) hy hmaxd, htot]
  rfl

end

/-- Settles O20: the magic is the first test of a decode, alone or within a receive. -/
theorem wrongMagicIsReported : Obligations.WrongMagicIsReported := by
  refine ⟨fun _ => microStep_mismatch, fun s a hb hy => ⟨fun hl => ?_, fun hd hlen => ⟨fun hm => ?_, fun hm => ?_⟩⟩⟩
  · obtain ⟨hreq, hrsp⟩ := decodeReadsHeader s a hb hl hy
    exact ⟨fun hm => hreq.trans (congrArg _ (decodeState_mismatch _ hm)),
      fun hm => hrsp.trans (congrArg _ (decodeState_mismatch _ hm))⟩
  · exact congrArg _ (issue_receive_mismatch (code := Code.rxreq) (dcode := Code.decreq) rfl rfl a hb hd hy hlen hm)
  · exact congrArg _ (issue_receive_mismatch (code := Code.rxrsp) (dcode := Code.decrsp) rfl rfl a hb hd hy hlen hm)

/-- Settles O21: the lengths are the second test of a decode. -/
theorem impossibleLengthIsReported : Obligations.ImpossibleLengthIsReported := by
  refine ⟨fun _ => microStep_malformed, fun s a hb hy =>
    ⟨fun hl hlt => ?_, fun hd hlen hlt => ⟨fun hm => ?_, fun hm => ?_⟩⟩⟩
  · obtain ⟨hreq, hrsp⟩ := decodeReadsHeader s a hb hl hy
    exact ⟨fun hm => hreq.trans (congrArg _ (decodeState_malformed _ hm hlt)),
      fun hm => hrsp.trans (congrArg _ (decodeState_malformed _ hm hlt))⟩
  · exact congrArg _ (issue_receive_malformed (code := Code.rxreq) (dcode := Code.decreq) rfl rfl a hb hd hy hlen hm hlt)
  · exact congrArg _ (issue_receive_malformed (code := Code.rxrsp) (dcode := Code.decrsp) rfl rfl a hb hd hy hlen hm hlt)

/-- Settles O22: the check comes after the decode and before the allocation. -/
theorem oversizedBodyIsReported : Obligations.OversizedBodyIsReported := by
  refine ⟨fun _ => microStep_oversized, fun s a hb hd hy =>
    ⟨fun hv hmax => ?_, fun hlen hl hmax => ⟨fun hm => ?_, fun hm => ?_⟩⟩⟩
  · have haccepted : issue Code.rdframe a true s.flags.hv .check s = seqTurn (accept Code.rdframe .check s) := by
      rw [hv, issue_accepted hb fun _ => hd]
    exact congrArg _ (haccepted.trans (seqTurn_accept_rdframe_oversized hy hmax))
  · exact congrArg _ (issue_receive_oversized (code := Code.rxreq) (dcode := Code.decreq) rfl rfl a hb hd hy hlen hm hl hmax)
  · exact congrArg _ (issue_receive_oversized (code := Code.rxrsp) (dcode := Code.decrsp) rfl rfl a hb hd hy hlen hm hl hmax)

end Sys2Proof.Machine
end

section
/-! Proofs of the statements about reset, the dead link and the rejected frame (70_reset_and_hazards.md). -/

namespace Sys2Proof.Machine

/-! ## A frame rejected as oversized and read after all (R235, R239; O33) -/

/-- A header whose registers are there already decodes to the same registers (R132, R133): what a decode keeps of the registers
it was given, it has kept before. -/
theorem regsFrom_regsFrom (magic : Byte) (bs : List Byte) (h : HeaderRegs) :
    regsFrom magic bs (regsFrom magic bs h) = regsFrom magic bs h := by
  by_cases hm : magic = Config.reqMagic
  · simp only [regsFrom, if_pos hm, requestRegs]
  · simp only [regsFrom, if_neg hm, responseRegs]

/-- A loaded request header that has been decoded can be decoded again, and only `HV` comes of it (R132). -/
theorem exec_decreq_decoded {u : State} {bs : List Byte} {h : HeaderRegs} (b : Word) (hb : u.flags.busy = false)
    (hl : u.flags.hl = true) (hy : u.drv.yields = []) (hdr : u.buf.hdr = Mem.ofBytes 0 (bs.take 24)) (hlen : 24 ≤ bs.length)
    (hmagic : byteOf bs 0 = Config.reqMagic) (hlegal : fieldAt bs 2 2 + (byteOf bs 4).toNat ≤ fieldAt bs 8 4)
    (hregs : u.h = regsFrom Config.reqMagic bs h) :
    exec (.decreq b) u = .next (endedOk Code.decreq { u with flags := { u.flags with hv := true } }) := by
  have hbytes : hdrBytes u = bs.take 24 := hdrBytes_of u _ hdr (List.length_take_of_le hlen)
  have hdecoded := decodeState_legal (s := u) Code.decreq (magic := Config.reqMagic)
    (by rwa [hbytes, byteOf_take _ (by decide)])
    (by rwa [hbytes, byteOf_take _ (by decide), fieldAt_take _ (by decide), fieldAt_take _ (by decide)])
  rw [hbytes, regsFrom_take, hregs, regsFrom_regsFrom, ← hregs] at hdecoded
  obtain ⟨hdecreq, -⟩ := decodeReadsHeader u b hb hl hy
  exact hdecreq.trans (congrArg _ hdecoded)

/-- What `RXREQ` leaves of a request over the maximum (R140, R143): the header decoded, its frame still in the stream. -/
def requestRejected (s : State) : State :=
  endedError .oversizedBody .check Code.rxreq (BitVec.ofNat 32 (fieldAt s.env.rx 8 4))
    (consumed 24 ((headerDecoded Config.reqMagic s).setFlags { s.flags with hl := true, hv := false, fok := false }))

/-- What `CFGMAX` and `DECREQ` make of it: a valid header with the frame still in the stream, under the new maximum. -/
def requestReadmitted (n : Word) (s : State) : State :=
  endedOk Code.decreq { configure n (requestRejected s) with
    flags := { (configure n (requestRejected s)).flags with hv := true } }

/-- `RDFRAME` then takes the frame whole (R140, R141). -/
theorem exec_rdframe_readmitted {s : State} {n : Word} (c : Word) (hd : s.flags.dead = false) (hy : s.drv.yields = [])
    (hq : s.txq = []) (hlegal : fieldAt s.env.rx 2 2 + (byteOf s.env.rx 4).toNat ≤ fieldAt s.env.rx 8 4)
    (hadmit : fieldAt s.env.rx 8 4 ≤ n.toNat) (hlen : 24 + fieldAt s.env.rx 8 4 ≤ s.env.rx.length) :
    exec (.rdframe c) (requestReadmitted n s) =
      .next (endedOk Code.rdframe (consumed (fieldAt s.env.rx 8 4) (frameRead true 0 (requestReadmitted n s)))) := by
  set v := requestReadmitted n s
  have htot : v.h.totLen.toNat = fieldAt s.env.rx 8 4 := toNat_ofNat_fieldAt s.env.rx 8 4
  have hsum : v.h.totLen.toNat = v.h.extLen.toNat + v.h.keyLen.toNat + v.h.valLen.toNat :=
    regsFrom_lengths Config.reqMagic s.env.rx s.h (Nat.not_lt.mpr hlegal)
  have hframe : v.h.totLen.toNat ≤ v.env.rx.length := by
    have hrest : v.env.rx = s.env.rx.drop 24 := rfl
    rw [htot, hrest, List.length_drop]
    omega
  rw [← htot, ← rdframeState_ok (htot.trans_le hadmit) hframe]
  exact rdframeReadsFrame v c rfl hd rfl hy hq hsum

/-- Settles O33: the rejection has consumed the header and nothing of the frame, so that a decode of `HDRBUF` gives the same
registers again, and `RDFRAME` takes the bytes that `RXREQ` would have taken. -/
theorem raisedMaximumReadsRejectedFrame : Obligations.RaisedMaximumReadsRejectedFrame := by
  intro s n a b c hb hd hy hq hmagic hlegal hlen hmax hadmit hcap
  have hheader : 24 ≤ s.env.rx.length := (Nat.le_add_right ..).trans hlen
  have hreject : exec (.rxreq a) s = .next (requestRejected s) := congrArg _
    (issue_receive_oversized (code := Code.rxreq) (dcode := Code.decreq) rfl rfl a hb hd hy hheader hmagic hlegal hmax)
  have hconfigure : exec (.cfgmax n) (requestRejected s) = .next (configure n (requestRejected s)) :=
    execCfgmax_accepted rfl hcap
  have hdecode : exec (.decreq b) (configure n (requestRejected s)) = .next (requestReadmitted n s) :=
    exec_decreq_decoded b rfl rfl hy rfl hheader hmagic hlegal rfl
  have hframe := exec_rdframe_readmitted c hd hy hq hlegal hadmit hlen
  obtain ⟨hreceive, -⟩ := exec_receives (s := s.setMaxbody n) a hb hd hy hq
  rw [rxState_ok Code.rxreq (magic := Config.reqMagic) (s := s.setMaxbody n) hmagic hlegal hadmit hlen] at hreceive
  have htaken := congrArg State.env (consumed_frameRead true 24 (fieldAt s.env.rx 8 4) (headerDecoded Config.reqMagic s))
  exact ⟨_, _, _, _, _, hreject, rfl, hconfigure, hdecode, hframe, rfl, hreceive, rfl, rfl, rfl, htaken, rfl⟩

/-! ## A dead link (R46, R232; O17) -/

/-- A stream command on a dead link is not started (R46 step 3), whatever its precondition says. -/
theorem issue_stream_dead {s : State} (hb : s.flags.busy = false) (hd : s.flags.dead = true) (code : Byte) (arg : Word)
    (ready : Bool) (p : Phase) : issue code arg true ready p s = notStarted .linkDead code 0 s := by
  rw [issue_dead hb hd, linkDead_eq]

/-- Settles O17: the six are the commands issued as stream commands, and no step but a reset clears `DEAD` (O12). -/
theorem deadLinkStopsStreamCommands : Obligations.DeadLinkStopsStreamCommands := by
  intro s hd
  refine ⟨fun a hb => ?_, fun t hnr h => ?_⟩
  · have hdead (code : Byte) (ready : Bool) (p : Phase) :
        (.next (issue code a true ready p s) : Host.Outcome State Fault Refusal) = .next (notStarted .linkDead code 0 s) :=
      congrArg _ (issue_stream_dead hb hd code a ready p)
    exact ⟨hdead _ _ _, hdead _ _ _, hdead _ _ _, hdead _ _ _, hdead _ _ _, hdead _ _ _⟩
  · obtain ⟨-, hkept⟩ := errorRecordsPersist s t hnr h
    exact hkept hd

/-! ## `Reset` (R51, R220; O11) -/

/-- All that a reset leaves: the streams, with some first bytes of what was staged on the wire, and the model's own fields but for
the draw of their number. -/
theorem resetBlock_spec (s : State) : ∃ k n : Nat, k ≤ s.txq.length ∧
    resetBlock s = { State.reset with
      env := { s.env with wire := s.env.wire ++ s.txq.take k }, drv := { s.drv with draws := n } } := by
  obtain ⟨k, n, e⟩ := discardStaged_spec s
  refine ⟨min k s.txq.length, n, Nat.min_le_right .., ?_⟩
  rw [resetBlock, e, ← List.take_eq_take_min]
  rfl

/-- Settles O11: the step takes the reset off the list and applies it. -/
theorem resetRestoresBlock : Obligations.ResetRestoresBlock := by
  intro s rest hinputs
  obtain ⟨k, n, hk, e⟩ := resetBlock_spec (popped rest s)
  have hstep : step s = .next (resetBlock (popped rest s)) := step_of_move (nextInput_cons hinputs) nofun
  exact ⟨k, { s.drv with inputs := rest, draws := n }, hk, rfl, rfl, rfl, hstep.trans (congrArg _ e)⟩

end Sys2Proof.Machine
end
